-- ==== Sys2Proof/Word.lean ====
section
/-! DEFINITION. The word and byte types of the engine (spec/00_scope.md R8: `Un` is the type of unsigned
n-bit integers). -/

namespace Sys2Proof

/-- `U32`: a word of a command packet, a coder register, a model count. -/
abbrev Word := BitVec 32

/-- `U8`: one byte of a compressed stream, or a cause code of a response. -/
abbrev Byte := BitVec 8

end Sys2Proof
end

