-- ==== Sys2Proof/Syntax.lean ====
section
/-! DEFINITION. The commands of the engine: one constructor per row of spec/opcode_table.json (30_encoding.md R94).
The operands are the fields of the packet, exactly as they stand in it (R93). -/

namespace Sys2Proof

/-- One command. `slot` and `ctx` are the B field, `csr`, `n`, `bit` and `unit` the A field, the words are operand words. -/
inductive Instr where
  /-- NOP, OPC 0x00 (44_system.md R230). -/
  | nop
  /-- RESET, OPC 0x01 (R231). -/
  | reset
  /-- RD_CSR csr, OPC 0x02 (R232). -/
  | rdCsr (csr : BitVec 8)
  /-- ENC_INIT, OPC 0x10 (40_encoder.md R121). -/
  | encInit
  /-- ENC_DONE, OPC 0x11 (R125). -/
  | encDone
  /-- ENC_BIT bit, slot, OPC 0x12 (R122). -/
  | encBit (bit : BitVec 1) (slot : BitVec 16)
  /-- ENC_SYM slot, symbol, OPC 0x13 (R123). -/
  | encSym (slot : BitVec 16) (symbol : Word)
  /-- ENC_BITS n, value, OPC 0x14 (R124). -/
  | encBits (n : BitVec 8) (value : Word)
  /-- DEC_INIT, OPC 0x20 (41_decoder.md R151). -/
  | decInit
  /-- DEC_DONE, OPC 0x21 (R155). -/
  | decDone
  /-- DEC_BIT slot, OPC 0x22 (R152). -/
  | decBit (slot : BitVec 16)
  /-- DEC_SYM slot, OPC 0x23 (R153). -/
  | decSym (slot : BitVec 16)
  /-- DEC_BITS n, OPC 0x24 (R154). -/
  | decBits (n : BitVec 8)
  /-- BM_INIT slot, OPC 0x30 (42_models.md R171). -/
  | bmInit (slot : BitVec 16)
  /-- SM_CREATE slot, nsym, OPC 0x31 (R174). -/
  | smCreate (slot : BitVec 16) (nsym : Word)
  /-- SM_CREATE_B slot, nsym, counts, OPC 0x32 (R175). -/
  | smCreateB (slot : BitVec 16) (nsym : Word) (counts : List Word)
  /-- SM_RESET slot, OPC 0x33 (R176). -/
  | smReset (slot : BitVec 16)
  /-- IC_CONFIG unit, geometry, contexts, OPC 0x40 (43_integer_compressor.md R201). -/
  | icConfig (unit : BitVec 8) (geometry : Word) (contexts : Word)
  /-- IC_INIT unit, OPC 0x41 (R202). -/
  | icInit (unit : BitVec 8)
  /-- IC_COMPRESS unit, ctx, predicted, actual, OPC 0x42 (R203). -/
  | icCompress (unit : BitVec 8) (ctx : BitVec 16) (predicted : Word) (actual : Word)
  /-- IC_DECOMPRESS unit, ctx, predicted, OPC 0x43 (R204). -/
  | icDecompress (unit : BitVec 8) (ctx : BitVec 16) (predicted : Word)
  /-- IC_GETK unit, OPC 0x44 (R205). -/
  | icGetK (unit : BitVec 8)
  deriving DecidableEq, Repr

end Sys2Proof
end

