-- ==== Sys2Proof/WellFormed.lean ====
section
/-! DEFINITION. Which terms of `Instr` are a packet of CMD. Every field of every constructor but one takes every value of
its type in the encoding (30_encoding.md R93); the one relation between fields is the length of SM_CREATE_B's table (R92). -/

namespace Sys2Proof

/-- How many count words a SM_CREATE_B packet with symbol count `nsym` carries: `nsym` if `2 <= nsym <= 2048`, else none (R92). -/
def smCreateBCounts (nsym : Word) : Nat :=
  if 2 ≤ nsym.toNat ∧ nsym.toNat ≤ 2048 then nsym.toNat else 0

/-- The instruction is one that a packet of CMD can express. -/
def Instr.wellFormed : Instr → Bool
  | .smCreateB _ nsym counts => counts.length == smCreateBCounts nsym
  | .nop | .reset | .rdCsr _ | .encInit | .encDone | .encBit _ _ | .encSym _ _ | .encBits _ _ | .decInit | .decDone
  | .decBit _ | .decSym _ | .decBits _ | .bmInit _ | .smCreate _ _ | .smReset _ | .icConfig _ _ _ | .icInit _
  | .icCompress _ _ _ _ | .icDecompress _ _ _ | .icGetK _ => true

end Sys2Proof
end

