-- ==== Sys2Proof/Decode.lean ====
section
/-! DEFINITION. Cutting the word stream of CMD into packets, reading a packet as an instruction (30_encoding.md R90 to R98),
and the encoder written from the same tables. -/

namespace Sys2Proof

/-! ## The fields of word 0 (R91) -/

/-- OPC = word0[31:24]. -/
def fieldOpc (w : Word) : BitVec 8 := w.extractLsb' 24 8

/-- A = word0[23:16]. -/
def fieldA (w : Word) : BitVec 8 := w.extractLsb' 16 8

/-- B = word0[15:0]. -/
def fieldB (w : Word) : BitVec 16 := w.extractLsb' 0 16

/-- Word 0 from its three fields: `{OPC, A, B}`. -/
def packFields (opc : BitVec 8) (a : BitVec 8) (b : BitVec 16) : Word := opc ++ a ++ b

/-! ## The opcode map (R94) -/

/-- The rows of the opcode map by name. -/
inductive Opcode where
  | nop | reset | rdCsr | encInit | encDone | encBit | encSym | encBits | decInit | decDone | decBit | decSym | decBits
  | bmInit | smCreate | smCreateB | smReset | icConfig | icInit | icCompress | icDecompress | icGetK
  deriving DecidableEq, Repr

/-- The four length classes of a packet (R92). -/
inductive Format where
  | w1 | w2 | w3 | wv
  deriving DecidableEq, Repr

/-- The OPC column of R94. -/
def Opcode.code : Opcode → BitVec 8
  | .nop => 0x00#8
  | .reset => 0x01#8
  | .rdCsr => 0x02#8
  | .encInit => 0x10#8
  | .encDone => 0x11#8
  | .encBit => 0x12#8
  | .encSym => 0x13#8
  | .encBits => 0x14#8
  | .decInit => 0x20#8
  | .decDone => 0x21#8
  | .decBit => 0x22#8
  | .decSym => 0x23#8
  | .decBits => 0x24#8
  | .bmInit => 0x30#8
  | .smCreate => 0x31#8
  | .smCreateB => 0x32#8
  | .smReset => 0x33#8
  | .icConfig => 0x40#8
  | .icInit => 0x41#8
  | .icCompress => 0x42#8
  | .icDecompress => 0x43#8
  | .icGetK => 0x44#8

/-- All rows, in the table's order. -/
def Opcode.all : List Opcode :=
  [.nop, .reset, .rdCsr, .encInit, .encDone, .encBit, .encSym, .encBits, .decInit, .decDone, .decBit, .decSym, .decBits,
   .bmInit, .smCreate, .smCreateB, .smReset, .icConfig, .icInit, .icCompress, .icDecompress, .icGetK]

/-- The row an OPC value selects; none for a reserved value (R96). -/
def Opcode.ofCode (c : BitVec 8) : Option Opcode :=
  Opcode.all.find? fun o => o.code == c

/-- The length class of a row (R92, the `format` column of spec/opcode_table.json). -/
def Opcode.format : Opcode → Format
  | .nop | .reset | .rdCsr | .encInit | .encDone | .encBit | .decInit | .decDone | .decBit | .decSym | .decBits
  | .bmInit | .smReset | .icInit | .icGetK => .w1
  | .encSym | .encBits | .smCreate | .icDecompress => .w2
  | .icConfig | .icCompress => .w3
  | .smCreateB => .wv

/-- The must-be-zero bits of word 0 (R95): a field R94 shows as 0, and A[7:1] of ENC_BIT. -/
def Opcode.mustBeZero : Opcode → Word
  | .nop | .reset | .encInit | .encDone | .decInit | .decDone => 0x00FFFFFF#32
  | .rdCsr | .encBits | .decBits | .icConfig | .icInit | .icGetK => 0x0000FFFF#32
  | .encBit => 0x00FE0000#32
  | .encSym | .decBit | .decSym | .bmInit | .smCreate | .smCreateB | .smReset => 0x00FF0000#32
  | .icCompress | .icDecompress => 0x00000000#32

/-- How many operand words follow word 1 in a SM_CREATE_B packet whose word 1 is `nsym` (R92). -/
def biasWords (nsym : Word) : Nat :=
  if 2 ≤ nsym.toNat ∧ nsym.toNat ≤ 2048 then nsym.toNat else 0

/-- How many operand words a packet has, given its word 1 (which only SM_CREATE_B's length depends on, R92). -/
def operandCount (o : Opcode) (w1 : Word) : Nat :=
  match o.format with
  | .w1 => 0
  | .w2 => 1
  | .w3 => 2
  | .wv => 1 + biasWords w1

/-- The instruction of a packet with a known opcode and no offending bit (R93, R94). -/
def build (o : Opcode) (w0 : Word) (ops : List Word) : Instr :=
  let a := fieldA w0
  let b := fieldB w0
  let w1 := ops.getD 0 0#32
  let w2 := ops.getD 1 0#32
  match o with
  | .nop => .nop
  | .reset => .reset
  | .rdCsr => .rdCsr a
  | .encInit => .encInit
  | .encDone => .encDone
  | .encBit => .encBit (a.extractLsb' 0 1) b
  | .encSym => .encSym b w1
  | .encBits => .encBits a w1
  | .decInit => .decInit
  | .decDone => .decDone
  | .decBit => .decBit b
  | .decSym => .decSym b
  | .decBits => .decBits a
  | .bmInit => .bmInit b
  | .smCreate => .smCreate b w1
  | .smCreateB => .smCreateB b w1 (ops.drop 1)
  | .smReset => .smReset b
  | .icConfig => .icConfig a w1 w2
  | .icInit => .icInit a
  | .icCompress => .icCompress a b w1 w2
  | .icDecompress => .icDecompress a b w1
  | .icGetK => .icGetK a

/-! ## The decoder -/

/-- Why a packet is illegal (both are the IllegalCommand fault, 60_exceptions.md R241). -/
inductive Illegal where
  /-- A reserved OPC value (R96). -/
  | reservedOpcode
  /-- A non-zero must-be-zero bit of word 0 (R95). -/
  | mustBeZero
  deriving DecidableEq, Repr

/-- What stands at the front of the word stream. -/
inductive Decoded where
  /-- Nothing: no packet has arrived. -/
  | idle
  /-- Fewer words than the packet's opcode requires, which CMD cannot express (R92). -/
  | truncated
  /-- An illegal packet: why, its word 0, and the words after the packet (R95, R96). -/
  | illegal (why : Illegal) (w0 : Word) (rest : List Word)
  /-- An instruction, and the words after its packet. -/
  | instr (i : Instr) (rest : List Word)
  deriving DecidableEq, Repr

/-- Cut the first packet off the word stream and read it. Total on any words. A rejected packet is cut at the length R92
gives for its OPC (R95); a packet with a reserved OPC is one word long (R96). -/
def decode : List Word → Decoded
  | [] => .idle
  | w0 :: rest =>
    match Opcode.ofCode (fieldOpc w0) with
    | none => .illegal .reservedOpcode w0 rest
    | some o =>
      let n := operandCount o (rest.headD 0#32)
      if rest.length < n then .truncated
      else if w0 &&& o.mustBeZero ≠ 0#32 then .illegal .mustBeZero w0 (rest.drop n)
      else .instr (build o w0 (rest.take n)) (rest.drop n)

/-! ## The encoder -/

/-- The row of R94 an instruction belongs to. -/
def Instr.opcode : Instr → Opcode
  | .nop => .nop
  | .reset => .reset
  | .rdCsr _ => .rdCsr
  | .encInit => .encInit
  | .encDone => .encDone
  | .encBit _ _ => .encBit
  | .encSym _ _ => .encSym
  | .encBits _ _ => .encBits
  | .decInit => .decInit
  | .decDone => .decDone
  | .decBit _ => .decBit
  | .decSym _ => .decSym
  | .decBits _ => .decBits
  | .bmInit _ => .bmInit
  | .smCreate _ _ => .smCreate
  | .smCreateB _ _ _ => .smCreateB
  | .smReset _ => .smReset
  | .icConfig _ _ _ => .icConfig
  | .icInit _ => .icInit
  | .icCompress _ _ _ _ => .icCompress
  | .icDecompress _ _ _ => .icDecompress
  | .icGetK _ => .icGetK

/-- The A column of R94. -/
def Instr.encodeA : Instr → BitVec 8
  | .rdCsr csr => csr
  | .encBit bit _ => bit.setWidth 8
  | .encBits n _ | .decBits n => n
  | .icConfig u _ _ | .icInit u | .icCompress u _ _ _ | .icDecompress u _ _ | .icGetK u => u
  | .nop | .reset | .encInit | .encDone | .encSym _ _ | .decInit | .decDone | .decBit _ | .decSym _ | .bmInit _
  | .smCreate _ _ | .smCreateB _ _ _ | .smReset _ => 0#8

/-- The B column of R94. -/
def Instr.encodeB : Instr → BitVec 16
  | .encBit _ b | .encSym b _ | .decBit b | .decSym b | .bmInit b | .smCreate b _ | .smCreateB b _ _ | .smReset b
  | .icCompress _ b _ _ | .icDecompress _ b _ => b
  | .nop | .reset | .rdCsr _ | .encInit | .encDone | .encBits _ _ | .decInit | .decDone | .decBits _ | .icConfig _ _ _
  | .icInit _ | .icGetK _ => 0#16

/-- The operand words column of R94. -/
def Instr.operandWords : Instr → List Word
  | .encSym _ s => [s]
  | .encBits _ v => [v]
  | .smCreate _ n => [n]
  | .smCreateB _ n counts => n :: counts
  | .icConfig _ g c => [g, c]
  | .icCompress _ _ p r => [p, r]
  | .icDecompress _ _ p => [p]
  | .nop | .reset | .rdCsr _ | .encInit | .encDone | .encBit _ _ | .decInit | .decDone | .decBit _ | .decSym _ | .decBits _
  | .bmInit _ | .smReset _ | .icInit _ | .icGetK _ => []

/-- Word 0 of the instruction's packet: what INFO holds after IllegalCommand and ModeError (60_exceptions.md R241). -/
def Instr.commandWord (i : Instr) : Word :=
  packFields i.opcode.code i.encodeA i.encodeB

/-- The packet of an instruction. -/
def encode (i : Instr) : List Word := i.commandWord :: i.operandWords

/-! ## The packet the host's table words stand for -/

/-- The packet whose bits are `w` (bit 0 the least significant bit of word 0, a later word's bits counting on from it),
with every bit from `nbits` up read as 0, cut at the length R92 gives for its opcode (notes/assumptions/15.md). -/
def packetOfNumber (nbits w : Nat) : List Word :=
  let v := w % 2 ^ nbits
  let word := fun k : Nat => BitVec.ofNat 32 (v >>> (32 * k))
  match Opcode.ofCode (fieldOpc (word 0)) with
  | none => [word 0]
  | some o => (List.range (1 + operandCount o (word 1))).map word

/-- The instruction the decoder reads from that packet; none where it is illegal. -/
def decodeTableWord (nbits w : Nat) : Option Instr :=
  match decode (packetOfNumber nbits w) with
  | .instr i _ => some i
  | .idle | .truncated | .illegal _ _ _ => none

end Sys2Proof
end

