-- ==== Sys2Proof/Config.lean ====
section
/-! DEFINITION. What an implementation fixes (the four size parameters, 00_scope.md R6) and the free values
(what the spec calls "no value" after a command that goes on). -/

namespace Sys2Proof.Config

/-- NBM at `State.reset`. DESIGN CHOICE (notes/assumptions/1.md): R6 leaves the parameter open; the value is the one
95_test_vectors.md uses. No command reads this constant: every meaning reads the capability register of the state. -/
def resetNbm : Word := 8#32

/-- NSM at `State.reset`. DESIGN CHOICE (notes/assumptions/1.md). -/
def resetNsm : Word := 8#32

/-- NIC at `State.reset`. DESIGN CHOICE (notes/assumptions/1.md). -/
def resetNic : Word := 2#32

/-- IC_MAX_BANK at `State.reset`. DESIGN CHOICE (notes/assumptions/1.md). -/
def resetIcBank : Word := 1024#32

/-- The free word number `n`: the value a coder register takes where a rule says `X <- no value` (R125, R155, R231).
No body: nothing can be proved about it (notes/assumptions/3.md). -/
opaque freeWord : Nat → Word

/-- The free byte number `n`: the value CACHE takes where a rule says `CACHE <- no value` (R231). -/
opaque freeByte : Nat → Byte

end Sys2Proof.Config
end

