-- ==== Sys2Proof/Machine/State.lean ====
section
/-! DEFINITION. The state of the engine (10_state.md R20 to R45), as plain data, the two ways the model itself can stop,
the reset state, and one setter per register or group of registers that a rule writes together. -/

namespace Sys2Proof.Machine

/-- MODE (R21). -/
inductive Mode where
  /-- 0: no coding session open. -/
  | idle
  /-- 1: an encoding session is open. -/
  | enc
  /-- 2: a decoding session is open. -/
  | dec
  /-- 3: a fatal error was raised. -/
  | fault
  deriving DecidableEq, Repr

/-- The cause of a fault (60_exceptions.md R241); `none` is code 0. -/
inductive Cause where
  | none
  /-- Reserved OPC, a non-zero must-be-zero bit of word 0, a CSR number above 6. -/
  | illegalCommand
  /-- The command is not accepted in the current MODE. -/
  | modeError
  /-- A slot index, unit number or encode-side context is outside its range. -/
  | indexRange
  /-- The named model or unit has not been initialised. -/
  | modelUninit
  /-- A data operand of a coding command is outside its range. -/
  | operandRange
  /-- An operand of a construction or configuration command is outside its range. -/
  | configError
  /-- BIN answered EndOfData to a read the command needed. -/
  | streamExhausted
  /-- A decoded direct-bits value is outside its n bits, or the context of IC_DECOMPRESS is outside the bank. -/
  | streamCorruption
  /-- The output stage cannot absorb a carry or count another 0xFF. -/
  | outputStage
  deriving DecidableEq, Repr

/-- Why the MODEL stops (the engine's own faults are next states, R250). Every one is SAFE: the model stops where the rules
give no effect, and no state that meets `State.Inv` reaches one. -/
inductive Fault where
  /-- EncRenorm or DecRenorm with LENGTH = 0: the loop of R127, R156 would never end (R133: LENGTH is never 0). Safe. -/
  | renormStuck
  /-- DecDirectStep with LENGTH >> n = 0: R157 divides by it (R9: the divisor is never 0). Safe. -/
  | divideByZero
  /-- A coding operation names an entry of COUNT, DIST, ERR, MB or MC that the table does not have. Safe. -/
  | tableHole
  deriving DecidableEq, Repr

/-- Why the model refuses. -/
inductive Refusal where
  /-- An arm of `exec` with no meaning. No arm of this model answers it. -/
  | notModelled (mnemonic : String)
  /-- `step`: the word stream ends inside a packet, which "cannot be expressed on CMD and has no meaning" (20_memory.md R68,
  30_encoding.md R92). Safe. -/
  | truncatedPacket
  deriving DecidableEq, Repr

/-- One response on RSP (30_encoding.md R97). -/
structure Response where
  cause : Byte
  result : Word
  deriving DecidableEq, Repr

/-- An adaptive bit model (R36 without VALID). -/
structure BitModel where
  /-- C0: count of observed 0 bits. -/
  c0 : Word
  /-- CN: count of all observed bits, updated only at model updates. -/
  cn : Word
  /-- P0: cached probability of a 0 bit, as a fraction of 2^13. -/
  p0 : Word
  /-- CYCLE: bits between the last and the next update. -/
  cycle : Word
  /-- LEFT: bits still to observe before the next update. -/
  left : Word
  deriving DecidableEq, Repr

/-- An adaptive multi-symbol model (R38 without VALID). -/
structure SymModel where
  /-- NSYM: the alphabet size. -/
  nsym : Nat
  /-- COUNT[0 .. NSYM-1]. -/
  count : List Word
  /-- DIST[0 .. NSYM-1]: cumulative distribution as a fraction of 2^15. -/
  dist : List Word
  /-- TOTAL: sum of COUNT as of the last update. -/
  total : Word
  /-- CYCLE: symbols between the last and the next update. -/
  cycle : Word
  /-- LEFT: symbols still to observe before the next update. -/
  left : Word
  deriving DecidableEq, Repr

/-- The adaptive state of an integer-compressor unit (R42 without INITED). -/
structure IcAdaptive where
  /-- K: bit-length class of the most recent residual. -/
  k : Nat
  /-- ERR[0 .. CONTEXTS-1]. -/
  err : List (BitVec 34)
  /-- MB[0 .. CONTEXTS-1][0 .. BINS-1]. -/
  mb : List (List SymModel)
  /-- MC0. -/
  mc0 : BitModel
  /-- MC[1 .. CORR_BITS]: MC[i] is the entry at i - 1. -/
  mc : List SymModel
  deriving DecidableEq, Repr

/-- A configured integer-compressor unit (R40, R41). -/
structure IcUnit where
  bits : Nat
  contexts : Nat
  bins : Nat
  bitsHigh : Nat
  corrBits : Nat
  corrRange : Word
  corrMin : Word
  corrMax : Word
  /-- Present exactly when INITED = 1 (R42): before IC_INIT the adaptive state "has no value". -/
  adaptive : Option IcAdaptive
  deriving DecidableEq, Repr

/-- Slots by index. An entry stands for a slot that is VALID (a unit that is CONFIGURED); the canonical form is `Store.wf`. -/
abbrev Store (α : Type) := List (Nat × α)

/-- The engine, and the environment of a run: the command words still to come, the responses given, the two byte streams. -/
structure State where
  /-- MODE (R21). -/
  mode : Mode
  /-- BASE (R22). -/
  base : Word
  /-- VALUE (R23). -/
  value : Word
  /-- LENGTH (R24). -/
  length : Word
  /-- CACHE_VALID (R26). -/
  cacheValid : Bool
  /-- CACHE (R26). -/
  cache : Byte
  /-- FFRUN (R26). -/
  ffrun : Word
  /-- CAUSE (R30). -/
  cause : Cause
  /-- INFO (R30). -/
  info : Word
  /-- CAP_NBM (R31). -/
  capNbm : Word
  /-- CAP_NSM (R31). -/
  capNsm : Word
  /-- CAP_NIC (R31). -/
  capNic : Word
  /-- CAP_ICBANK (R31). -/
  capIcBank : Word
  /-- BM[0 .. NBM-1] (R36). -/
  bm : Store BitModel
  /-- SM[0 .. NSM-1] (R38). -/
  sm : Store SymModel
  /-- IC[0 .. NIC-1] (R40 to R42). -/
  ic : Store IcUnit
  /-- CMD: the words not yet executed (R27, R44). -/
  cmd : List Word
  /-- RSP: the responses given, oldest first (30_encoding.md R97). -/
  rsp : List Response
  /-- BIN: the input bytes not yet read (R44, 20_memory.md R63). -/
  bin : List Byte
  /-- BOUT: the output bytes written, oldest first (R44, 20_memory.md R64). -/
  bout : List Byte
  /-- The model's own: how many free values have been drawn (notes/assumptions/3.md). -/
  freeCount : Nat
  deriving DecidableEq, Repr

namespace State

/-- The machine right after the reset event (R45, 70_reset_and_hazards.md R281), with nothing on CMD or BIN.
BASE, VALUE, LENGTH and CACHE have no value in the spec: 0 is a DESIGN CHOICE (notes/assumptions/2.md). The capability
registers are a DESIGN CHOICE (notes/assumptions/1.md). -/
def reset : State where
  mode := .idle
  base := 0#32
  value := 0#32
  length := 0#32
  cacheValid := false
  cache := 0#8
  ffrun := 0#32
  cause := .none
  info := 0#32
  capNbm := Config.resetNbm
  capNsm := Config.resetNsm
  capNic := Config.resetNic
  capIcBank := Config.resetIcBank
  bm := []
  sm := []
  ic := []
  cmd := []
  rsp := []
  bin := []
  bout := []
  freeCount := 0

/-! ## Setters -/

/-- Write MODE. -/
def setMode (s : State) (m : Mode) : State := { s with mode := m }

/-- Write BASE. -/
def setBase (s : State) (w : Word) : State := { s with base := w }

/-- Write VALUE. -/
def setValue (s : State) (w : Word) : State := { s with value := w }

/-- Write LENGTH. -/
def setLength (s : State) (w : Word) : State := { s with length := w }

/-- Write the output stage: CACHE_VALID, CACHE and FFRUN. -/
def setStage (s : State) (v : Bool) (c : Byte) (f : Word) : State := { s with cacheValid := v, cache := c, ffrun := f }

/-- Write the fault registers CAUSE and INFO. -/
def setFault (s : State) (c : Cause) (w : Word) : State := { s with cause := c, info := w }

/-- Write the bit-model slots. -/
def setBm (s : State) (m : Store BitModel) : State := { s with bm := m }

/-- Write the symbol-model slots. -/
def setSm (s : State) (m : Store SymModel) : State := { s with sm := m }

/-- Write the integer-compressor units. -/
def setIc (s : State) (m : Store IcUnit) : State := { s with ic := m }

/-- Write what is left of CMD. -/
def setCmd (s : State) (ws : List Word) : State := { s with cmd := ws }

/-- Write RSP. -/
def setRsp (s : State) (rs : List Response) : State := { s with rsp := rs }

/-- Write what is left of BIN. -/
def setBin (s : State) (bs : List Byte) : State := { s with bin := bs }

/-- Write BOUT. -/
def setBout (s : State) (bs : List Byte) : State := { s with bout := bs }

/-- Write the counter of free values drawn. -/
def setFree (s : State) (n : Nat) : State := { s with freeCount := n }

end State

end Sys2Proof.Machine
end

