-- ==== Sys2Proof/Machine/Flags.lean ====
section
/-! DEFINITION. "The engine has no condition codes, flags or predicates" (10_state.md R28): the outcome of a command is
reported in its response and in MODE, CAUSE and INFO. Here are the codes of those and the status registers a host reads
(R29 to R32). -/

namespace Sys2Proof.Machine

/-- The 2-bit value of MODE (R21). -/
def Mode.code : Mode → BitVec 2
  | .idle => 0#2
  | .enc => 1#2
  | .dec => 2#2
  | .fault => 3#2

/-- The cause codes (60_exceptions.md R241). -/
def Cause.code : Cause → Byte
  | .none => 0#8
  | .illegalCommand => 1#8
  | .modeError => 2#8
  | .indexRange => 3#8
  | .modelUninit => 4#8
  | .operandRange => 5#8
  | .configError => 6#8
  | .streamExhausted => 7#8
  | .streamCorruption => 8#8
  | .outputStage => 9#8

/-- CSR 0, STATUS: MODE in bits 1:0, the other bits 0 (R29). -/
def csrStatus (s : State) : Word := s.mode.code.setWidth 32

/-- CSR 1, CAUSE: the code in bits 7:0, the other bits 0 (R30). -/
def csrCause (s : State) : Word := s.cause.code.setWidth 32

/-- The status and capability registers by number (R29 to R31); numbers 7 to 255 do not exist (R32). -/
def readCsr (csr : BitVec 8) (s : State) : Option Word :=
  match csr.toNat with
  | 0 => some (csrStatus s)
  | 1 => some (csrCause s)
  | 2 => some s.info
  | 3 => some s.capNbm
  | 4 => some s.capNsm
  | 5 => some s.capNic
  | 6 => some s.capIcBank
  | _ => none

end Sys2Proof.Machine
end

