-- ==== Sys2Proof/Machine/Constants.lean ====
section
/-! DEFINITION. The fixed constants of the hardware, by the names of 00_scope.md R7. -/

namespace Sys2Proof.Machine

/-- LENGTH after coder initialisation. -/
def AC_MAX_LENGTH : Nat := 0xFFFFFFFF

/-- Renormalise while LENGTH is below this: 2^24. -/
def AC_MIN_LENGTH : Nat := 0x01000000

/-- Bits of LENGTH discarded before multiplying by P0. -/
def BM_LENGTH_SHIFT : Nat := 13

/-- Bit-model halving threshold on CN: 2^13. -/
def BM_MAX_COUNT : Nat := 8192

/-- Bit-model update cycle after initialisation. -/
def BM_INIT_CYCLE : Nat := 4

/-- Bit-model update cycle cap. -/
def BM_MAX_CYCLE : Nat := 64

/-- Bits of LENGTH discarded before multiplying by a cumulative value. -/
def DM_LENGTH_SHIFT : Nat := 15

/-- Symbol-model halving threshold on TOTAL: 2^15. -/
def DM_MAX_COUNT : Nat := 32768

/-- Smallest alphabet of a symbol model. -/
def SM_MIN_SYMBOLS : Nat := 2

/-- Largest alphabet of a symbol model: 2^11. -/
def SM_MAX_SYMBOLS : Nat := 2048

/-- Largest bit count of one direct-bits command. -/
def DIRECT_MAX : Nat := 32

/-- A direct-bits operation of more than this many bits is a 16-bit step then the rest. -/
def DIRECT_SPLIT : Nat := 19

/-- Bytes the decoder reads at DEC_INIT. -/
def PRIME_BYTES : Nat := 4

/-- Decay shift of the error estimate. -/
def IC_DECAY_SHIFT : Nat := 2

/-- Largest BITS_HIGH. -/
def IC_MAX_BITS_HIGH : Nat := 11

/-- Largest BINS. -/
def IC_MAX_BINS : Nat := 33

end Sys2Proof.Machine
end

