-- ==== Sys2Proof/Machine/Operands.lean ====
section
/-! DEFINITION. The arithmetic notation of 00_scope.md R8, R9 and the operand forms of 30_encoding.md R93. -/

namespace Sys2Proof.Machine

/-! ## Notation (R8, R9) -/

/-- `u32(v)` of a natural number: `v mod 2^32`. -/
def u32 (n : Nat) : Word := BitVec.ofNat 32 n

/-- `u32(v)` of an integer: the low 32 bits of its two's complement. -/
def u32OfInt (v : Int) : Word := BitVec.ofInt 32 v

/-- `s32(v)`: the `I32` with the same low 32 bits as `v`. -/
def s32 (v : Int) : Int := (BitVec.ofInt 32 v).toInt

/-- A word read as an `I32`. -/
def asI32 (w : Word) : Int := w.toInt

/-- `bitlen(v)`: the number of significant bits. -/
def bitlen (v : Nat) : Nat := if v = 0 then 0 else Nat.log2 v + 1

/-! ## Operand forms (R93) -/

/-- A model-slot or context index (B) as INFO reports it. -/
def indexWord (b : BitVec 16) : Word := b.setWidth 32

/-- A unit number or bit count (A) as INFO reports it. -/
def smallWord (a : BitVec 8) : Word := a.setWidth 32

/-- BITS = w1[5:0] of IC_CONFIG. -/
def geometryBits (w1 : Word) : Nat := (w1.extractLsb' 0 6).toNat

/-- BITS_HIGH = w1[13:8]. -/
def geometryBitsHigh (w1 : Word) : Nat := (w1.extractLsb' 8 6).toNat

/-- BINS = w1[21:16]. -/
def geometryBins (w1 : Word) : Nat := (w1.extractLsb' 16 6).toNat

/-- The must-be-zero bits of the geometry word: w1[7:6], w1[15:14], w1[31:22]. -/
def geometryReserved (w1 : Word) : Word := w1 &&& 0xFFC0C0C0#32

/-- The bit count of ENC_BITS and DEC_BITS is legal: 1 .. 32. -/
abbrev legalBitCount (n : BitVec 8) : Prop := 1 ≤ n.toNat ∧ n.toNat ≤ DIRECT_MAX

/-- The value of ENC_BITS fits its `n` bits (every word does when n = 32). -/
abbrev fitsBits (n : BitVec 8) (v : Word) : Prop := 32 ≤ n.toNat ∨ v.toNat < 2 ^ n.toNat

/-- The symbol count of SM_CREATE and SM_CREATE_B is legal: 2 .. 2048. -/
abbrev legalSymbolCount (n : Word) : Prop := SM_MIN_SYMBOLS ≤ n.toNat ∧ n.toNat ≤ SM_MAX_SYMBOLS

/-- The sum of a list of counts, exact. -/
def sumCounts (cs : List Word) : Nat := (cs.map BitVec.toNat).sum

end Sys2Proof.Machine
end

