-- ==== Sys2Proof/Machine/Store.lean ====
section
/-! DEFINITION. The model store: slots by index (10_state.md R35, 20_memory.md R60). A slot with VALID = 0 has no entry
(notes/assumptions/4.md), so initialising a slot adds or replaces its entry and RESET leaves the empty list. -/

namespace Sys2Proof.Machine

/-- The content of slot `i`; none where its VALID is 0. -/
def Store.get {α : Type} : Store α → Nat → Option α
  | [], _ => none
  | (j, a) :: rest, i => if i = j then some a else Store.get rest i

/-- Write slot `i` (and set its VALID). -/
def Store.put {α : Type} : Store α → Nat → α → Store α
  | [], i, a => [(i, a)]
  | (j, b) :: rest, i, a =>
    if i < j then (i, a) :: (j, b) :: rest
    else if i = j then (i, a) :: rest
    else (j, b) :: Store.put rest i a

/-- The canonical form: indices strictly rising, so that equal stores are equal lists. -/
abbrev Store.wf {α : Type} (m : Store α) : Prop := m.Pairwise fun x y => x.1 < y.1

end Sys2Proof.Machine
end

