-- ==== Sys2Proof/Machine/Ops.lean ====
section
/-! DEFINITION. The operations every command shares: how a command's execution ends, the response, TAKING A FAULT (one
operation, 60_exceptions.md R250, R256) and the only way out of it (the reset, R255), the two stream transactions, and the
admission checks on slots and units. -/

namespace Sys2Proof.Machine

/-! ## How a piece of execution ends -/

/-- A piece of a command's execution goes on with a value, raises a fault of the engine (R10 `raise`), or meets a place
where the rules give no effect (a stop of the model). The state carried is the state at that point (R253). -/
inductive Res (α : Type) where
  | ok (a : α) (s : State)
  | raise (c : Cause) (info : Word) (s : State)
  | stuck (f : Fault)
  deriving DecidableEq, Repr

/-- Run `k` after `r`, unless `r` raised or stopped. -/
def Res.bind {α β : Type} (r : Res α) (k : α → State → Res β) : Res β :=
  match r with
  | .ok a s => k a s
  | .raise c info s => .raise c info s
  | .stuck f => .stuck f

/-- Raise `c` with `info` unless `p` holds. -/
def check (p : Prop) [Decidable p] (c : Cause) (info : Word) (s : State) : Res Unit :=
  if p then .ok () s else .raise c info s

/-- An entry of a table the rules say is there; the model stops where it is not (notes/assumptions/12.md). -/
def lookup {α : Type} (l : List α) (i : Nat) (s : State) : Res α :=
  match l[i]? with
  | some a => .ok a s
  | none => .stuck .tableHole

/-! ## The response, the fault, the reset -/

/-- Give the response `(cause, result)` on RSP (30_encoding.md R97). -/
def respond (c : Cause) (result : Word) (s : State) : State :=
  s.setRsp (s.rsp ++ [⟨c.code, result⟩])

/-- TAKING A FAULT with cause `c` and information word `info`. In a MODE other than FAULT: MODE <- FAULT, CAUSE <- c,
INFO <- info, respond (c, 0) (R250). In MODE = FAULT the first fault is kept and only the response is given (R256). -/
def takeFault (c : Cause) (info : Word) (s : State) : State :=
  if s.mode = .fault then respond c 0#32 s
  else respond c 0#32 ((s.setMode .fault).setFault c info)

/-- THE WAY OUT (R255): the effect of the reset event (70_reset_and_hazards.md R280, R281) and of the RESET command
(44_system.md R231). What gets "no value" takes a free value (notes/assumptions/3.md); the capability registers, CMD, RSP,
BIN and BOUT are untouched. -/
def resetEngine (s : State) : State :=
  (((((((((s.setMode .idle).setFault .none 0#32).setStage false (Config.freeByte (s.freeCount + 3)) 0#32).setBase
    (Config.freeWord s.freeCount)).setValue (Config.freeWord (s.freeCount + 1))).setLength
    (Config.freeWord (s.freeCount + 2))).setBm []).setSm []).setIc []).setFree (s.freeCount + 4)

/-- The end of a command: the response of R97 on success, the fault otherwise. -/
def Res.finish (r : Res Word) : Host.Outcome State Fault Refusal :=
  match r with
  | .ok result s => .next (respond .none result s)
  | .raise c info s => .next (takeFault c info s)
  | .stuck f => .fault f

/-! ## The streams (20_memory.md R63, R64) -/

/-- `BinRead()`: consume the next byte of BIN, or raise StreamExhausted on EndOfData. -/
def binRead (s : State) : Res Byte :=
  match s.bin with
  | b :: rest => .ok b (s.setBin rest)
  | [] => .raise .streamExhausted 0#32 s

/-- `BoutWrite(b)`, `n` times: append to BOUT. -/
def boutWrite (n : Nat) (b : Byte) (s : State) : State :=
  s.setBout (s.bout ++ List.replicate n b)

/-! ## Admission checks on slots and units (R243, R244, in the order of R254) -/

/-- The bit model in slot `i`: IndexRange if `i >= NBM`, ModelUninit if VALID = 0. -/
def useBm (i : BitVec 16) (s : State) : Res BitModel :=
  (check (i.toNat < s.capNbm.toNat) .indexRange (indexWord i) s).bind fun _ s =>
    match s.bm.get i.toNat with
    | some m => .ok m s
    | none => .raise .modelUninit (indexWord i) s

/-- The symbol model in slot `j`: IndexRange if `j >= NSM`, ModelUninit if VALID = 0. -/
def useSm (j : BitVec 16) (s : State) : Res SymModel :=
  (check (j.toNat < s.capNsm.toNat) .indexRange (indexWord j) s).bind fun _ s =>
    match s.sm.get j.toNat with
    | some m => .ok m s
    | none => .raise .modelUninit (indexWord j) s

/-- The unit `u`: IndexRange if `u >= NIC`, ModelUninit if CONFIGURED = 0. -/
def useIc (u : BitVec 8) (s : State) : Res IcUnit :=
  (check (u.toNat < s.capNic.toNat) .indexRange (smallWord u) s).bind fun _ s =>
    match s.ic.get u.toNat with
    | some m => .ok m s
    | none => .raise .modelUninit (smallWord u) s

/-- The unit `u` with its adaptive state: ModelUninit also if INITED = 0. -/
def useIcInited (u : BitVec 8) (s : State) : Res (IcUnit × IcAdaptive) :=
  (useIc u s).bind fun unit s =>
    match unit.adaptive with
    | some a => .ok (unit, a) s
    | none => .raise .modelUninit (smallWord u) s

/-- Write bit-model slot `i`. -/
def putBm (i : BitVec 16) (m : BitModel) (s : State) : State := s.setBm (s.bm.put i.toNat m)

/-- Write symbol-model slot `j`. -/
def putSm (j : BitVec 16) (m : SymModel) (s : State) : State := s.setSm (s.sm.put j.toNat m)

/-- Write unit `u`. -/
def putIc (u : BitVec 8) (m : IcUnit) (s : State) : State := s.setIc (s.ic.put u.toNat m)

end Sys2Proof.Machine
end

