-- ==== Sys2Proof/Machine/Coder.lean ====
section
/-! DEFINITION. The shared procedures of the range coder: the encoder's (40_encoder.md R126 to R131) and the decoder's
(41_decoder.md R156 to R158). -/

namespace Sys2Proof.Machine

/-! ## The output stage (R128 to R130) -/

/-- FlushStage(): commit everything pending (R130). CACHE keeps its byte, which no rule reads while CACHE_VALID = 0. -/
def flushStage (s : State) : State :=
  (if s.cacheValid then boutWrite s.ffrun.toNat 0xFF#8 (boutWrite 1 s.cache s) else s).setStage false s.cache 0#32

/-- Emit(b): hand a produced byte to the output stage (R128). -/
def emit (b : Byte) (s : State) : Res Unit :=
  if s.cacheValid = true ∧ b = 0xFF#8 then
    if s.ffrun = 0xFFFFFFFF#32 then .raise .outputStage 0#32 s
    else .ok () (s.setStage true s.cache (s.ffrun + 1#32))
  else
    .ok () ((flushStage s).setStage true b 0#32)

/-- Carry(): add one to the pending bytes, read as a big-endian number (R129). -/
def carry (s : State) : Res Unit :=
  if s.cacheValid = false ∨ s.cache = 0xFF#8 then .raise .outputStage 1#32 s
  else if s.ffrun = 0#32 then .ok () (s.setStage true (s.cache + 1#8) 0#32)
  else .ok () ((boutWrite (s.ffrun.toNat - 1) 0x00#8 (boutWrite 1 (s.cache + 1#8) s)).setStage true 0x00#8 0#32)

/-- Emit(0x00), `n` times (R125). -/
def emitZeros : Nat → State → Res Unit
  | 0, s => .ok () s
  | n + 1, s => (emit 0x00#8 s).bind fun _ s => emitZeros n s

/-! ## The encoder's interval (R126, R127, R131) -/

/-- AddBase(x): add to the low end of the interval; a wrap is the carry (R126). -/
def addBase (x : Nat) (s : State) : Res Unit :=
  let t := s.base.toNat + x
  let s := s.setBase (u32 t)
  if 2 ^ 32 ≤ t then carry s else .ok () s

/-- The loop of EncRenorm, at most `fuel` iterations. -/
def encRenormLoop : Nat → State → Res Unit
  | 0, _ => .stuck .renormStuck
  | fuel + 1, s =>
    (emit (s.base.extractLsb' 24 8) s).bind fun _ s =>
      let s := (s.setBase (s.base <<< 8)).setLength (s.length <<< 8)
      if AC_MIN_LENGTH ≤ s.length.toNat then .ok () s else encRenormLoop fuel s

/-- EncRenorm() (R127). Three iterations are enough whenever LENGTH is not 0 (R133). -/
def encRenorm (s : State) : Res Unit := encRenormLoop 3 s

/-- `if LENGTH < AC_MIN_LENGTH: EncRenorm()`. -/
def encNormalize (s : State) : Res Unit :=
  if s.length.toNat < AC_MIN_LENGTH then encRenorm s else .ok () s

/-- EncDirectStep(n, d): one flat-distribution digit of `n` bits (R131). -/
def encDirectStep (n d : Nat) (s : State) : Res Unit :=
  let s := s.setLength (s.length >>> n)
  (addBase (d * s.length.toNat) s).bind fun _ s => encNormalize s

/-- The pseudocode of ENC_BITS (R124): n > 19 as the low 16 bits first, then the rest. -/
def encDirect (n v : Nat) (s : State) : Res Unit :=
  if DIRECT_SPLIT < n then
    (encDirectStep 16 (v % 2 ^ 16) s).bind fun _ s => encDirectStep (n - 16) (v >>> 16) s
  else encDirectStep n v s

/-! ## The decoder's interval (R156, R157) -/

/-- The loop of DecRenorm, at most `fuel` iterations. -/
def decRenormLoop : Nat → State → Res Unit
  | 0, _ => .stuck .renormStuck
  | fuel + 1, s =>
    (binRead s).bind fun b s =>
      let s := (s.setValue (s.value <<< 8 ||| b.setWidth 32)).setLength (s.length <<< 8)
      if AC_MIN_LENGTH ≤ s.length.toNat then .ok () s else decRenormLoop fuel s

/-- DecRenorm() (R156). -/
def decRenorm (s : State) : Res Unit := decRenormLoop 3 s

/-- `if LENGTH < AC_MIN_LENGTH: DecRenorm()`. -/
def decNormalize (s : State) : Res Unit :=
  if s.length.toNat < AC_MIN_LENGTH then decRenorm s else .ok () s

/-- DecDirectStep(n) (R157): the renormalisation comes before the range check. -/
def decDirectStep (n : Nat) (s : State) : Res Nat :=
  let s := s.setLength (s.length >>> n)
  if s.length = 0#32 then .stuck .divideByZero
  else
    let q := s.value.toNat / s.length.toNat
    let s := s.setValue (u32 (s.value.toNat - q * s.length.toNat))
    (decNormalize s).bind fun _ s => (check (q < 2 ^ n) .streamCorruption (u32 q) s).bind fun _ s => .ok q s

/-- The pseudocode of DEC_BITS (R154). -/
def decDirect (n : Nat) (s : State) : Res Nat :=
  if DIRECT_SPLIT < n then
    (decDirectStep 16 s).bind fun lo s => (decDirectStep (n - 16) s).bind fun hi s => .ok (hi <<< 16 ||| lo) s
  else decDirectStep n s

/-! ## The symbol search (R158) -/

/-- Walk up the upper bounds from symbol `s` on, to the first that exceeds the scaled value. -/
def searchFrom (l v : Nat) : List Word → Nat → Nat
  | [], s => s
  | d :: ds, s => if v < d.toNat * l then s else searchFrom l v ds (s + 1)

/-- SymbolSearch(m, l, v): "the lowest symbol whose cumulative frequency exceeds the scaled value", the last symbol's taken
as infinite. DEDUCED (notes/assumptions/13.md): R158 says this is the unique s of its first sentence. -/
def symbolSearch (m : SymModel) (l v : Nat) : Nat := searchFrom l v (m.dist.drop 1) 0

end Sys2Proof.Machine
end

