-- ==== Sys2Proof/Machine/Models.lean ====
section
/-! DEFINITION. The probability models and their commands BM_INIT, SM_CREATE, SM_CREATE_B, SM_RESET (42_models.md). -/

namespace Sys2Proof.Machine

/-! ## Bit model (R171 to R173) -/

/-- The bit model BM_INIT makes (R171). -/
def bmInitial : BitModel where
  c0 := 1#32
  cn := 2#32
  p0 := 4096#32
  cycle := u32 BM_INIT_CYCLE
  left := u32 BM_INIT_CYCLE

/-- The count pair of BmUpdate: CN catches up, and both are halved above the threshold, keeping C0 < CN (R172). -/
def bmCounts (m : BitModel) : Nat × Nat :=
  let cn := m.cn.toNat + m.cycle.toNat
  let c0 := m.c0.toNat
  if BM_MAX_COUNT < cn then
    let cn := (cn + 1) >>> 1
    let c0 := (c0 + 1) >>> 1
    (c0, if c0 = cn then cn + 1 else cn)
  else (c0, cn)

/-- BmUpdate(m) (R172). -/
def bmUpdate (m : BitModel) : BitModel :=
  let c0 := (bmCounts m).1
  let cn := (bmCounts m).2
  let cycle := min BM_MAX_CYCLE ((5 * m.cycle.toNat) >>> 2)
  { c0 := u32 c0
    cn := u32 cn
    p0 := u32 ((c0 * (0x80000000 / cn)) >>> 18)
    cycle := u32 cycle
    left := u32 cycle }

/-- BmCountdown(m) (R173). -/
def bmCountdown (m : BitModel) : BitModel :=
  let m := { m with left := u32 (m.left.toNat - 1) }
  if m.left = 0#32 then bmUpdate m else m

/-- The count of a coded bit: `C0 + 1` on a 0 bit (R122, R152). -/
def bmCount (bit : BitVec 1) (m : BitModel) : BitModel :=
  if bit = 0#1 then { m with c0 := u32 (m.c0.toNat + 1) } else m

/-- The whole effect of coding a bit on its model (R173). -/
def bmObserve (bit : BitVec 1) (m : BitModel) : BitModel := bmCountdown (bmCount bit m)

/-! ## Multi-symbol model (R177 to R180) -/

/-- The loop of SmRecompute: DIST[k] from the sum `acc` of the counts below k (R178). -/
def cumulate (scale : Nat) : Nat → List Word → List Word
  | _, [] => []
  | acc, c :: cs => u32 ((scale * acc) >>> 16) :: cumulate scale (acc + c.toNat) cs

/-- SmRecompute(m) (R178). -/
def smRecompute (m : SymModel) : SymModel :=
  { m with dist := cumulate (0x80000000 / m.total.toNat) 0 m.count }

/-- SmInit(m, n, c) (R177). -/
def smInit (n : Nat) (c : List Word) : SymModel :=
  smRecompute
    { nsym := n
      count := c
      dist := []
      total := u32 (sumCounts c)
      cycle := u32 ((n + 6) >>> 1)
      left := u32 ((n + 6) >>> 1) }

/-- SmInit(m, n, all-ones). -/
def smUniform (n : Nat) : SymModel := smInit n (List.replicate n 1#32)

/-- The counts and their total at an update, halved above the threshold (R179). -/
def smCounts (m : SymModel) : List Word × Nat :=
  let total := m.total.toNat + m.cycle.toNat
  if DM_MAX_COUNT < total then
    let count := m.count.map fun c => u32 ((c.toNat + 1) >>> 1)
    (count, sumCounts count)
  else (m.count, total)

/-- SmUpdate(m) (R179). -/
def smUpdate (m : SymModel) : SymModel :=
  let cycle := min ((m.nsym + 6) <<< 3) ((5 * m.cycle.toNat) >>> 2)
  { smRecompute { m with count := (smCounts m).1, total := u32 (smCounts m).2 } with
    cycle := u32 cycle
    left := u32 cycle }

/-- SmObserve(m, s) (R180). -/
def smObserve (s : Nat) (m : SymModel) : SymModel :=
  let m := { m with
    count := m.count.modify s fun c => u32 (c.toNat + 1)
    left := u32 (m.left.toNat - 1) }
  if m.left = 0#32 then smUpdate m else m

/-! ## The commands -/

/-- BM_INIT slot (R171). -/
def execBmInit (slot : BitVec 16) (s : State) : Host.Outcome State Fault Refusal :=
  ((check (s.mode ≠ .fault) .modeError (Instr.bmInit slot).commandWord s).bind fun _ s =>
    (check (slot.toNat < s.capNbm.toNat) .indexRange (indexWord slot) s).bind fun _ s =>
      .ok 0#32 (putBm slot bmInitial s)).finish

/-- SM_CREATE slot, nsym (R174). -/
def execSmCreate (slot : BitVec 16) (nsym : Word) (s : State) : Host.Outcome State Fault Refusal :=
  ((check (s.mode ≠ .fault) .modeError (Instr.smCreate slot nsym).commandWord s).bind fun _ s =>
    (check (slot.toNat < s.capNsm.toNat) .indexRange (indexWord slot) s).bind fun _ s =>
      (check (legalSymbolCount nsym) .configError nsym s).bind fun _ s =>
        .ok 0#32 (putSm slot (smUniform nsym.toNat) s)).finish

/-- A count of SM_CREATE_B's table that is 0 or above 32768 (R175). -/
def badCount (c : Word) : Bool := c == 0#32 || decide (DM_MAX_COUNT < c.toNat)

/-- The checks of SM_CREATE_B on its table: the lowest bad count, then the sum (R175). -/
def checkBias (counts : List Word) (s : State) : Res Unit :=
  match counts.find? badCount with
  | some c => .raise .configError c s
  | none => check (sumCounts counts ≤ DM_MAX_COUNT) .configError (u32 (sumCounts counts)) s

/-- SM_CREATE_B slot, nsym, counts (R175). -/
def execSmCreateB (slot : BitVec 16) (nsym : Word) (counts : List Word) (s : State) : Host.Outcome State Fault Refusal :=
  ((check (s.mode ≠ .fault) .modeError (Instr.smCreateB slot nsym counts).commandWord s).bind fun _ s =>
    (check (slot.toNat < s.capNsm.toNat) .indexRange (indexWord slot) s).bind fun _ s =>
      (check (legalSymbolCount nsym) .configError nsym s).bind fun _ s =>
        (checkBias counts s).bind fun _ s =>
          .ok 0#32 (putSm slot (smInit nsym.toNat counts) s)).finish

/-- SM_RESET slot (R176). -/
def execSmReset (slot : BitVec 16) (s : State) : Host.Outcome State Fault Refusal :=
  ((check (s.mode ≠ .fault) .modeError (Instr.smReset slot).commandWord s).bind fun _ s =>
    (useSm slot s).bind fun m s => .ok 0#32 (putSm slot (smUniform m.nsym) s)).finish

end Sys2Proof.Machine
end

