-- ==== Sys2Proof/Machine/Encoder.lean ====
section
/-! DEFINITION. The encoder commands ENC_INIT, ENC_BIT, ENC_SYM, ENC_BITS, ENC_DONE (40_encoder.md R120 to R125). `codeBit`
and `codeSym` are the pseudocode of R122 and R123 on a model, which the integer compressor also applies to its private
models (43_integer_compressor.md R200). -/

namespace Sys2Proof.Machine

/-- x of R122 and R152: P0 * (LENGTH >> 13). -/
def bitSplit (m : BitModel) (s : State) : Nat := m.p0.toNat * (s.length.toNat >>> BM_LENGTH_SHIFT)

/-- The interval arithmetic of ENC_BIT, before the renormalisation (R122). -/
def encBitNarrow (m : BitModel) (bit : BitVec 1) (s : State) : Res Unit :=
  let x := bitSplit m s
  if bit = 0#1 then .ok () (s.setLength (u32 x))
  else (addBase x s).bind fun _ s => .ok () (s.setLength (u32 (s.length.toNat - x)))

/-- EncBit(m, bit) (R122): the updated model and the state. -/
def codeBit (m : BitModel) (bit : BitVec 1) (s : State) : Res BitModel :=
  (encBitNarrow m bit s).bind fun _ s => (encNormalize s).bind fun _ s => .ok (bmObserve bit m) s

/-- l of R123 and R153: LENGTH >> 15. -/
def symUnit (s : State) : Nat := s.length.toNat >>> DM_LENGTH_SHIFT

/-- The upper end of symbol `sym`'s sub-interval: the old LENGTH for the last symbol, else DIST[sym+1] * l (R123, R153). -/
def symUpper (m : SymModel) (sym : Nat) (s : State) : Res Nat :=
  if sym + 1 = m.nsym then .ok s.length.toNat s
  else (lookup m.dist (sym + 1) s).bind fun d s => .ok (d.toNat * symUnit s) s

/-- The interval arithmetic of ENC_SYM, before the renormalisation (R123). -/
def encSymNarrow (m : SymModel) (sym : Nat) (s : State) : Res Unit :=
  (lookup m.dist sym s).bind fun d s =>
    (symUpper m sym s).bind fun upper s =>
      let x := d.toNat * symUnit s
      (addBase x s).bind fun _ s => .ok () (s.setLength (u32 (upper - x)))

/-- EncSym(m, sym) (R123): the updated model and the state. -/
def codeSym (m : SymModel) (sym : Nat) (s : State) : Res SymModel :=
  (encSymNarrow m sym s).bind fun _ s => (encNormalize s).bind fun _ s => .ok (smObserve sym m) s

/-- ENC_INIT (R121). -/
def execEncInit (s : State) : Host.Outcome State Fault Refusal :=
  ((check (s.mode = .idle) .modeError Instr.encInit.commandWord s).bind fun _ s =>
    .ok 0#32 ((((s.setBase 0#32).setLength (u32 AC_MAX_LENGTH)).setStage false s.cache 0#32).setMode .enc)).finish

/-- ENC_BIT bit, slot (R122). -/
def execEncBit (bit : BitVec 1) (slot : BitVec 16) (s : State) : Host.Outcome State Fault Refusal :=
  ((check (s.mode = .enc) .modeError (Instr.encBit bit slot).commandWord s).bind fun _ s =>
    (useBm slot s).bind fun m s =>
      (codeBit m bit s).bind fun m s => .ok 0#32 (putBm slot m s)).finish

/-- ENC_SYM slot, symbol (R123). -/
def execEncSym (slot : BitVec 16) (symbol : Word) (s : State) : Host.Outcome State Fault Refusal :=
  ((check (s.mode = .enc) .modeError (Instr.encSym slot symbol).commandWord s).bind fun _ s =>
    (useSm slot s).bind fun m s =>
      (check (symbol.toNat < m.nsym) .operandRange symbol s).bind fun _ s =>
        (codeSym m symbol.toNat s).bind fun m s => .ok 0#32 (putSm slot m s)).finish

/-- ENC_BITS n, value (R124). -/
def execEncBits (n : BitVec 8) (value : Word) (s : State) : Host.Outcome State Fault Refusal :=
  ((check (s.mode = .enc) .modeError (Instr.encBits n value).commandWord s).bind fun _ s =>
    (check (legalBitCount n) .operandRange (smallWord n) s).bind fun _ s =>
      (check (fitsBits n value) .operandRange value s).bind fun _ s =>
        (encDirect n.toNat value.toNat s).bind fun _ s => .ok 0#32 s).finish

/-- The flush of ENC_DONE: the offset, the shortened LENGTH and the number of zero bytes (R125). -/
def flushInterval (s : State) : Res Unit :=
  if 2 * AC_MIN_LENGTH < s.length.toNat then
    (addBase 0x01000000 s).bind fun _ s =>
      (encRenorm (s.setLength 0x00800000#32)).bind fun _ s => emitZeros 3 s
  else
    (addBase 0x00800000 s).bind fun _ s =>
      (encRenorm (s.setLength 0x00008000#32)).bind fun _ s => emitZeros 2 s

/-- The end of ENC_DONE: MODE <- IDLE, and BASE and LENGTH have no value: free values (R125, notes/assumptions/3.md). -/
def closeEncoder (s : State) : State :=
  (((s.setMode .idle).setBase (Config.freeWord s.freeCount)).setLength (Config.freeWord (s.freeCount + 1))).setFree
    (s.freeCount + 2)

/-- ENC_DONE (R125). -/
def execEncDone (s : State) : Host.Outcome State Fault Refusal :=
  ((check (s.mode = .enc) .modeError Instr.encDone.commandWord s).bind fun _ s =>
    (flushInterval s).bind fun _ s => .ok 0#32 (closeEncoder (flushStage s))).finish

end Sys2Proof.Machine
end

