-- ==== Sys2Proof/Machine/Decoder.lean ====
section
/-! DEFINITION. The decoder commands DEC_INIT, DEC_BIT, DEC_SYM, DEC_BITS, DEC_DONE (41_decoder.md R150 to R155). `readBit`
and `readSym` are the pseudocode of R152 and R153 on a model. -/

namespace Sys2Proof.Machine

/-- Prime the decoder: read `n` bytes, each shifted into the word from the right, so the first is the most significant
(R151, 20_memory.md R66). -/
def primeBytes : Nat → Word → State → Res Word
  | 0, w, s => .ok w s
  | n + 1, w, s => (binRead s).bind fun b s => primeBytes n (w <<< 8 ||| b.setWidth 32) s

/-- The interval arithmetic of DEC_BIT, before the renormalisation (R152). -/
def decBitNarrow (m : BitModel) (s : State) : BitVec 1 × State :=
  let x := bitSplit m s
  if x ≤ s.value.toNat then
    (1#1, (s.setValue (u32 (s.value.toNat - x))).setLength (u32 (s.length.toNat - x)))
  else (0#1, s.setLength (u32 x))

/-- DecBit(m) (R152): the bit and the updated model. -/
def readBit (m : BitModel) (s : State) : Res (BitVec 1 × BitModel) :=
  let bit := (decBitNarrow m s).1
  (decNormalize (decBitNarrow m s).2).bind fun _ s => .ok (bit, bmObserve bit m) s

/-- DecSym(m) (R153): the symbol and the updated model. -/
def readSym (m : SymModel) (s : State) : Res (Nat × SymModel) :=
  let sym := symbolSearch m (symUnit s) s.value.toNat
  (lookup m.dist sym s).bind fun d s =>
    (symUpper m sym s).bind fun upper s =>
      let x := d.toNat * symUnit s
      (decNormalize ((s.setValue (u32 (s.value.toNat - x))).setLength (u32 (upper - x)))).bind fun _ s =>
        .ok (sym, smObserve sym m) s

/-- DEC_INIT (R151). -/
def execDecInit (s : State) : Host.Outcome State Fault Refusal :=
  ((check (s.mode = .idle) .modeError Instr.decInit.commandWord s).bind fun _ s =>
    (primeBytes PRIME_BYTES 0#32 (s.setLength (u32 AC_MAX_LENGTH))).bind fun w s =>
      .ok 0#32 ((s.setValue w).setMode .dec)).finish

/-- DEC_BIT slot (R152). -/
def execDecBit (slot : BitVec 16) (s : State) : Host.Outcome State Fault Refusal :=
  ((check (s.mode = .dec) .modeError (Instr.decBit slot).commandWord s).bind fun _ s =>
    (useBm slot s).bind fun m s =>
      (readBit m s).bind fun r s => .ok (r.1.setWidth 32) (putBm slot r.2 s)).finish

/-- DEC_SYM slot (R153). -/
def execDecSym (slot : BitVec 16) (s : State) : Host.Outcome State Fault Refusal :=
  ((check (s.mode = .dec) .modeError (Instr.decSym slot).commandWord s).bind fun _ s =>
    (useSm slot s).bind fun m s =>
      (readSym m s).bind fun r s => .ok (u32 r.1) (putSm slot r.2 s)).finish

/-- DEC_BITS n (R154). -/
def execDecBits (n : BitVec 8) (s : State) : Host.Outcome State Fault Refusal :=
  ((check (s.mode = .dec) .modeError (Instr.decBits n).commandWord s).bind fun _ s =>
    (check (legalBitCount n) .operandRange (smallWord n) s).bind fun _ s =>
      (decDirect n.toNat s).bind fun v s => .ok (u32 v) s).finish

/-- The end of DEC_DONE: MODE <- IDLE, and VALUE and LENGTH have no value: free values (R155, notes/assumptions/3.md). -/
def closeDecoder (s : State) : State :=
  (((s.setMode .idle).setValue (Config.freeWord s.freeCount)).setLength (Config.freeWord (s.freeCount + 1))).setFree
    (s.freeCount + 2)

/-- DEC_DONE (R155): nothing is read. -/
def execDecDone (s : State) : Host.Outcome State Fault Refusal :=
  ((check (s.mode = .dec) .modeError Instr.decDone.commandWord s).bind fun _ s => .ok 0#32 (closeDecoder s)).finish

end Sys2Proof.Machine
end

