-- ==== Sys2Proof/Machine/IntegerCompressor.lean ====
section
/-! DEFINITION. The integer-compressor units and their commands IC_CONFIG, IC_INIT, IC_COMPRESS, IC_DECOMPRESS, IC_GETK
(43_integer_compressor.md R200 to R210). -/

namespace Sys2Proof.Machine

/-! ## Configuration and initial state (R201, R202) -/

/-- The unit IC_CONFIG makes, with the derived fields of 10_state.md R41 (R201). -/
def configuredUnit (bits bitsHigh bins contexts : Nat) : IcUnit where
  bits := bits
  contexts := contexts
  bins := bins
  bitsHigh := bitsHigh
  corrBits := if bits < 32 then bits else 32
  corrRange := if bits < 32 then u32 (2 ^ bits) else 0#32
  corrMin := if bits < 32 then u32OfInt (-(2 ^ (bits - 1))) else u32OfInt (-(2 ^ 31))
  corrMax := if bits < 32 then u32OfInt (2 ^ (bits - 1) - 1) else u32OfInt (2 ^ 31 - 1)
  adaptive := none

/-- The adaptive state IC_INIT makes (R202). -/
def initialAdaptive (u : IcUnit) : IcAdaptive where
  k := 0
  err := List.replicate u.contexts 0#34
  mb := List.replicate u.contexts (List.replicate u.bins (smUniform (u.corrBits + 1)))
  mc0 := bmInitial
  mc := (List.range u.corrBits).map fun i => smUniform (2 ^ min (i + 1) u.bitsHigh)

/-! ## Bins and the error estimate (R206, R207) -/

/-- Bin(u, ctx) from the value of ERR[ctx] (R206). -/
def historyBin (u : IcUnit) (err : BitVec 34) : Nat :=
  min (u.bins - 1) (bitlen (err.toNat >>> IC_DECAY_SHIFT))

/-- ERR[ctx] after a residual `corr` (R207). -/
def decayed (err : BitVec 34) (corr : Int) : BitVec 34 :=
  BitVec.ofNat 34 (err.toNat - (err.toNat >>> IC_DECAY_SHIFT) + corr.natAbs)

/-- ErrUpdate(u, ctx, corr) (R207). -/
def errUpdate (ctx : Nat) (corr : Int) (a : IcAdaptive) : IcAdaptive :=
  { a with err := a.err.modify ctx fun e => decayed e corr }

/-! ## Residuals (R203, R208 to R210) -/

/-- Fold(u, corr) (R210). -/
def foldResidual (u : IcUnit) (corr : Int) : Int :=
  if corr < asI32 u.corrMin then s32 (corr + u.corrRange.toNat)
  else if asI32 u.corrMax < corr then s32 (corr - u.corrRange.toNat)
  else corr

/-- The folded residual of a prediction (R203). -/
def foldedResidual (u : IcUnit) (predicted actual : Word) : Int :=
  foldResidual u (s32 (asI32 actual - asI32 predicted))

/-- c1 of R203: the magnitude whose bit length is the class. -/
def classMagnitude (corr : Int) : Nat :=
  if corr ≤ 0 then (u32OfInt (-corr)).toNat else (u32OfInt (corr - 1)).toNat

/-- k of R203: the bit-length class of a residual. -/
def residualClass (corr : Int) : Nat := bitlen (classMagnitude corr)

/-- t of R208: the position of a residual inside class `k`, negatives first. -/
def classPosition (k : Nat) (corr : Int) : Nat :=
  (if corr < 0 then corr + (2 ^ k - 1) else corr - 1).toNat

/-- corr of R209 from the position inside class `k`. -/
def positionResidual (k t : Nat) : Int :=
  if 2 ^ (k - 1) ≤ t then (t : Int) + 1 else (t : Int) - (2 ^ k - 1)

/-- The real value of IC_DECOMPRESS from the residual (R204). -/
def restored (u : IcUnit) (predicted : Word) (corr : Int) : Word :=
  let real := s32 (asI32 predicted + corr)
  if real < 0 then u32OfInt (s32 (real + u.corrRange.toNat))
  else if u.corrRange.toNat ≤ (u32OfInt real).toNat then u32OfInt (s32 (real - u.corrRange.toNat))
  else u32OfInt real

/-! ## The private models -/

/-- MB[ctx][bin]. -/
def lookupMb (a : IcAdaptive) (ctx bin : Nat) (s : State) : Res SymModel :=
  (lookup a.mb ctx s).bind fun row s => lookup row bin s

/-- Write MB[ctx][bin]. -/
def putMb (ctx bin : Nat) (m : SymModel) (a : IcAdaptive) : IcAdaptive :=
  { a with mb := a.mb.modify ctx fun row => row.set bin m }

/-- MC[k], `k >= 1`. -/
def lookupMc (a : IcAdaptive) (k : Nat) (s : State) : Res SymModel := lookup a.mc (k - 1) s

/-- Write MC[k]. -/
def putMc (k : Nat) (m : SymModel) (a : IcAdaptive) : IcAdaptive := { a with mc := a.mc.set (k - 1) m }

/-! ## WriteCorrector and ReadCorrector (R208, R209) -/

/-- The remainder after the class symbol (R208). -/
def writeRemainder (u : IcUnit) (corr : Int) (k : Nat) (a : IcAdaptive) (s : State) : Res IcAdaptive :=
  if k = 0 then
    (codeBit a.mc0 (BitVec.ofInt 1 corr) s).bind fun m s => .ok { a with mc0 := m } s
  else if k < 32 then
    let t := classPosition k corr
    (lookupMc a k s).bind fun m s =>
      if k ≤ u.bitsHigh then
        (codeSym m t s).bind fun m s => .ok (putMc k m a) s
      else
        let k1 := k - u.bitsHigh
        (codeSym m (t >>> k1) s).bind fun m s =>
          (encDirect k1 (t % 2 ^ k1) s).bind fun _ s => .ok (putMc k m a) s
  else .ok a s

/-- WriteCorrector(u, ctx, b, corr, k) (R208). -/
def writeCorrector (u : IcUnit) (ctx bin : Nat) (corr : Int) (k : Nat) (a : IcAdaptive) (s : State) : Res IcAdaptive :=
  (lookupMb a ctx bin s).bind fun m s =>
    (codeSym m k s).bind fun m s => writeRemainder u corr k (putMb ctx bin m a) s

/-- The remainder after the class symbol: the residual (R209). -/
def readRemainder (u : IcUnit) (k : Nat) (a : IcAdaptive) (s : State) : Res (Int × IcAdaptive) :=
  if k = 0 then
    (readBit a.mc0 s).bind fun r s => .ok ((r.1.toNat : Int), { a with mc0 := r.2 }) s
  else if k < 32 then
    (lookupMc a k s).bind fun m s =>
      (readSym m s).bind fun r s =>
        if k ≤ u.bitsHigh then .ok (positionResidual k r.1, putMc k r.2 a) s
        else
          let k1 := k - u.bitsHigh
          (decDirect k1 s).bind fun d s => .ok (positionResidual k (r.1 <<< k1 ||| d), putMc k r.2 a) s
  else .ok (asI32 u.corrMin, a) s

/-- ReadCorrector(u, ctx, b) (R209): the residual; K is set. -/
def readCorrector (u : IcUnit) (ctx bin : Nat) (a : IcAdaptive) (s : State) : Res (Int × IcAdaptive) :=
  (lookupMb a ctx bin s).bind fun m s =>
    (readSym m s).bind fun r s => readRemainder u r.1 { putMb ctx bin r.2 a with k := r.1 } s

/-! ## The commands -/

/-- The ConfigError checks of IC_CONFIG, first that applies (R201). -/
def checkGeometry (w1 w2 : Word) (s : State) : Res Unit :=
  (check (geometryReserved w1 = 0#32) .configError w1 s).bind fun _ s =>
    (check (1 ≤ geometryBits w1 ∧ geometryBits w1 ≤ 32) .configError (u32 (geometryBits w1)) s).bind fun _ s =>
      (check (1 ≤ geometryBitsHigh w1 ∧ geometryBitsHigh w1 ≤ IC_MAX_BITS_HIGH) .configError (u32 (geometryBitsHigh w1))
        s).bind fun _ s =>
        (check (1 ≤ geometryBins w1 ∧ geometryBins w1 ≤ IC_MAX_BINS) .configError (u32 (geometryBins w1)) s).bind fun _ s =>
          (check (1 ≤ w2.toNat ∧ w2.toNat ≤ 65536) .configError w2 s).bind fun _ s =>
            check (w2.toNat * geometryBins w1 ≤ s.capIcBank.toNat) .configError (u32 (w2.toNat * geometryBins w1)) s

/-- IC_CONFIG unit, geometry, contexts (R201). -/
def execIcConfig (unit : BitVec 8) (geometry contexts : Word) (s : State) : Host.Outcome State Fault Refusal :=
  ((check (s.mode ≠ .fault) .modeError (Instr.icConfig unit geometry contexts).commandWord s).bind fun _ s =>
    (check (unit.toNat < s.capNic.toNat) .indexRange (smallWord unit) s).bind fun _ s =>
      (checkGeometry geometry contexts s).bind fun _ s =>
        .ok 0#32 (putIc unit
          (configuredUnit (geometryBits geometry) (geometryBitsHigh geometry) (geometryBins geometry) contexts.toNat)
          s)).finish

/-- IC_INIT unit (R202). -/
def execIcInit (unit : BitVec 8) (s : State) : Host.Outcome State Fault Refusal :=
  ((check (s.mode ≠ .fault) .modeError (Instr.icInit unit).commandWord s).bind fun _ s =>
    (useIc unit s).bind fun u s =>
      .ok 0#32 (putIc unit { u with adaptive := some (initialAdaptive u) } s)).finish

/-- The pseudocode of IC_COMPRESS from the class on (R203): the unit's new adaptive state. -/
def compress (u : IcUnit) (a : IcAdaptive) (ctx : Nat) (corr : Int) (s : State) : Res IcAdaptive :=
  (lookup a.err ctx s).bind fun e s =>
    (writeCorrector u ctx (historyBin u e) corr (residualClass corr) { a with k := residualClass corr } s).bind fun a s =>
      .ok (errUpdate ctx corr a) s

/-- IC_COMPRESS unit, ctx, predicted, actual (R203). -/
def execIcCompress (unit : BitVec 8) (ctx : BitVec 16) (predicted actual : Word) (s : State) :
    Host.Outcome State Fault Refusal :=
  ((check (s.mode = .enc) .modeError (Instr.icCompress unit ctx predicted actual).commandWord s).bind fun _ s =>
    (useIcInited unit s).bind fun ua s =>
      (check (ctx.toNat < ua.1.contexts) .indexRange (indexWord ctx) s).bind fun _ s =>
        (check (residualClass (foldedResidual ua.1 predicted actual) ≤ ua.1.corrBits) .operandRange
          (u32OfInt (foldedResidual ua.1 predicted actual)) s).bind fun _ s =>
          (compress ua.1 ua.2 ctx.toNat (foldedResidual ua.1 predicted actual) s).bind fun a s =>
            .ok 0#32 (putIc unit { ua.1 with adaptive := some a } s)).finish

/-- The pseudocode of IC_DECOMPRESS (R204): the result and the unit's new adaptive state. -/
def decompress (u : IcUnit) (a : IcAdaptive) (ctx : Nat) (predicted : Word) (s : State) : Res (Word × IcAdaptive) :=
  (lookup a.err ctx s).bind fun e s =>
    (readCorrector u ctx (historyBin u e) a s).bind fun r s =>
      .ok (restored u predicted r.1, errUpdate ctx r.1 r.2) s

/-- IC_DECOMPRESS unit, ctx, predicted (R204). -/
def execIcDecompress (unit : BitVec 8) (ctx : BitVec 16) (predicted : Word) (s : State) :
    Host.Outcome State Fault Refusal :=
  ((check (s.mode = .dec) .modeError (Instr.icDecompress unit ctx predicted).commandWord s).bind fun _ s =>
    (useIcInited unit s).bind fun ua s =>
      (check (ctx.toNat < ua.1.contexts) .streamCorruption (indexWord ctx) s).bind fun _ s =>
        (decompress ua.1 ua.2 ctx.toNat predicted s).bind fun r s =>
          .ok r.1 (putIc unit { ua.1 with adaptive := some r.2 } s)).finish

/-- IC_GETK unit (R205). -/
def execIcGetK (unit : BitVec 8) (s : State) : Host.Outcome State Fault Refusal :=
  ((check (s.mode ≠ .fault) .modeError (Instr.icGetK unit).commandWord s).bind fun _ s =>
    (useIcInited unit s).bind fun ua s => .ok (u32 ua.2.k) s).finish

end Sys2Proof.Machine
end

