-- ==== Sys2Proof/Machine/System.lean ====
section
/-! DEFINITION. The system commands NOP, RESET, RD_CSR (44_system.md R230 to R232), accepted in every mode (60_exceptions.md
R242, R256). -/

namespace Sys2Proof.Machine

/-- NOP (R230): no state changes, in any mode. -/
def execNop (s : State) : Host.Outcome State Fault Refusal := (Res.ok 0#32 s).finish

/-- RESET (R231). -/
def execReset (s : State) : Host.Outcome State Fault Refusal := (Res.ok 0#32 (resetEngine s)).finish

/-- RD_CSR csr (R232): a number above 6 is IllegalCommand, whose INFO is word 0 of the packet. -/
def execRdCsr (csr : BitVec 8) (s : State) : Host.Outcome State Fault Refusal :=
  (match readCsr csr s with
    | some w => Res.ok w s
    | none => Res.raise .illegalCommand (Instr.rdCsr csr).commandWord s).finish

end Sys2Proof.Machine
end

