-- ==== Sys2Proof/Machine/Dispatch.lean ====
section
/-! DEFINITION. The dispatch: one arm per constructor of Instr. -/

namespace Sys2Proof.Machine

/-- The meaning of an instruction whose packet has been taken off CMD. -/
def exec (i : Instr) (s : State) : Host.Outcome State Fault Refusal :=
  match i with
  | .nop => Sys2Proof.Machine.execNop s
  | .reset => Sys2Proof.Machine.execReset s
  | .rdCsr csr => Sys2Proof.Machine.execRdCsr csr s
  | .encInit => Sys2Proof.Machine.execEncInit s
  | .encDone => Sys2Proof.Machine.execEncDone s
  | .encBit bit slot => Sys2Proof.Machine.execEncBit bit slot s
  | .encSym slot symbol => Sys2Proof.Machine.execEncSym slot symbol s
  | .encBits n value => Sys2Proof.Machine.execEncBits n value s
  | .decInit => Sys2Proof.Machine.execDecInit s
  | .decDone => Sys2Proof.Machine.execDecDone s
  | .decBit slot => Sys2Proof.Machine.execDecBit slot s
  | .decSym slot => Sys2Proof.Machine.execDecSym slot s
  | .decBits n => Sys2Proof.Machine.execDecBits n s
  | .bmInit slot => Sys2Proof.Machine.execBmInit slot s
  | .smCreate slot nsym => Sys2Proof.Machine.execSmCreate slot nsym s
  | .smCreateB slot nsym counts => Sys2Proof.Machine.execSmCreateB slot nsym counts s
  | .smReset slot => Sys2Proof.Machine.execSmReset slot s
  | .icConfig unit geometry contexts => Sys2Proof.Machine.execIcConfig unit geometry contexts s
  | .icInit unit => Sys2Proof.Machine.execIcInit unit s
  | .icCompress unit ctx predicted actual => Sys2Proof.Machine.execIcCompress unit ctx predicted actual s
  | .icDecompress unit ctx predicted => Sys2Proof.Machine.execIcDecompress unit ctx predicted s
  | .icGetK unit => Sys2Proof.Machine.execIcGetK unit s

end Sys2Proof.Machine
end

