-- ==== Sys2Proof/Machine/Step.lean ====
section
/-! DEFINITION. One step: take the next packet off CMD and execute it completely (10_state.md R27). -/

namespace Sys2Proof.Machine

/-- One step. With nothing on CMD the engine waits, holding its state (70_reset_and_hazards.md R281, 60_exceptions.md R260). A
packet is taken off CMD at its full length whether or not it is accepted (30_encoding.md R95); an illegal packet takes the
IllegalCommand fault with INFO = its word 0 (R241). -/
def step (s : State) : Host.Outcome State Fault Refusal :=
  match decode s.cmd with
  | .idle => .next s
  | .truncated => .refused .truncatedPacket
  | .illegal _ w0 rest => .next (takeFault .illegalCommand w0 (s.setCmd rest))
  | .instr i rest => exec i (s.setCmd rest)

/-- `s` with the packet of `packetOfNumber` put in front of the word stream, where `step` takes its next packet. -/
def State.withFetchWord (s : State) (nbits w : Nat) : State := s.setCmd (packetOfNumber nbits w ++ s.cmd)

end Sys2Proof.Machine
end

