-- ==== Sys2Proof/Safety.lean ====
section
/-! DEFINITION. The terms claims are stated in: the invariants the spec gives (10_state.md R24, R26, R30, R37, R39, R42; 00_scope.md
R6), the acceptance table (60_exceptions.md R242), and the reference view of the output stage (40_encoder.md R132). -/

namespace Sys2Proof.Machine

/-! ## Models (R37, R39) -/

/-- R37: the invariants of an initialised bit model. "Between updates C0 may grow by at most CYCLE beyond" C0 < CN is
`C0 + LEFT < CN + CYCLE`. -/
abbrev BitModel.wf (m : BitModel) : Prop :=
  1 ≤ m.left.toNat ∧ m.left.toNat ≤ m.cycle.toNat ∧ 4 ≤ m.cycle.toNat ∧ m.cycle.toNat ≤ 64 ∧
  1 ≤ m.c0.toNat ∧ m.c0.toNat + m.left.toNat < m.cn.toNat + m.cycle.toNat ∧
  2 ≤ m.cn.toNat ∧ m.cn.toNat ≤ 8192 ∧ 1 ≤ m.p0.toNat ∧ m.p0.toNat ≤ 8191

/-- R39: the invariants of an initialised symbol model. -/
abbrev SymModel.wf (m : SymModel) : Prop :=
  2 ≤ m.nsym ∧ m.nsym ≤ 2048 ∧ m.count.length = m.nsym ∧ m.dist.length = m.nsym ∧
  (∀ c ∈ m.count, 1 ≤ c.toNat) ∧
  m.dist[0]? = some 0#32 ∧ m.dist.Pairwise (fun a b => a.toNat < b.toNat) ∧ (∀ d ∈ m.dist, d.toNat ≤ 32767) ∧
  m.nsym ≤ m.total.toNat ∧ m.total.toNat ≤ 32768 ∧
  sumCounts m.count + m.left.toNat = m.total.toNat + m.cycle.toNat ∧
  1 ≤ m.left.toNat ∧ m.left.toNat ≤ m.cycle.toNat ∧ m.cycle.toNat ≤ (m.nsym + 6) <<< 3

/-! ## Integer-compressor units (R40 to R42) -/

/-- R42: the adaptive state of an initialised unit. -/
abbrev IcAdaptive.wf (a : IcAdaptive) (u : IcUnit) : Prop :=
  a.k ≤ u.corrBits ∧
  a.err.length = u.contexts ∧ (∀ e ∈ a.err, e.toNat ≤ 2 ^ 33) ∧
  a.mb.length = u.contexts ∧ (∀ row ∈ a.mb, row.length = u.bins ∧ ∀ m ∈ row, m.wf ∧ m.nsym = u.corrBits + 1) ∧
  a.mc0.wf ∧
  a.mc.map SymModel.nsym = (List.range u.corrBits).map (fun i => 2 ^ min (i + 1) u.bitsHigh) ∧ (∀ m ∈ a.mc, m.wf)

/-- R40, R41: the configuration of a unit and its derived fields. -/
abbrev IcUnit.legal (u : IcUnit) : Prop :=
  1 ≤ u.bits ∧ u.bits ≤ 32 ∧ 1 ≤ u.bitsHigh ∧ u.bitsHigh ≤ 11 ∧ 1 ≤ u.bins ∧ u.bins ≤ 33 ∧
  1 ≤ u.contexts ∧ u.contexts ≤ 65536 ∧
  { u with adaptive := none } = configuredUnit u.bits u.bitsHigh u.bins u.contexts

/-- A configured unit: legal configuration, and well-formed adaptive state when INITED. -/
abbrev IcUnit.wf (u : IcUnit) : Prop := u.legal ∧ ∀ a ∈ u.adaptive, a.wf u

/-! ## The encoder's output stage -/

/-- No byte can take a carry exactly when the interval cannot produce one (R133 (c)): with CACHE empty or 0xFF the interval
ends at or below 2^32. -/
abbrev State.carryRoom (s : State) : Prop :=
  s.cacheValid = false ∨ s.cache = 0xFF#8 → s.base.toNat + s.length.toNat ≤ 2 ^ 32

/-- The run of held 0xFF bytes is far enough from its 32-bit bound (R249) for one command's bytes. -/
abbrev State.runRoom (s : State) : Prop := s.ffrun.toNat + 16 < 2 ^ 32

/-- The uncommitted bytes (R26): CACHE followed by FFRUN bytes 0xFF when CACHE_VALID = 1. -/
def State.pending (s : State) : List Byte :=
  if s.cacheValid then s.cache :: List.replicate s.ffrun.toNat 0xFF#8 else []

/-- The bytes produced so far (R132): those on BOUT followed by the pending ones. -/
def State.produced (s : State) : List Byte := s.bout ++ s.pending

/-- A byte list read as a big-endian number. -/
def bigEndian (bs : List Byte) : Nat := bs.foldl (fun n b => n * 256 + b.toNat) 0

/-- The low end of the encoder's interval as one number: the produced bytes, then BASE (R65, R132). -/
def State.lowEnd (s : State) : Nat := bigEndian s.produced * 2 ^ 32 + s.base.toNat

/-- The iterations of a renormalisation that starts at LENGTH = `l` (R127, R156): as many as bring it to 2^24. -/
def renormCount (l : Nat) : Nat :=
  if 2 ^ 24 ≤ l then 0 else if 2 ^ 16 ≤ l then 1 else if 2 ^ 8 ≤ l then 2 else 3

/-- `t` is `s` after an encoder operation that adds `x` to the low end, makes the width `l` and renormalises by `k` bytes:
everything but BASE, LENGTH, the output stage and BOUT is as in `s`, and BOUT only grows. -/
def Encoded (x l k : Nat) (s t : State) : Prop :=
  t.lowEnd = (s.lowEnd + x) * 256 ^ k ∧
  t.base.toNat = (s.base.toNat + x) * 256 ^ k % 2 ^ 32 ∧
  t.length.toNat = l * 256 ^ k ∧
  t.produced.length = s.produced.length + k ∧
  s.bout <+: t.bout ∧
  t = { s with base := t.base, length := t.length, cacheValid := t.cacheValid, cache := t.cache, ffrun := t.ffrun,
               bout := t.bout }

/-- The split point of a bit model on an interval of width `len`: P0 * (LENGTH >> 13) (R122, R152). -/
def bitPoint (m : BitModel) (len : Nat) : Nat := m.p0.toNat * (len >>> 13)

/-- The sub-interval of `bit`, as its offset and its width: `[0, x)` for 0, `[x, LENGTH)` for 1 (R122). -/
def bitPart (m : BitModel) (bit : BitVec 1) (len : Nat) : Nat × Nat :=
  if bit = 0#1 then (0, bitPoint m len) else (bitPoint m len, len - bitPoint m len)

/-- The lower end of symbol `sym`'s sub-interval: DIST[sym] * (LENGTH >> 15) (R123). -/
def symLow (m : SymModel) (sym len : Nat) : Nat := (m.dist.getD sym 0#32).toNat * (len >>> 15)

/-- The upper end: LENGTH for the last symbol, else DIST[sym+1] * (LENGTH >> 15) (R123). -/
def symHigh (m : SymModel) (sym len : Nat) : Nat :=
  if sym + 1 = m.nsym then len else (m.dist.getD (sym + 1) 0#32).toNat * (len >>> 15)

/-- The bit DEC_BIT finds: 1 exactly when VALUE is in the upper part (R152). -/
def foundBit (m : BitModel) (s : State) : BitVec 1 := if bitPoint m s.length.toNat ≤ s.value.toNat then 1#1 else 0#1

/-- VALUE after `bs` are shifted in, one after another (R156). -/
def shiftIn (v : Word) (bs : List Byte) : Word := bs.foldl (fun v b => v <<< 8 ||| b.setWidth 32) v

/-- `t` is `s` after a decoder operation that makes VALUE `v` and the width `l` and renormalises by `k` bytes of BIN:
everything but VALUE, LENGTH and BIN is as in `s`. -/
def DecodedTo (v l k : Nat) (s t : State) : Prop :=
  t.value = shiftIn (u32 v) (s.bin.take k) ∧
  t.length.toNat = l * 256 ^ k ∧
  t.bin = s.bin.drop k ∧
  t = { s with value := t.value, length := t.length, bin := t.bin }

/-- `t` is `s` after one narrowing step of the encoder to width `l` at offset `x`, renormalised (R122, R123, R127, R131). -/
abbrev Narrowed (x l : Nat) (s t : State) : Prop := Encoded x l (renormCount l) s t

/-- `t` is `s` after the `n` direct bits of `v` (R124, R131): one flat digit, or the low 16 bits and then the rest. -/
def NarrowedDirect (n v : Nat) (s t : State) : Prop :=
  if n ≤ 19 then Narrowed (v * (s.length.toNat >>> n)) (s.length.toNat >>> n) s t
  else ∃ u, Narrowed (v % 2 ^ 16 * (s.length.toNat >>> 16)) (s.length.toNat >>> 16) s u ∧
    Narrowed (v / 2 ^ 16 * (u.length.toNat >>> (n - 16))) (u.length.toNat >>> (n - 16)) u t

/-- `s` after one narrowing step of the decoder that makes VALUE `v` and the width `l`, renormalised (R156). -/
def consume (v l : Nat) (s : State) : State :=
  { s with value := shiftIn (u32 v) (s.bin.take (renormCount l)), length := u32 (l * 256 ^ renormCount l),
           bin := s.bin.drop (renormCount l) }

/-- BIN holds the bytes a narrowing step to width `l` needs. -/
abbrev State.hasBytesFor (s : State) (l : Nat) : Prop := renormCount l ≤ s.bin.length

/-- `s` after the decoder's step for `bit` of model `m` (R152). -/
def consumeBit (m : BitModel) (bit : BitVec 1) (s : State) : State :=
  consume (s.value.toNat - (bitPart m bit s.length.toNat).1) (bitPart m bit s.length.toNat).2 s

/-- BIN holds the bytes of that step. -/
abbrev State.hasBit (s : State) (m : BitModel) (bit : BitVec 1) : Prop :=
  s.hasBytesFor (bitPart m bit s.length.toNat).2

/-- `s` after the decoder's step for symbol `sym` of model `m` (R153). -/
def consumeSym (m : SymModel) (sym : Nat) (s : State) : State :=
  consume (s.value.toNat - symLow m sym s.length.toNat) (symHigh m sym s.length.toNat - symLow m sym s.length.toNat) s

/-- The next symbol of `s` under model `m` is `sym`: VALUE is in its sub-interval, the last one open above (R158), and BIN
holds the bytes of the step. -/
abbrev State.hasSym (s : State) (m : SymModel) (sym : Nat) : Prop :=
  sym < m.nsym ∧ symLow m sym s.length.toNat ≤ s.value.toNat ∧
  (sym + 1 = m.nsym ∨ s.value.toNat < symHigh m sym s.length.toNat) ∧
  s.hasBytesFor (symHigh m sym s.length.toNat - symLow m sym s.length.toNat)

/-- `s` after the decoder's step for a flat digit of `n` bits (R157). -/
def consumeDigit (n : Nat) (s : State) : State :=
  consume (s.value.toNat % (s.length.toNat >>> n)) (s.length.toNat >>> n) s

/-- The next flat digit of `n` bits is `q` (R157), and BIN holds the bytes of the step. -/
abbrev State.hasDigit (s : State) (n q : Nat) : Prop :=
  q = s.value.toNat / (s.length.toNat >>> n) ∧ q < 2 ^ n ∧ s.hasBytesFor (s.length.toNat >>> n)

/-- `s` after `n` direct bits (R154): one flat digit, or a 16-bit one and then the rest. -/
def consumeDirect (n : Nat) (s : State) : State :=
  if n ≤ 19 then consumeDigit n s else consumeDigit (n - 16) (consumeDigit 16 s)

/-- The next `n` direct bits are `v` (R154), and BIN holds the bytes of the steps. -/
abbrev State.hasDirect (s : State) (n v : Nat) : Prop :=
  (n ≤ 19 → s.hasDigit n v) ∧
  (19 < n → s.hasDigit 16 (v % 2 ^ 16) ∧ (consumeDigit 16 s).hasDigit (n - 16) (v / 2 ^ 16))

/-- The next symbol of `s` under model `m` is `sym`, but BIN has too few bytes for the step (R156, R158). -/
abbrev State.lacksSym (s : State) (m : SymModel) (sym : Nat) : Prop :=
  sym < m.nsym ∧ symLow m sym s.length.toNat ≤ s.value.toNat ∧
  (sym + 1 = m.nsym ∨ s.value.toNat < symHigh m sym s.length.toNat) ∧
  ¬s.hasBytesFor (symHigh m sym s.length.toNat - symLow m sym s.length.toNat)

/-- BIN has too few bytes for `n` direct bits: for the one digit, for the first of two, or for the second after a good first
(R154, R157). -/
abbrev State.lacksDirect (s : State) (n : Nat) : Prop :=
  (n ≤ 19 ∧ ¬s.hasBytesFor (s.length.toNat >>> n)) ∨
  (19 < n ∧ ¬s.hasBytesFor (s.length.toNat >>> 16)) ∨
  (19 < n ∧ s.hasDigit 16 (s.value.toNat / (s.length.toNat >>> 16)) ∧
    ¬(consumeDigit 16 s).hasBytesFor ((consumeDigit 16 s).length.toNat >>> (n - 16)))

/-- The next flat digit of `n` bits would be `q`, which is not below 2^n, and BIN holds the bytes of the step (R157). -/
abbrev State.badDigit (s : State) (n q : Nat) : Prop :=
  q = s.value.toNat / (s.length.toNat >>> n) ∧ 2 ^ n ≤ q ∧ s.hasBytesFor (s.length.toNat >>> n)

/-- Of the digits of `n` direct bits the one digit, or the first of two, is the bad digit `q`, and `rest` is what is left of BIN
after it, the bad one's bytes read too and no other's (R154, R157). A second digit after a good first is never bad: LENGTH is then
a multiple of 2^16 (Obligations.StreamCorruptionFaults says so). -/
abbrev State.badDirect (s : State) (n q : Nat) (rest : List Byte) : Prop :=
  (n ≤ 19 ∧ s.badDigit n q ∧ rest = (consumeDigit n s).bin) ∨
  (19 < n ∧ s.badDigit 16 q ∧ rest = (consumeDigit 16 s).bin)

/-! ## The run counter at its end (40_encoder.md R128) -/

/-- A narrowing step to width `l` at offset `x` drives FFRUN past 2^32 - 1: no carry, and the bytes it hands out begin with the
`j` bytes 0xFF that are one too many for the counter. -/
abbrev State.overflows (s : State) (x l : Nat) : Prop :=
  s.cacheValid = true ∧ s.base.toNat + x < 2 ^ 32 ∧
  ∃ j ≤ renormCount l, s.ffrun.toNat + j = 2 ^ 32 ∧ 2 ^ 32 - 256 ^ (4 - j) ≤ s.base.toNat + x

/-- A narrowing step to width `l` at offset `x` hands out bytes 0xFF only (or none), without a carry, and FFRUN counts them all. -/
abbrev State.holdsAll (s : State) (x l : Nat) : Prop :=
  s.cacheValid = true ∧ s.base.toNat + x < 2 ^ 32 ∧ s.ffrun.toNat + renormCount l < 2 ^ 32 ∧
  2 ^ 32 - 256 ^ (4 - renormCount l) ≤ s.base.toNat + x

/-- `s` after such a step. -/
def held (x l : Nat) (s : State) : State :=
  { s with base := u32 ((s.base.toNat + x) * 256 ^ renormCount l), length := u32 (l * 256 ^ renormCount l),
           ffrun := u32 (s.ffrun.toNat + renormCount l) }

/-- Coding the `n` direct bits of `v` drives FFRUN past 2^32 - 1: the one digit, the first of two, or the second after a first
whose bytes are all held (R124, R131). -/
abbrev State.overflowsDirect (s : State) (n v : Nat) : Prop :=
  (n ≤ 19 ∧ s.overflows (v * (s.length.toNat >>> n)) (s.length.toNat >>> n)) ∨
  (19 < n ∧ s.overflows (v % 2 ^ 16 * (s.length.toNat >>> 16)) (s.length.toNat >>> 16)) ∨
  (19 < n ∧ s.holdsAll (v % 2 ^ 16 * (s.length.toNat >>> 16)) (s.length.toNat >>> 16) ∧
    let t := held (v % 2 ^ 16 * (s.length.toNat >>> 16)) (s.length.toNat >>> 16) s
    t.overflows (v / 2 ^ 16 * (t.length.toNat >>> (n - 16))) (t.length.toNat >>> (n - 16)))

/-! ## What an initialisation and an observation leave of a model, in numbers -/

/-- `m` is the model SmInit makes for `n` symbols with the counts `c` (R177, R178). -/
def SymModel.Fresh (n : Nat) (c : List Word) (m : SymModel) : Prop :=
  m.nsym = n ∧ m.count = c ∧ m.total.toNat = (c.map BitVec.toNat).sum ∧
  m.dist.map BitVec.toNat =
    (List.range n).map (fun k => 2 ^ 31 / (c.map BitVec.toNat).sum * ((c.take k).map BitVec.toNat).sum / 2 ^ 16) ∧
  m.cycle.toNat = (n + 6) / 2 ∧ m.left.toNat = (n + 6) / 2

/-- `m` is the uniform model for `n` symbols (R174, R176). -/
def SymModel.Uniform (n : Nat) (m : SymModel) : Prop := m.Fresh n (List.replicate n 1#32)

/-- `m'` is the bit model `m` after the bit `bit` was coded with it: C0 counts 0 bits at once, LEFT counts down, and at 0 the
model is updated (R172, R173). -/
def BitModel.Observed (bit : BitVec 1) (m m' : BitModel) : Prop :=
  let c := m.c0.toNat + (if bit = 0#1 then 1 else 0)
  let n := m.cn.toNat + m.cycle.toNat
  let c1 := if 8192 < n then (c + 1) / 2 else c
  let n1 := if 8192 < n then (if (c + 1) / 2 = (n + 1) / 2 then (n + 1) / 2 + 1 else (n + 1) / 2) else n
  if 1 < m.left.toNat then
    m'.c0.toNat = c ∧ m'.left.toNat + 1 = m.left.toNat ∧ m'.cn = m.cn ∧ m'.p0 = m.p0 ∧ m'.cycle = m.cycle
  else
    m'.c0.toNat = c1 ∧ m'.cn.toNat = n1 ∧ m'.p0.toNat = c1 * (2 ^ 31 / n1) / 2 ^ 18 ∧
    m'.cycle.toNat = min 64 (5 * m.cycle.toNat / 4) ∧ m'.left = m'.cycle

/-- `m'` is the symbol model `m` after the symbol `sym` was coded with it: COUNT[sym] grows at once, LEFT counts down, and at 0
the model is updated (R178, R179, R180). -/
def SymModel.Observed (sym : Nat) (m m' : SymModel) : Prop :=
  let c := (m.count.map BitVec.toNat).modify sym (· + 1)
  let n := m.total.toNat + m.cycle.toNat
  let c1 := if 32768 < n then c.map (fun x => (x + 1) / 2) else c
  let n1 := if 32768 < n then c1.sum else n
  m'.nsym = m.nsym ∧
  if 1 < m.left.toNat then
    m'.count.map BitVec.toNat = c ∧ m'.left.toNat + 1 = m.left.toNat ∧ m'.dist = m.dist ∧ m'.total = m.total ∧
    m'.cycle = m.cycle
  else
    m'.count.map BitVec.toNat = c1 ∧ m'.total.toNat = n1 ∧
    m'.dist.map BitVec.toNat = (List.range m.nsym).map (fun k => 2 ^ 31 / n1 * (c1.take k).sum / 2 ^ 16) ∧
    m'.cycle.toNat = min ((m.nsym + 6) * 8) (5 * m.cycle.toNat / 4) ∧ m'.left = m'.cycle

/-! ## Residuals in numbers (43_integer_compressor.md R203, R204, R208, R210) -/

/-- The residual of `r` against `p`: the difference as an `I32`, brought into -2^(BITS-1) .. 2^(BITS-1) - 1 by at most one
2^BITS (R203, R210). -/
def wrappedResidual (bits : Nat) (p r : Word) : Int :=
  let d := (r - p).toInt
  if d < -(2 ^ (bits - 1)) then d + 2 ^ bits else if 2 ^ (bits - 1) ≤ d then d - 2 ^ bits else d

/-- `k` is the bit length of c1, which is -corr up to 0 and corr - 1 above (R203). -/
def InClass (corr : Int) (k : Nat) : Prop :=
  let c := if corr ≤ 0 then -corr else corr - 1
  if k = 0 then c = 0 else 2 ^ (k - 1) ≤ c ∧ c < 2 ^ k

/-- t of R208: the position of a residual in class `k`, negatives first. -/
def positionIn (k : Nat) (corr : Int) : Nat := (if corr < 0 then corr + 2 ^ k - 1 else corr - 1).toNat

/-- The value of the prediction `p` and the residual `corr`: their sum as an `I32`, brought into 0 .. 2^BITS - 1 by at most one
2^BITS (R204). -/
def unwrapped (bits : Nat) (p : Word) (corr : Int) : Word :=
  let v := (p + BitVec.ofInt 32 corr).toInt
  BitVec.ofInt 32 (if v < 0 then v + 2 ^ bits else if 2 ^ bits ≤ v then v - 2 ^ bits else v)

/-- The symbol of MC[k] for the position `t` of a residual in class `k`: all its bits up to BITS_HIGH, else its high bits. -/
def highSymbol (u : IcUnit) (k t : Nat) : Nat := if k ≤ u.bitsHigh then t else t / 2 ^ (k - u.bitsHigh)

/-- The bit of a residual in class 0. -/
def zeroClassBit (corr : Int) : BitVec 1 := if corr = 0 then 0#1 else 1#1

/-- What WriteCorrector does after the class symbol: the interval from `s` to `t`, MC0 and MC from `a` to `a'` (R208). -/
def RemainderCoded (u : IcUnit) (corr : Int) (k : Nat) (a a' : IcAdaptive) (s t : State) : Prop :=
  (k = 0 →
    a.mc0.Observed (zeroClassBit corr) a'.mc0 ∧ a'.mc = a.mc ∧
    Narrowed (bitPart a.mc0 (zeroClassBit corr) s.length.toNat).1 (bitPart a.mc0 (zeroClassBit corr) s.length.toNat).2 s t) ∧
  (1 ≤ k ∧ k < 32 → ∃ m m' w, a.mc[k - 1]? = some m ∧
    m.Observed (highSymbol u k (positionIn k corr)) m' ∧ a'.mc = a.mc.set (k - 1) m' ∧ a'.mc0 = a.mc0 ∧
    Narrowed (symLow m (highSymbol u k (positionIn k corr)) s.length.toNat)
      (symHigh m (highSymbol u k (positionIn k corr)) s.length.toNat -
        symLow m (highSymbol u k (positionIn k corr)) s.length.toNat) s w ∧
    (k ≤ u.bitsHigh → t = w) ∧
    (u.bitsHigh < k → NarrowedDirect (k - u.bitsHigh) (positionIn k corr % 2 ^ (k - u.bitsHigh)) w t)) ∧
  (k = 32 → a'.mc0 = a.mc0 ∧ a'.mc = a.mc ∧ t = s)

/-- `u` is unit `unit`, initialised, with the adaptive state `a`, and `m` is the class model MB[ctx][bin] that its next residual
in context `ctx` is coded with (R206, R208). -/
def State.ClassModel (s : State) (unit : BitVec 8) (ctx : BitVec 16) (u : IcUnit) (a : IcAdaptive) (m : SymModel) : Prop :=
  unit.toNat < s.capNic.toNat ∧ s.ic.get unit.toNat = some u ∧ u.adaptive = some a ∧ ctx.toNat < u.contexts ∧
  ∃ e row, a.err[ctx.toNat]? = some e ∧ a.mb[ctx.toNat]? = some row ∧ row[historyBin u e]? = some m

/-! ## The whole state -/

/-- The four parameters are in range (R6). -/
abbrev State.capsLegal (s : State) : Prop :=
  1 ≤ s.capNbm.toNat ∧ s.capNbm.toNat ≤ 65536 ∧ 1 ≤ s.capNsm.toNat ∧ s.capNsm.toNat ≤ 65536 ∧
  1 ≤ s.capNic.toNat ∧ s.capNic.toNat ≤ 256 ∧ 1 ≤ s.capIcBank.toNat ∧ s.capIcBank.toNat ≤ 65536 * 33

/-- The model store: canonical lists, every entry inside its array and well formed. -/
abbrev State.storeWf (s : State) : Prop :=
  s.bm.wf ∧ (∀ e ∈ s.bm, e.1 < s.capNbm.toNat ∧ e.2.wf) ∧
  s.sm.wf ∧ (∀ e ∈ s.sm, e.1 < s.capNsm.toNat ∧ e.2.wf) ∧
  s.ic.wf ∧ (∀ e ∈ s.ic, e.1 < s.capNic.toNat ∧ e.2.wf ∧ e.2.contexts * e.2.bins ≤ s.capIcBank.toNat)

/-- The fault registers follow MODE (R30): 0 when MODE is not FAULT, a cause when it is. -/
abbrev State.faultWf (s : State) : Prop :=
  (s.mode ≠ .fault → s.cause = .none ∧ s.info = 0#32) ∧ (s.mode = .fault → s.cause ≠ .none)

/-- The coder registers between commands (R24, R26, R133): LENGTH at least 2^24 in a session, an empty output stage outside
an encoding session (but for FAULT), FFRUN = 0 while nothing is pending, room for every carry while encoding. -/
abbrev State.coderWf (s : State) : Prop :=
  (s.mode = .enc ∨ s.mode = .dec → 2 ^ 24 ≤ s.length.toNat) ∧
  (s.cacheValid = false → s.ffrun = 0#32) ∧
  (s.mode = .idle ∨ s.mode = .dec → s.cacheValid = false) ∧
  (s.mode = .enc → s.carryRoom)

/-- The invariant of the machine, held at reset and kept by every step. -/
abbrev State.Inv (s : State) : Prop := s.capsLegal ∧ s.storeWf ∧ s.faultWf ∧ s.coderWf

/-! ## Which commands a mode accepts (R242) -/

/-- The table of R242. -/
def accepts : Opcode → Mode → Bool
  | .nop, _ | .reset, _ | .rdCsr, _ => true
  | .encInit, m | .decInit, m => m == .idle
  | .encBit, m | .encSym, m | .encBits, m | .encDone, m | .icCompress, m => m == .enc
  | .decBit, m | .decSym, m | .decBits, m | .decDone, m | .icDecompress, m => m == .dec
  | .bmInit, m | .smCreate, m | .smCreateB, m | .smReset, m | .icConfig, m | .icInit, m | .icGetK, m => m != .fault

/-- The response of a command that succeeds with `result` (R97). -/
def success (result : Word) (s : State) : State := { s with rsp := s.rsp ++ [⟨0#8, result⟩] }

/-- The state after a fault with cause `c` and information word `w` is raised outside FAULT mode (R250, R97): the fault registers and
the response, nothing else. -/
def faulted (c : Cause) (w : Word) (s : State) : State :=
  { s with mode := .fault, cause := c, info := w, rsp := s.rsp ++ [⟨c.code, 0#32⟩] }

end Sys2Proof.Machine
end

