-- ==== Sys2Proof/Certificates/Slice0/Obligations.lean ====
section
/-! DEFINITION. What is claimed of the engine, from the numbered rules of spec/. `success`, `faulted`, `Narrowed`, `consume` and
the other terms are those of Sys2Proof/Safety.lean. An equation `exec i s = .next { s with … }` is the whole frame: every
register, slot, unit and stream not named is as it was. -/

section Statements

open Sys2Proof Sys2Proof.Machine

/-! ## Encoding (30_encoding.md) -/

/-- Words written out from R91 and R94 decode to the instruction they stand for. -/
def Obligations.DecodeSampleWords : Prop :=
  decode [0x00000000#32] = .instr .nop [] ∧
  decode [0x02000106#32, 7#32] = .illegal .mustBeZero 0x02000106#32 [7#32] ∧
  decode [0x12010005#32, 0x11000000#32] = .instr (.encBit 1#1 5#16) [0x11000000#32] ∧
  decode [0x14080000#32, 0x000000A5#32] = .instr (.encBits 8#8 0xA5#32) [] ∧
  decode [0x32000003#32, 2#32, 7#32, 9#32, 0#32] = .instr (.smCreateB 3#16 2#32 [7#32, 9#32]) [0#32] ∧
  decode [0x40000000#32, 0x00010808#32, 0x00000002#32] = .instr (.icConfig 0#8 0x00010808#32 2#32) []

/-- Decoding the packet of a well-formed instruction gives it back, whatever follows on CMD (R90 to R94). -/
def Obligations.DecodeOfEncode : Prop :=
  ∀ (i : Instr) (rest : List Word), i.wellFormed = true → decode (encode i ++ rest) = .instr i rest

/-- Whatever decodes to an instruction is the packet of that instruction, and no other; the instruction is well formed. -/
def Obligations.EncodeOfDecode : Prop :=
  ∀ (i : Instr) (ws rest : List Word), decode ws = .instr i rest → i.wellFormed = true ∧ ws = encode i ++ rest

/-- A packet with a reserved OPC is one word long and raises IllegalCommand (R96, R241). -/
def Obligations.ReservedOpcodeIsIllegal : Prop :=
  ∀ (s : State) (w0 : Word) (rest : List Word), s.mode ≠ .fault → s.cmd = w0 :: rest →
    (let c := (fieldOpc w0).toNat
     (0x03 ≤ c ∧ c ≤ 0x0F) ∨ (0x15 ≤ c ∧ c ≤ 0x1F) ∨ (0x25 ≤ c ∧ c ≤ 0x2F) ∨ (0x34 ≤ c ∧ c ≤ 0x3F) ∨ 0x45 ≤ c) →
    step s = .next (faulted .illegalCommand w0 { s with cmd := rest })

/-- A command word with a non-zero must-be-zero bit raises IllegalCommand, and its packet is consumed at the length R92 gives
for its OPC (R95): `ops` are the operand words of that length. -/
def Obligations.MustBeZeroBitIsIllegal : Prop :=
  ∀ (s : State) (o : Opcode) (w0 : Word) (ops rest : List Word), s.mode ≠ .fault → fieldOpc w0 = o.code →
    w0 &&& o.mustBeZero ≠ 0#32 → ops.length = operandCount o ((ops ++ rest).headD 0#32) → s.cmd = w0 :: (ops ++ rest) →
    step s = .next (faulted .illegalCommand w0 { s with cmd := rest })

/-! ## Steps (10_state.md R27, 70_reset_and_hazards.md R281) -/

/-- When the words on CMD start with the packet of a well-formed instruction, a step takes the packet off and is `exec` of the
instruction. -/
def Obligations.StepRunsTheDecodedInstruction : Prop :=
  ∀ (s : State) (i : Instr) (rest : List Word), i.wellFormed = true → s.cmd = encode i ++ rest →
    decode s.cmd = .instr i rest ∧ step s = exec i { s with cmd := rest }

/-- With nothing on CMD the engine holds its state (R260, R281); a word stream that ends inside a packet, which CMD cannot
express (R92), is refused by the model (the model's choice, notes/assumptions/5.md). -/
def Obligations.WaitsOnEmptyAndRefusesTruncated : Prop :=
  (∀ s : State, s.cmd = [] → step s = .next s) ∧
  (∀ (s : State) (i : Instr) (w : Word) (ws : List Word), i.wellFormed = true → s.cmd ++ (w :: ws) = encode i →
    s.cmd ≠ [] → step s = .refused .truncatedPacket)

/-- Every command gives exactly one response, a cause with the result 0, or 0 with a result (R97). -/
def Obligations.EveryCommandAnswersOnce : Prop :=
  ∀ (i : Instr) (s t : State), s.Inv → exec i s = .next t →
    (∃ w, t.rsp = s.rsp ++ [⟨0#8, w⟩]) ∨ (∃ c, c ≠ Cause.none ∧ t.rsp = s.rsp ++ [⟨c.code, 0#32⟩])

/-! ## The whole machine -/

/-- The reset state meets the invariant. Its capability values are the model's choice (notes/assumptions/1.md). -/
def Obligations.ResetMeetsTheInvariant : Prop := State.reset.Inv

/-- The invariant of the engine is kept by every step (R6, R24, R26, R30, R37, R39, R42, R133). In FAULT mode, where R251 leaves them
unspecified, that slots, units and FFRUN stay well formed is the model's choice (notes/assumptions/8.md). -/
def Obligations.StepKeepsTheInvariant : Prop :=
  ∀ s t : State, s.Inv → step s = .next t → t.Inv

/-- No command on a state that meets the invariant stops the model: every command ends in a next state (R133, R150). -/
def Obligations.EveryCommandHasANextState : Prop :=
  ∀ (i : Instr) (s : State), s.Inv → i.wellFormed = true → ∃ t, exec i s = .next t

/-- The carry that no pending byte can take never happens (R133 (c), R249). -/
def Obligations.UnabsorbedCarryIsUnreachable : Prop :=
  ∀ (i : Instr) (s t : State), s.Inv → s.mode ≠ .fault → exec i s = .next t → ¬(t.cause = .outputStage ∧ t.info = 1#32)

/-- The commands and the fault entry that write MODE, and to what (R21). -/
def Obligations.WhoWritesTheMode : Prop :=
  ∀ (i : Instr) (s t : State), s.Inv → exec i s = .next t →
    t.mode = s.mode ∨ t.mode = .fault ∨ (i = .encInit ∧ t.mode = .enc) ∨ (i = .decInit ∧ t.mode = .dec) ∨
    ((i = .encDone ∨ i = .decDone ∨ i = .reset) ∧ t.mode = .idle)

/-- The capability registers read as the four parameters and no step changes them (R31). -/
def Obligations.CapabilityRegistersAreConstant : Prop :=
  (∀ s : State, exec (.rdCsr 3#8) s = .next (success s.capNbm s) ∧ exec (.rdCsr 4#8) s = .next (success s.capNsm s) ∧
    exec (.rdCsr 5#8) s = .next (success s.capNic s) ∧ exec (.rdCsr 6#8) s = .next (success s.capIcBank s)) ∧
  (∀ s t : State, s.Inv → step s = .next t →
    t.capNbm = s.capNbm ∧ t.capNsm = s.capNsm ∧ t.capNic = s.capNic ∧ t.capIcBank = s.capIcBank)

/-- Which commands touch the streams: only encoder commands write BOUT, which only grows; only decoder commands read BIN, from
its front (R43, R62 to R64, R120, R150, R170). -/
def Obligations.WhoTouchesTheStreams : Prop :=
  ∀ (i : Instr) (s t : State), s.Inv → exec i s = .next t →
    s.bout <+: t.bout ∧ t.bin <:+ s.bin ∧ t.cmd = s.cmd ∧
    (t.bout ≠ s.bout → s.mode = .enc ∧ i.opcode ∈ [.encBit, .encSym, .encBits, .encDone, .icCompress]) ∧
    (t.bin ≠ s.bin → s.mode = .idle ∧ i = .decInit ∨
      s.mode = .dec ∧ i.opcode ∈ [.decBit, .decSym, .decBits, .icDecompress])

/-- A written slot reads back as what was written and no other slot changes; a model or a unit changes only by a command that
names it, or by RESET (R42, R170), while no fault is raised. -/
def Obligations.ModelsChangeOnlyWhenNamed : Prop :=
  (∀ (b : Store BitModel) (j : Nat) (m : BitModel),
    (b.put j m).get j = some m ∧ ∀ k, k ≠ j → (b.put j m).get k = b.get k) ∧
  (∀ (b : Store SymModel) (j : Nat) (m : SymModel),
    (b.put j m).get j = some m ∧ ∀ k, k ≠ j → (b.put j m).get k = b.get k) ∧
  (∀ (b : Store IcUnit) (j : Nat) (m : IcUnit),
    (b.put j m).get j = some m ∧ ∀ k, k ≠ j → (b.put j m).get k = b.get k) ∧
  ∀ (i : Instr) (s t : State), s.Inv → exec i s = .next t → t.mode ≠ .fault →
    (∀ j, t.bm.get j ≠ s.bm.get j → i = .reset ∨ ∃ slot : BitVec 16, slot.toNat = j ∧
      (i = .bmInit slot ∨ i = .decBit slot ∨ ∃ b, i = .encBit b slot)) ∧
    (∀ j, t.sm.get j ≠ s.sm.get j → i = .reset ∨ ∃ slot : BitVec 16, slot.toNat = j ∧
      (i = .smReset slot ∨ i = .decSym slot ∨ (∃ n, i = .smCreate slot n) ∨ (∃ n c, i = .smCreateB slot n c) ∨
        ∃ y, i = .encSym slot y)) ∧
    (∀ j, t.ic.get j ≠ s.ic.get j → i = .reset ∨ ∃ unit : BitVec 8, unit.toNat = j ∧
      (i = .icInit unit ∨ (∃ g c, i = .icConfig unit g c) ∨ (∃ c p a, i = .icCompress unit c p a) ∨
        ∃ c p, i = .icDecompress unit c p))

/-! ## Faults (60_exceptions.md) -/

/-- A command outside FAULT mode succeeds, leaving MODE other than FAULT, or enters FAULT mode with its cause in CAUSE and in
the response (R250). -/
def Obligations.SucceedsOrEntersFault : Prop :=
  ∀ (i : Instr) (s t : State), s.Inv → s.mode ≠ .fault → exec i s = .next t →
    (t.mode ≠ .fault ∧ t.cause = .none ∧ t.info = 0#32 ∧ ∃ w, t.rsp = s.rsp ++ [⟨0#8, w⟩]) ∨
    (t.mode = .fault ∧ t.cause ≠ .none ∧ t.rsp = s.rsp ++ [⟨t.cause.code, 0#32⟩])

/-- A command its mode does not accept raises ModeError with INFO = word 0 before anything else is looked at; one its mode
accepts does not (R242). -/
def Obligations.ModeErrorFollowsTheTable : Prop :=
  ∀ (i : Instr) (s : State), s.Inv → s.mode ≠ .fault →
    (accepts i.opcode s.mode = false → exec i s = .next (faulted .modeError i.commandWord s)) ∧
    (accepts i.opcode s.mode = true → ∀ t, exec i s = .next t → t.cause ≠ .modeError)

/-- In FAULT mode: NOP, RD_CSR of 0 to 6 and RESET execute normally; an illegal packet is answered (1, 0), every other command
(2, 0), and nothing but CMD and RSP changes (R256). -/
def Obligations.FaultModeKeepsTheFirstFault : Prop :=
  ∀ (s : State) (rest : List Word), s.mode = .fault →
    (∀ why w0, decode s.cmd = .illegal why w0 rest →
      step s = .next { s with cmd := rest, rsp := s.rsp ++ [⟨1#8, 0#32⟩] }) ∧
    (∀ i, decode s.cmd = .instr i rest →
      (i = .nop → step s = .next (success 0#32 { s with cmd := rest })) ∧
      (i = .reset → step s = exec .reset { s with cmd := rest } ∧
        ∃ t, step s = .next t ∧ t.mode = .idle ∧ t.cause = .none ∧ t.info = 0#32 ∧ t.cmd = rest ∧
          t.rsp = s.rsp ++ [⟨0#8, 0#32⟩]) ∧
      (∀ c, i = .rdCsr c → c.toNat ≤ 6 → ∃ w, readCsr c s = some w ∧ step s = .next (success w { s with cmd := rest })) ∧
      (∀ c, i = .rdCsr c → 6 < c.toNat → step s = .next { s with cmd := rest, rsp := s.rsp ++ [⟨1#8, 0#32⟩] }) ∧
      (i ≠ .nop → i ≠ .reset → (∀ c, i ≠ .rdCsr c) →
        step s = .next { s with cmd := rest, rsp := s.rsp ++ [⟨2#8, 0#32⟩] }))

/-- The only exit from FAULT mode is the RESET command (R255); every other step keeps MODE, CAUSE and INFO. -/
def Obligations.OnlyResetLeavesFault : Prop :=
  ∀ s t : State, s.mode = .fault → step s = .next t →
    (t.mode = .fault ∧ t.cause = s.cause ∧ t.info = s.info) ∨ (∃ rest, decode s.cmd = .instr .reset rest)

/-- IndexRange, for every command with a slot, unit or encode-side context (R243). -/
def Obligations.IndexRangeFaults : Prop :=
  ∀ s : State, s.mode ≠ .fault →
    (∀ slot : BitVec 16, s.capNbm.toNat ≤ slot.toNat →
      exec (.bmInit slot) s = .next (faulted .indexRange (slot.setWidth 32) s) ∧
      (s.mode = .enc → ∀ b, exec (.encBit b slot) s = .next (faulted .indexRange (slot.setWidth 32) s)) ∧
      (s.mode = .dec → exec (.decBit slot) s = .next (faulted .indexRange (slot.setWidth 32) s))) ∧
    (∀ slot : BitVec 16, s.capNsm.toNat ≤ slot.toNat →
      (∀ n, exec (.smCreate slot n) s = .next (faulted .indexRange (slot.setWidth 32) s)) ∧
      (∀ n c, exec (.smCreateB slot n c) s = .next (faulted .indexRange (slot.setWidth 32) s)) ∧
      exec (.smReset slot) s = .next (faulted .indexRange (slot.setWidth 32) s) ∧
      (s.mode = .enc → ∀ y, exec (.encSym slot y) s = .next (faulted .indexRange (slot.setWidth 32) s)) ∧
      (s.mode = .dec → exec (.decSym slot) s = .next (faulted .indexRange (slot.setWidth 32) s))) ∧
    (∀ unit : BitVec 8, s.capNic.toNat ≤ unit.toNat →
      (∀ g c, exec (.icConfig unit g c) s = .next (faulted .indexRange (unit.setWidth 32) s)) ∧
      exec (.icInit unit) s = .next (faulted .indexRange (unit.setWidth 32) s) ∧
      exec (.icGetK unit) s = .next (faulted .indexRange (unit.setWidth 32) s) ∧
      (s.mode = .enc → ∀ c p a, exec (.icCompress unit c p a) s = .next (faulted .indexRange (unit.setWidth 32) s)) ∧
      (s.mode = .dec → ∀ c p, exec (.icDecompress unit c p) s = .next (faulted .indexRange (unit.setWidth 32) s))) ∧
    (∀ (unit : BitVec 8) (ctx : BitVec 16) (u : IcUnit), s.mode = .enc → unit.toNat < s.capNic.toNat →
      s.ic.get unit.toNat = some u → u.adaptive ≠ none → u.contexts ≤ ctx.toNat →
      ∀ p a, exec (.icCompress unit ctx p a) s = .next (faulted .indexRange (ctx.setWidth 32) s))

/-- ModelUninit, for every command that needs a model or a unit (R244). -/
def Obligations.ModelUninitFaults : Prop :=
  ∀ s : State, s.mode ≠ .fault →
    (∀ slot : BitVec 16, slot.toNat < s.capNbm.toNat → s.bm.get slot.toNat = none →
      (s.mode = .enc → ∀ b, exec (.encBit b slot) s = .next (faulted .modelUninit (slot.setWidth 32) s)) ∧
      (s.mode = .dec → exec (.decBit slot) s = .next (faulted .modelUninit (slot.setWidth 32) s))) ∧
    (∀ slot : BitVec 16, slot.toNat < s.capNsm.toNat → s.sm.get slot.toNat = none →
      exec (.smReset slot) s = .next (faulted .modelUninit (slot.setWidth 32) s) ∧
      (s.mode = .enc → ∀ y, exec (.encSym slot y) s = .next (faulted .modelUninit (slot.setWidth 32) s)) ∧
      (s.mode = .dec → exec (.decSym slot) s = .next (faulted .modelUninit (slot.setWidth 32) s))) ∧
    (∀ unit : BitVec 8, unit.toNat < s.capNic.toNat →
      (s.ic.get unit.toNat = none → exec (.icInit unit) s = .next (faulted .modelUninit (unit.setWidth 32) s)) ∧
      ((s.ic.get unit.toNat).bind IcUnit.adaptive = none →
        exec (.icGetK unit) s = .next (faulted .modelUninit (unit.setWidth 32) s) ∧
        (s.mode = .enc → ∀ c p a, exec (.icCompress unit c p a) s = .next (faulted .modelUninit (unit.setWidth 32) s)) ∧
        (s.mode = .dec → ∀ c p, exec (.icDecompress unit c p) s = .next (faulted .modelUninit (unit.setWidth 32) s))))

/-- OperandRange, for every coding command (R245). -/
def Obligations.OperandRangeFaults : Prop :=
  ∀ s : State,
    (s.mode = .enc → ∀ (slot : BitVec 16) (y : Word) (m : SymModel), slot.toNat < s.capNsm.toNat →
      s.sm.get slot.toNat = some m → m.nsym ≤ y.toNat → exec (.encSym slot y) s = .next (faulted .operandRange y s)) ∧
    (∀ n : BitVec 8, n.toNat = 0 ∨ 32 < n.toNat →
      (s.mode = .enc → ∀ v, exec (.encBits n v) s = .next (faulted .operandRange (n.setWidth 32) s)) ∧
      (s.mode = .dec → exec (.decBits n) s = .next (faulted .operandRange (n.setWidth 32) s))) ∧
    (s.mode = .enc → ∀ (n : BitVec 8) (v : Word), 1 ≤ n.toNat → n.toNat < 32 → 2 ^ n.toNat ≤ v.toNat →
      exec (.encBits n v) s = .next (faulted .operandRange v s)) ∧
    (s.mode = .enc → ∀ (unit : BitVec 8) (ctx : BitVec 16) (p r : Word) (u : IcUnit) (k : Nat),
      unit.toNat < s.capNic.toNat → s.ic.get unit.toNat = some u → u.legal → u.adaptive ≠ none → ctx.toNat < u.contexts →
      InClass (wrappedResidual u.bits p r) k → u.corrBits < k →
      exec (.icCompress unit ctx p r) s =
        .next (faulted .operandRange (BitVec.ofInt 32 (wrappedResidual u.bits p r)) s))

/-- ConfigError, for the two constructors of symbol models (R246). -/
def Obligations.ConfigErrorOfSymbolModels : Prop :=
  ∀ (s : State) (slot : BitVec 16), s.mode ≠ .fault → slot.toNat < s.capNsm.toNat →
    (∀ n : Word, n.toNat < 2 ∨ 2048 < n.toNat →
      exec (.smCreate slot n) s = .next (faulted .configError n s) ∧
      ∀ c, exec (.smCreateB slot n c) s = .next (faulted .configError n s)) ∧
    (∀ (n : Word) (good bad : List Word) (x : Word), 2 ≤ n.toNat → n.toNat ≤ 2048 →
      (∀ y ∈ good, 1 ≤ y.toNat ∧ y.toNat ≤ 32768) → x.toNat = 0 ∨ 32768 < x.toNat →
      exec (.smCreateB slot n (good ++ x :: bad)) s = .next (faulted .configError x s)) ∧
    (∀ (n : Word) (c : List Word), 2 ≤ n.toNat → n.toNat ≤ 2048 → (∀ y ∈ c, 1 ≤ y.toNat ∧ y.toNat ≤ 32768) →
      32768 < (c.map BitVec.toNat).sum →
      exec (.smCreateB slot n c) s = .next (faulted .configError (BitVec.ofNat 32 (c.map BitVec.toNat).sum) s))

/-- ConfigError of IC_CONFIG: the first of its six conditions that applies, with its INFO (R201, R246). The geometry word is
`BITS + 2^8 * BITS_HIGH + 2^16 * BINS`. -/
def Obligations.ConfigErrorOfUnits : Prop :=
  ∀ (s : State) (unit : BitVec 8) (g c : Word), s.mode ≠ .fault → unit.toNat < s.capNic.toNat →
    let bits := (g.extractLsb' 0 6).toNat
    let high := (g.extractLsb' 8 6).toNat
    let bins := (g.extractLsb' 16 6).toNat
    let zero := g.extractLsb' 6 2 = 0#2 ∧ g.extractLsb' 14 2 = 0#2 ∧ g.extractLsb' 22 10 = 0#10
    let okBits := 1 ≤ bits ∧ bits ≤ 32
    let okHigh := 1 ≤ high ∧ high ≤ 11
    let okBins := 1 ≤ bins ∧ bins ≤ 33
    let okCount := 1 ≤ c.toNat ∧ c.toNat ≤ 65536
    (¬zero → exec (.icConfig unit g c) s = .next (faulted .configError g s)) ∧
    (zero ∧ ¬okBits → exec (.icConfig unit g c) s = .next (faulted .configError (BitVec.ofNat 32 bits) s)) ∧
    (zero ∧ okBits ∧ ¬okHigh → exec (.icConfig unit g c) s = .next (faulted .configError (BitVec.ofNat 32 high) s)) ∧
    (zero ∧ okBits ∧ okHigh ∧ ¬okBins →
      exec (.icConfig unit g c) s = .next (faulted .configError (BitVec.ofNat 32 bins) s)) ∧
    (zero ∧ okBits ∧ okHigh ∧ okBins ∧ ¬okCount → exec (.icConfig unit g c) s = .next (faulted .configError c s)) ∧
    (zero ∧ okBits ∧ okHigh ∧ okBins ∧ okCount ∧ s.capIcBank.toNat < c.toNat * bins →
      exec (.icConfig unit g c) s = .next (faulted .configError (BitVec.ofNat 32 (c.toNat * bins)) s))

/-- StreamExhausted: a read the command needed finds no byte; INFO is 0, the bytes before it stay consumed, nothing is written
(R247, R252). Stated of every command that reads, and in DEC_BITS and IC_DECOMPRESS of every read. -/
def Obligations.StreamExhaustedFaults : Prop :=
  ∀ (s : State), s.Inv →
    let bad := fun i => ∃ t, exec i s = .next t ∧ t.mode = .fault ∧ t.cause = .streamExhausted ∧ t.info = 0#32 ∧
      t.bin = [] ∧ t.bout = s.bout ∧ t.rsp = s.rsp ++ [⟨7#8, 0#32⟩]
    (s.mode = .idle → s.bin.length < 4 → bad .decInit) ∧
    (s.mode = .dec → ∀ (slot : BitVec 16) (m : BitModel), slot.toNat < s.capNbm.toNat → s.bm.get slot.toNat = some m →
      ¬s.hasBit m (foundBit m s) → bad (.decBit slot)) ∧
    (s.mode = .dec → ∀ (slot : BitVec 16) (m : SymModel) (y : Nat), slot.toNat < s.capNsm.toNat →
      s.sm.get slot.toNat = some m → s.lacksSym m y → bad (.decSym slot)) ∧
    (s.mode = .dec → ∀ n : BitVec 8, 1 ≤ n.toNat → n.toNat ≤ 32 → s.lacksDirect n.toNat → bad (.decBits n)) ∧
    (s.mode = .dec → ∀ (unit : BitVec 8) (ctx : BitVec 16) (p : Word) (u : IcUnit) (a : IcAdaptive) (m : SymModel),
      s.ClassModel unit ctx u a m →
      (∀ y, s.lacksSym m y → bad (.icDecompress unit ctx p)) ∧
      (s.hasSym m 0 → let s1 := consumeSym m 0 s
        ¬s1.hasBit a.mc0 (foundBit a.mc0 s1) → bad (.icDecompress unit ctx p)) ∧
      (∀ (k : Nat) (mk : SymModel), 1 ≤ k → k < 32 → s.hasSym m k → a.mc[k - 1]? = some mk →
        let s1 := consumeSym m k s
        (∀ y, s1.lacksSym mk y → bad (.icDecompress unit ctx p)) ∧
        (∀ y, u.bitsHigh < k → s1.hasSym mk y → (consumeSym mk y s1).lacksDirect (k - u.bitsHigh) →
          bad (.icDecompress unit ctx p))))

/-- StreamCorruption: a digit of DEC_BITS or of IC_DECOMPRESS's direct bits outside its bits, after the renormalisation's reads,
with INFO the digit, and the digit after it not read; a context of IC_DECOMPRESS outside its unit, before anything changes
(R154, R157, R248). The second of two digits, read after a good first, is in range whatever BIN holds: no fault is left out. -/
def Obligations.StreamCorruptionFaults : Prop :=
  ∀ (s : State), s.Inv → s.mode = .dec →
    let bad := fun i q rest => ∃ t, exec i s = .next t ∧ t.mode = .fault ∧ t.cause = .streamCorruption ∧
      t.info = BitVec.ofNat 32 q ∧ t.bin = rest ∧ t.bout = s.bout ∧ t.rsp = s.rsp ++ [⟨8#8, 0#32⟩]
    (∀ (n : BitVec 8) (q : Nat) (rest : List Byte), 1 ≤ n.toNat → n.toNat ≤ 32 → s.badDirect n.toNat q rest →
      bad (.decBits n) q rest) ∧
    (∀ (unit : BitVec 8) (ctx : BitVec 16) (p : Word) (u : IcUnit) (a : IcAdaptive) (m mk : SymModel) (k y q : Nat)
      (rest : List Byte), s.ClassModel unit ctx u a m → 1 ≤ k → k < 32 → u.bitsHigh < k → s.hasSym m k →
      a.mc[k - 1]? = some mk → (consumeSym m k s).hasSym mk y →
      (consumeSym mk y (consumeSym m k s)).badDirect (k - u.bitsHigh) q rest → bad (.icDecompress unit ctx p) q rest) ∧
    (∀ (unit : BitVec 8) (ctx : BitVec 16) (p : Word) (u : IcUnit), unit.toNat < s.capNic.toNat →
      s.ic.get unit.toNat = some u → u.adaptive ≠ none → u.contexts ≤ ctx.toNat →
      exec (.icDecompress unit ctx p) s = .next (faulted .streamCorruption (ctx.setWidth 32) s)) ∧
    (∀ (d : State) (n q : Nat), 2 ^ 24 ≤ d.length.toNat → 16 ≤ n → n ≤ 32 → d.hasDigit 16 q →
      let d1 := consumeDigit 16 d
      d1.value.toNat / (d1.length.toNat >>> (n - 16)) < 2 ^ (n - 16))

/-- OutputStage(0): the 0xFF byte that FFRUN cannot count raises it, in every command that hands out bytes and in each of its
narrowing steps; nothing is written (R128, R241, R249). -/
def Obligations.RunCounterOverflowFaults : Prop :=
  ∀ (s : State), s.Inv → s.mode = .enc →
    let bad := fun i => ∃ t, exec i s = .next t ∧ t.mode = .fault ∧ t.cause = .outputStage ∧ t.info = 0#32 ∧
      t.bout = s.bout ∧ t.rsp = s.rsp ++ [⟨9#8, 0#32⟩]
    (∀ (bit : BitVec 1) (slot : BitVec 16) (m : BitModel), slot.toNat < s.capNbm.toNat → s.bm.get slot.toNat = some m →
      s.overflows (bitPart m bit s.length.toNat).1 (bitPart m bit s.length.toNat).2 → bad (.encBit bit slot)) ∧
    (∀ (slot : BitVec 16) (y : Word) (m : SymModel), slot.toNat < s.capNsm.toNat → s.sm.get slot.toNat = some m →
      y.toNat < m.nsym → s.overflows (symLow m y.toNat s.length.toNat)
        (symHigh m y.toNat s.length.toNat - symLow m y.toNat s.length.toNat) → bad (.encSym slot y)) ∧
    (∀ (n : BitVec 8) (v : Word), 1 ≤ n.toNat → n.toNat ≤ 32 → v.toNat < 2 ^ n.toNat →
      s.overflowsDirect n.toNat v.toNat → bad (.encBits n v)) ∧
    (2 ^ 25 < s.length.toNat → s.overflows (2 ^ 24) (2 ^ 23) → bad .encDone) ∧
    (s.length.toNat ≤ 2 ^ 25 → s.overflows (2 ^ 23) (2 ^ 15) → bad .encDone) ∧
    (∀ (unit : BitVec 8) (ctx : BitVec 16) (p r : Word) (u : IcUnit) (a : IcAdaptive) (m : SymModel) (k : Nat),
      s.ClassModel unit ctx u a m → InClass (wrappedResidual u.bits p r) k → k ≤ u.corrBits →
      let corr := wrappedResidual u.bits p r
      let x := symLow m k s.length.toNat
      let l := symHigh m k s.length.toNat - x
      let s1 := held x l s
      (s.overflows x l → bad (.icCompress unit ctx p r)) ∧
      (k = 0 → s.holdsAll x l →
        s1.overflows (bitPart a.mc0 (zeroClassBit corr) s1.length.toNat).1
          (bitPart a.mc0 (zeroClassBit corr) s1.length.toNat).2 → bad (.icCompress unit ctx p r)) ∧
      (∀ mk : SymModel, 1 ≤ k → k < 32 → a.mc[k - 1]? = some mk → s.holdsAll x l →
        let y := highSymbol u k (positionIn k corr)
        let x1 := symLow mk y s1.length.toNat
        let l1 := symHigh mk y s1.length.toNat - x1
        (s1.overflows x1 l1 → bad (.icCompress unit ctx p r)) ∧
        (u.bitsHigh < k → s1.holdsAll x1 l1 →
          (held x1 l1 s1).overflowsDirect (k - u.bitsHigh) (positionIn k corr % 2 ^ (k - u.bitsHigh)) →
          bad (.icCompress unit ctx p r))))

/-! ## System commands (44_system.md) and reset (10_state.md R45) -/

/-- NOP changes nothing in any mode and answers (0, 0) (R230). -/
def Obligations.NopOnlyAnswers : Prop :=
  ∀ s : State, exec .nop s = .next { s with rsp := s.rsp ++ [⟨0#8, 0#32⟩] }

/-- RESET, from any state: the values R231 gives; what it leaves without value is some value, of which nothing is said. BIN,
BOUT, CMD and the capability registers are untouched. -/
def Obligations.ResetReturnsToIdle : Prop :=
  ∀ s : State, ∃ (b v l : Word) (c : Byte) (n : Nat), exec .reset s = .next (success 0#32
    { s with mode := .idle, cause := .none, info := 0#32, cacheValid := false, ffrun := 0#32, bm := [], sm := [], ic := [],
             base := b, value := v, length := l, cache := c, freeCount := n })

/-- RD_CSR: the table of R232; a number above 6 is IllegalCommand, which in FAULT mode keeps the first fault (R232, R32). -/
def Obligations.RdCsrReadsTheTable : Prop :=
  ∀ s : State,
    exec (.rdCsr 0#8) s = .next (success (match s.mode with | .idle => 0#32 | .enc => 1#32 | .dec => 2#32 | .fault => 3#32) s) ∧
    exec (.rdCsr 1#8) s = .next (success (s.cause.code.setWidth 32) s) ∧
    exec (.rdCsr 2#8) s = .next (success s.info s) ∧ exec (.rdCsr 3#8) s = .next (success s.capNbm s) ∧
    exec (.rdCsr 4#8) s = .next (success s.capNsm s) ∧ exec (.rdCsr 5#8) s = .next (success s.capNic s) ∧
    exec (.rdCsr 6#8) s = .next (success s.capIcBank s) ∧
    ∀ c : BitVec 8, 6 < c.toNat →
      (s.mode ≠ .fault → exec (.rdCsr c) s = .next (faulted .illegalCommand (Instr.rdCsr c).commandWord s)) ∧
      (s.mode = .fault → exec (.rdCsr c) s = .next { s with rsp := s.rsp ++ [⟨1#8, 0#32⟩] })

/-- The reset state, for every piece the spec gives a value (R45). -/
def Obligations.ResetStateFollowsTheTable : Prop :=
  State.reset.mode = .idle ∧ csrStatus State.reset = 0#32 ∧ csrCause State.reset = 0#32 ∧ State.reset.info = 0#32 ∧
  State.reset.cacheValid = false ∧ State.reset.ffrun = 0#32 ∧ (∀ i, State.reset.bm.get i = none) ∧
  (∀ j, State.reset.sm.get j = none) ∧ (∀ u, State.reset.ic.get u = none)

/-! ## Encoder (40_encoder.md) -/

/-- ENC_INIT in IDLE (R121). -/
def Obligations.EncInitOpensASession : Prop :=
  ∀ s : State, s.mode = .idle → exec .encInit s = .next (success 0#32
    { s with base := 0#32, length := 0xFFFFFFFF#32, cacheValid := false, ffrun := 0#32, mode := .enc })

/-- ENC_BIT: the interval narrows to the bit's part and is renormalised, the model observes the bit (R122, R126, R127, R172,
R173). -/
def Obligations.EncBitNarrowsAndObserves : Prop :=
  ∀ (s : State) (bit : BitVec 1) (slot : BitVec 16) (m : BitModel), s.Inv → s.runRoom → s.mode = .enc →
    slot.toNat < s.capNbm.toNat → s.bm.get slot.toNat = some m →
    ∃ t m', m.Observed bit m' ∧
      Narrowed (bitPart m bit s.length.toNat).1 (bitPart m bit s.length.toNat).2 s t ∧
      exec (.encBit bit slot) s = .next (success 0#32 { t with bm := s.bm.put slot.toNat m' })

/-- ENC_SYM: the interval narrows to the symbol's part and is renormalised, the model observes the symbol (R123, R126, R127,
R178 to R180). -/
def Obligations.EncSymNarrowsAndObserves : Prop :=
  ∀ (s : State) (slot : BitVec 16) (y : Word) (m : SymModel), s.Inv → s.runRoom → s.mode = .enc →
    slot.toNat < s.capNsm.toNat → s.sm.get slot.toNat = some m → y.toNat < m.nsym →
    ∃ t m', m.Observed y.toNat m' ∧
      Narrowed (symLow m y.toNat s.length.toNat) (symHigh m y.toNat s.length.toNat - symLow m y.toNat s.length.toNat) s t ∧
      exec (.encSym slot y) s = .next (success 0#32 { t with sm := s.sm.put slot.toNat m' })

/-- ENC_BITS: one flat digit up to 19 bits, else the low 16 bits and then the rest (R124, R131, 20_memory.md R67). -/
def Obligations.EncBitsNarrowsByDigits : Prop :=
  ∀ (s : State) (n : BitVec 8) (v : Word), s.Inv → s.runRoom → s.mode = .enc → 1 ≤ n.toNat → n.toNat ≤ 32 →
    v.toNat < 2 ^ n.toNat →
    ∃ t, NarrowedDirect n.toNat v.toNat s t ∧ exec (.encBits n v) s = .next (success 0#32 t)

/-- ENC_DONE: exactly four more bytes, everything on BOUT, MODE IDLE; BASE and LENGTH are left without value (R125, R130). -/
def Obligations.EncDoneFlushes : Prop :=
  ∀ s : State, s.Inv → s.runRoom → s.mode = .enc → ∃ t, exec .encDone s = .next t ∧
    t.bout.length = s.produced.length + 4 ∧ s.bout <+: t.bout ∧
    (2 ^ 25 < s.length.toNat → bigEndian t.bout = (s.lowEnd + 2 ^ 24) / 2 ^ 24 * 2 ^ 24) ∧
    (s.length.toNat ≤ 2 ^ 25 → bigEndian t.bout = (s.lowEnd + 2 ^ 23) / 2 ^ 16 * 2 ^ 16) ∧
    t = { s with mode := .idle, cacheValid := false, ffrun := 0#32, rsp := s.rsp ++ [⟨0#8, 0#32⟩], bout := t.bout,
                 base := t.base, length := t.length, cache := t.cache, freeCount := t.freeCount }

/-- The bytes on BOUT after ENC_DONE, read as one number, lie in the interval the session ended with (R125; 20_memory.md R73,
R77). -/
def Obligations.EncDoneNamesAPointOfTheInterval : Prop :=
  ∀ s t : State, s.Inv → s.runRoom → s.mode = .enc → exec .encDone s = .next t →
    s.lowEnd ≤ bigEndian t.bout ∧ bigEndian t.bout < s.lowEnd + s.length.toNat

/-! ## Decoder (41_decoder.md) -/

/-- DEC_INIT in IDLE with four bytes or more: VALUE is the first four, big-endian (R151, 20_memory.md R66). -/
def Obligations.DecInitPrimes : Prop :=
  ∀ (s : State) (b0 b1 b2 b3 : Byte) (rest : List Byte), s.mode = .idle → s.bin = b0 :: b1 :: b2 :: b3 :: rest →
    exec .decInit s = .next (success 0#32
      { s with length := 0xFFFFFFFF#32, value := b0 ++ b1 ++ b2 ++ b3, bin := rest, mode := .dec })

/-- DEC_BIT: the bit of the part VALUE is in; the interval, its bytes and the model follow (R152, R156, R172, R173). -/
def Obligations.DecBitFindsTheBit : Prop :=
  ∀ (s : State) (slot : BitVec 16) (m : BitModel), s.Inv → s.mode = .dec → slot.toNat < s.capNbm.toNat →
    s.bm.get slot.toNat = some m →
    let bit := if m.p0.toNat * (s.length.toNat >>> 13) ≤ s.value.toNat then 1#1 else 0#1
    s.hasBit m bit →
    ∃ m', m.Observed bit m' ∧
      exec (.decBit slot) s =
        .next (success (bit.setWidth 32) { consumeBit m bit s with bm := s.bm.put slot.toNat m' })

/-- DEC_SYM: the symbol whose part VALUE is in, the last one's open above (R153, R156, R158, R178 to R180). -/
def Obligations.DecSymFindsTheSymbol : Prop :=
  ∀ (s : State) (slot : BitVec 16) (m : SymModel) (y : Nat), s.Inv → s.mode = .dec → slot.toNat < s.capNsm.toNat →
    s.sm.get slot.toNat = some m → s.hasSym m y →
    ∃ m', m.Observed y m' ∧
      exec (.decSym slot) s =
        .next (success (BitVec.ofNat 32 y) { consumeSym m y s with sm := s.sm.put slot.toNat m' })

/-- Whatever the stream holds, a DEC_SYM that succeeds answers a symbol of the model's alphabet (R153). -/
def Obligations.DecSymAnswersALegalSymbol : Prop :=
  ∀ (s t : State) (slot : BitVec 16) (m : SymModel) (w : Word), s.Inv → s.mode = .dec → s.sm.get slot.toNat = some m →
    exec (.decSym slot) s = .next t → t.mode = .dec → t.rsp = s.rsp ++ [⟨0#8, w⟩] → w.toNat < m.nsym

/-- DEC_BITS: one flat digit up to 19 bits, else the low 16 bits and then the rest (R154, R157, 20_memory.md R67). -/
def Obligations.DecBitsReadsTheDigits : Prop :=
  ∀ (s : State) (n : BitVec 8) (v : Nat), s.Inv → s.mode = .dec → 1 ≤ n.toNat → n.toNat ≤ 32 → s.hasDirect n.toNat v →
    v < 2 ^ n.toNat ∧ exec (.decBits n) s = .next (success (BitVec.ofNat 32 v) (consumeDirect n.toNat s))

/-- DEC_DONE: MODE IDLE, nothing read; VALUE and LENGTH are left without value (R155). -/
def Obligations.DecDoneClosesTheSession : Prop :=
  ∀ s : State, s.mode = .dec → ∃ (v l : Word) (n : Nat),
    exec .decDone s = .next (success 0#32 { s with mode := .idle, value := v, length := l, freeCount := n })

/-! ## The two sides mirror each other (41_decoder.md R159) -/

/-- If VALUE lies in the part of the interval the encoder narrowed to, the mirrored DEC_BIT answers the bit the encoder coded,
and LENGTH and the model stay equal on both sides. -/
def Obligations.DecBitMirrorsEncBit : Prop :=
  ∀ (s d : State) (bit : BitVec 1) (slot : BitVec 16) (m : BitModel), s.Inv → d.Inv → s.runRoom → s.mode = .enc →
    d.mode = .dec → slot.toNat < s.capNbm.toNat → slot.toNat < d.capNbm.toNat → s.bm.get slot.toNat = some m →
    d.bm.get slot.toNat = some m → d.length = s.length →
    (bitPart m bit s.length.toNat).1 ≤ d.value.toNat →
    d.value.toNat < (bitPart m bit s.length.toNat).1 + (bitPart m bit s.length.toNat).2 → d.hasBit m bit →
    ∃ t u, exec (.encBit bit slot) s = .next t ∧ exec (.decBit slot) d = .next u ∧
      u.rsp = d.rsp ++ [⟨0#8, bit.setWidth 32⟩] ∧ u.length = t.length ∧ u.bm.get slot.toNat = t.bm.get slot.toNat

/-- The same of DEC_SYM and ENC_SYM. -/
def Obligations.DecSymMirrorsEncSym : Prop :=
  ∀ (s d : State) (y : Word) (slot : BitVec 16) (m : SymModel), s.Inv → d.Inv → s.runRoom → s.mode = .enc →
    d.mode = .dec → slot.toNat < s.capNsm.toNat → slot.toNat < d.capNsm.toNat → s.sm.get slot.toNat = some m →
    d.sm.get slot.toNat = some m → d.length = s.length → y.toNat < m.nsym →
    symLow m y.toNat s.length.toNat ≤ d.value.toNat → d.value.toNat < symHigh m y.toNat s.length.toNat →
    d.hasBytesFor (symHigh m y.toNat s.length.toNat - symLow m y.toNat s.length.toNat) →
    ∃ t u, exec (.encSym slot y) s = .next t ∧ exec (.decSym slot) d = .next u ∧
      u.rsp = d.rsp ++ [⟨0#8, y⟩] ∧ u.length = t.length ∧ u.sm.get slot.toNat = t.sm.get slot.toNat

/-- The same of DEC_BITS and ENC_BITS of up to 19 bits. -/
def Obligations.DecBitsMirrorsEncBits : Prop :=
  ∀ (s d : State) (n : BitVec 8) (v : Word), s.Inv → d.Inv → s.runRoom → s.mode = .enc → d.mode = .dec →
    d.length = s.length → 1 ≤ n.toNat → n.toNat ≤ 19 → v.toNat < 2 ^ n.toNat →
    v.toNat * (s.length.toNat >>> n.toNat) ≤ d.value.toNat →
    d.value.toNat < (v.toNat + 1) * (s.length.toNat >>> n.toNat) → d.hasBytesFor (s.length.toNat >>> n.toNat) →
    ∃ t u, exec (.encBits n v) s = .next t ∧ exec (.decBits n) d = .next u ∧ u.rsp = d.rsp ++ [⟨0#8, v⟩] ∧
      u.length = t.length

/-! ## Models (42_models.md) -/

/-- BM_INIT in any mode but FAULT (R171). -/
def Obligations.BmInitMakesTheInitialModel : Prop :=
  ∀ (s : State) (slot : BitVec 16), s.mode ≠ .fault → slot.toNat < s.capNbm.toNat →
    exec (.bmInit slot) s = .next (success 0#32
      { s with bm := s.bm.put slot.toNat { c0 := 1#32, cn := 2#32, p0 := 4096#32, cycle := 4#32, left := 4#32 } })

/-- SM_CREATE makes the uniform model, SM_CREATE_B the model of its counts, SM_RESET the uniform model of the alphabet the slot
has (R174 to R178). -/
def Obligations.SymbolModelsAreConstructed : Prop :=
  ∀ (s : State) (slot : BitVec 16), s.mode ≠ .fault → slot.toNat < s.capNsm.toNat →
    (∀ n : Word, 2 ≤ n.toNat → n.toNat ≤ 2048 → ∃ m, SymModel.Uniform n.toNat m ∧
      exec (.smCreate slot n) s = .next (success 0#32 { s with sm := s.sm.put slot.toNat m })) ∧
    (∀ (n : Word) (c : List Word), 2 ≤ n.toNat → n.toNat ≤ 2048 → c.length = n.toNat →
      (∀ x ∈ c, 1 ≤ x.toNat ∧ x.toNat ≤ 32768) → (c.map BitVec.toNat).sum ≤ 32768 →
      ∃ m, SymModel.Fresh n.toNat c m ∧
        exec (.smCreateB slot n c) s = .next (success 0#32 { s with sm := s.sm.put slot.toNat m })) ∧
    (∀ m0 : SymModel, s.sm.get slot.toNat = some m0 → 2 ≤ m0.nsym → m0.nsym ≤ 2048 → ∃ m, SymModel.Uniform m0.nsym m ∧
      exec (.smReset slot) s = .next (success 0#32 { s with sm := s.sm.put slot.toNat m }))

/-! ## Integer compressor (43_integer_compressor.md) -/

/-- IC_CONFIG with a legal geometry: the fields of R40 and the derived ones of R41; the adaptive state is gone (R201). -/
def Obligations.IcConfigSetsTheGeometry : Prop :=
  ∀ (s : State) (unit : BitVec 8) (bits high bins : Nat) (c : Word), s.mode ≠ .fault → unit.toNat < s.capNic.toNat →
    1 ≤ bits → bits ≤ 32 → 1 ≤ high → high ≤ 11 → 1 ≤ bins → bins ≤ 33 → 1 ≤ c.toNat → c.toNat ≤ 65536 →
    c.toNat * bins ≤ s.capIcBank.toNat →
    ∃ u : IcUnit, u.bits = bits ∧ u.bitsHigh = high ∧ u.bins = bins ∧ u.contexts = c.toNat ∧ u.corrBits = bits ∧
      u.corrRange.toNat = 2 ^ bits % 2 ^ 32 ∧ u.corrMin.toInt = -(2 ^ (bits - 1)) ∧ u.corrMax.toInt = 2 ^ (bits - 1) - 1 ∧
      u.adaptive = none ∧
      exec (.icConfig unit (BitVec.ofNat 32 (bits + 2 ^ 8 * high + 2 ^ 16 * bins)) c) s =
        .next (success 0#32 { s with ic := s.ic.put unit.toNat u })

/-- IC_INIT: K 0, every ERR 0, every private model at its start (R202). -/
def Obligations.IcInitMakesTheInitialState : Prop :=
  ∀ (s : State) (unit : BitVec 8) (u : IcUnit), s.Inv → s.mode ≠ .fault → unit.toNat < s.capNic.toNat →
    s.ic.get unit.toNat = some u →
    ∃ a : IcAdaptive, a.k = 0 ∧ a.err = List.replicate u.contexts 0#34 ∧ a.mb.length = u.contexts ∧
      (∀ row ∈ a.mb, row.length = u.bins ∧ ∀ m ∈ row, SymModel.Uniform (u.corrBits + 1) m) ∧
      a.mc0 = { c0 := 1#32, cn := 2#32, p0 := 4096#32, cycle := 4#32, left := 4#32 } ∧ a.mc.length = u.corrBits ∧
      (∀ (i : Nat) (m : SymModel), a.mc[i]? = some m → SymModel.Uniform (2 ^ min (i + 1) u.bitsHigh) m) ∧
      exec (.icInit unit) s = .next (success 0#32 { s with ic := s.ic.put unit.toNat { u with adaptive := some a } })

/-- IC_COMPRESS: the class symbol with MB[ctx][bin], the remainder of R208, K, ERR[ctx] and the models (R203, R206 to R208, R210).
`e` and `m` are ERR[ctx] and MB[ctx][bin] of the state, `k` the class of the residual. -/
def Obligations.IcCompressCodesTheResidual : Prop :=
  ∀ (s : State) (unit : BitVec 8) (ctx : BitVec 16) (p r : Word) (u : IcUnit) (a : IcAdaptive) (e : BitVec 34)
    (row : List SymModel) (m : SymModel) (k : Nat),
    s.Inv → s.runRoom → s.mode = .enc → unit.toNat < s.capNic.toNat → s.ic.get unit.toNat = some u → u.adaptive = some a →
    ctx.toNat < u.contexts → InClass (wrappedResidual u.bits p r) k → k ≤ u.corrBits →
    a.err[ctx.toNat]? = some e → a.mb[ctx.toNat]? = some row → row[historyBin u e]? = some m →
    let corr := wrappedResidual u.bits p r
    ∃ (v t : State) (m' : SymModel) (a' : IcAdaptive),
      m.Observed k m' ∧ Narrowed (symLow m k s.length.toNat) (symHigh m k s.length.toNat - symLow m k s.length.toNat) s v ∧
      RemainderCoded u corr k a a' v t ∧
      a'.k = k ∧ a'.err = a.err.set ctx.toNat (BitVec.ofNat 34 (e.toNat - e.toNat / 4 + corr.natAbs)) ∧
      a'.mb = a.mb.set ctx.toNat (row.set (historyBin u e) m') ∧
      exec (.icCompress unit ctx p r) s =
        .next (success 0#32 { t with ic := s.ic.put unit.toNat { u with adaptive := some a' } })

/-- IC_DECOMPRESS, class 0: the residual is the bit read with MC0 (R204, R206, R207, R209). -/
def Obligations.IcDecompressClassZero : Prop :=
  ∀ (s : State) (unit : BitVec 8) (ctx : BitVec 16) (p : Word) (u : IcUnit) (a : IcAdaptive) (e : BitVec 34)
    (row : List SymModel) (m : SymModel),
    s.Inv → s.mode = .dec → unit.toNat < s.capNic.toNat → s.ic.get unit.toNat = some u → u.adaptive = some a →
    ctx.toNat < u.contexts → a.err[ctx.toNat]? = some e → a.mb[ctx.toNat]? = some row → row[historyBin u e]? = some m →
    s.hasSym m 0 →
    let s1 := consumeSym m 0 s
    let bit := foundBit a.mc0 s1
    s1.hasBit a.mc0 bit →
    ∃ (m' : SymModel) (b' : BitModel), m.Observed 0 m' ∧ a.mc0.Observed bit b' ∧
      let a' : IcAdaptive := { a with
        k := 0
        mc0 := b'
        mb := a.mb.set ctx.toNat (row.set (historyBin u e) m')
        err := a.err.set ctx.toNat (BitVec.ofNat 34 (e.toNat - e.toNat / 4 + bit.toNat)) }
      exec (.icDecompress unit ctx p) s = .next (success (unwrapped u.bits p (bit.toNat : Int))
        { consumeBit a.mc0 bit s1 with ic := s.ic.put unit.toNat { u with adaptive := some a' } })

/-- IC_DECOMPRESS, a class `k` from 1 to 31: the position is a symbol of MC[k], and above BITS_HIGH that symbol with the direct
bits `d` below it (R204, R206, R207, R209). -/
def Obligations.IcDecompressMiddleClass : Prop :=
  ∀ (s : State) (unit : BitVec 8) (ctx : BitVec 16) (p : Word) (u : IcUnit) (a : IcAdaptive) (e : BitVec 34)
    (row : List SymModel) (m mk : SymModel) (k y d : Nat),
    s.Inv → s.mode = .dec → unit.toNat < s.capNic.toNat → s.ic.get unit.toNat = some u → u.adaptive = some a →
    ctx.toNat < u.contexts → a.err[ctx.toNat]? = some e → a.mb[ctx.toNat]? = some row → row[historyBin u e]? = some m →
    1 ≤ k → k < 32 → s.hasSym m k → a.mc[k - 1]? = some mk → (consumeSym m k s).hasSym mk y →
    let s2 := consumeSym mk y (consumeSym m k s)
    let low := k - u.bitsHigh
    (low = 0 → d = 0) → (0 < low → s2.hasDirect low d) →
    let s3 := if low = 0 then s2 else consumeDirect low s2
    let t := y * 2 ^ low + d
    let corr : Int := if 2 ^ (k - 1) ≤ t then (t : Int) + 1 else (t : Int) - (2 ^ k - 1)
    ∃ m' mk' : SymModel, m.Observed k m' ∧ mk.Observed y mk' ∧
      let a' : IcAdaptive := { a with
        k := k
        mc := a.mc.set (k - 1) mk'
        mb := a.mb.set ctx.toNat (row.set (historyBin u e) m')
        err := a.err.set ctx.toNat (BitVec.ofNat 34 (e.toNat - e.toNat / 4 + corr.natAbs)) }
      exec (.icDecompress unit ctx p) s = .next (success (unwrapped u.bits p corr)
        { s3 with ic := s.ic.put unit.toNat { u with adaptive := some a' } })

/-- IC_DECOMPRESS, class 32 of a 32-bit unit: its one member, -2^31, with nothing more read (R204, R206, R207, R209). -/
def Obligations.IcDecompressTopClass : Prop :=
  ∀ (s : State) (unit : BitVec 8) (ctx : BitVec 16) (p : Word) (u : IcUnit) (a : IcAdaptive) (e : BitVec 34)
    (row : List SymModel) (m : SymModel),
    s.Inv → s.mode = .dec → unit.toNat < s.capNic.toNat → s.ic.get unit.toNat = some u → u.adaptive = some a →
    ctx.toNat < u.contexts → a.err[ctx.toNat]? = some e → a.mb[ctx.toNat]? = some row → row[historyBin u e]? = some m →
    s.hasSym m 32 →
    ∃ m' : SymModel, m.Observed 32 m' ∧
      let a' : IcAdaptive := { a with
        k := 32
        mb := a.mb.set ctx.toNat (row.set (historyBin u e) m')
        err := a.err.set ctx.toNat (BitVec.ofNat 34 (e.toNat - e.toNat / 4 + 2 ^ 31)) }
      exec (.icDecompress unit ctx p) s = .next (success (p + 0x80000000#32)
        { consumeSym m 32 s with ic := s.ic.put unit.toNat { u with adaptive := some a' } })

/-- IC_GETK answers K and changes nothing (R205). -/
def Obligations.IcGetKReadsTheClass : Prop :=
  ∀ (s : State) (unit : BitVec 8) (u : IcUnit) (a : IcAdaptive), s.mode ≠ .fault → unit.toNat < s.capNic.toNat →
    s.ic.get unit.toNat = some u → u.adaptive = some a →
    exec (.icGetK unit) s = .next (success (BitVec.ofNat 32 a.k) s)

/-- The bin of an error estimate: the bit length of its quarter, capped at BINS - 1 (R206). -/
def Obligations.HistoryBinIsTheCappedBitLength : Prop :=
  ∀ (u : IcUnit) (e : BitVec 34) (n : Nat), 1 ≤ u.bins →
    (e.toNat / 4 = 0 → historyBin u e = 0) ∧
    (2 ^ n ≤ e.toNat / 4 → e.toNat / 4 < 2 ^ (n + 1) → historyBin u e = min (u.bins - 1) (n + 1))

/-- The residual and its class are the numbers of R203 and R210, and values in `0 .. 2^BITS - 1` always fold into a class the
unit has, so IC_COMPRESS does not raise OperandRange on them; with BITS = 32 no value does. -/
def Obligations.ResidualsOfUnitValuesFit : Prop :=
  ∀ (u : IcUnit) (p r : Word), u.legal →
    foldedResidual u p r = wrappedResidual u.bits p r ∧
    InClass (wrappedResidual u.bits p r) (residualClass (foldedResidual u p r)) ∧
    (p.toNat < 2 ^ u.bits → r.toNat < 2 ^ u.bits → residualClass (foldedResidual u p r) ≤ u.corrBits)

/-- The residual a value folds to gives the value back: the two halves of LZN's compress and decompress agree (R204, R210,
R211). -/
def Obligations.RestoringUndoesFolding : Prop :=
  ∀ (u : IcUnit) (p r : Word), u.legal → p.toNat < 2 ^ u.bits → r.toNat < 2 ^ u.bits →
    restored u p (foldedResidual u p r) = r

/-- Whatever the stream holds, an IC_DECOMPRESS that succeeds on a prediction in range answers a value in range (R204). -/
def Obligations.IcDecompressAnswersInRange : Prop :=
  ∀ (s t : State) (unit : BitVec 8) (ctx : BitVec 16) (p w : Word) (u : IcUnit), s.Inv → s.mode = .dec →
    s.ic.get unit.toNat = some u → p.toNat < 2 ^ u.bits → exec (.icDecompress unit ctx p) s = .next t → t.mode = .dec →
    t.rsp = s.rsp ++ [⟨0#8, w⟩] → w.toNat < 2 ^ u.bits

end Statements
end

