-- ==== Sys2Proof/Laws/State.lean ====
section
/-! SUPPORT. One lemma per field per setter of State, so that no proof unfolds a record update. -/

namespace Sys2Proof.Machine.State

/-! ## setMode -/

@[simp] theorem setMode_mode (s : State) (v : Mode) : (s.setMode v).mode = v := rfl
@[simp] theorem setMode_base (s : State) (v : Mode) : (s.setMode v).base = s.base := rfl
@[simp] theorem setMode_value (s : State) (v : Mode) : (s.setMode v).value = s.value := rfl
@[simp] theorem setMode_length (s : State) (v : Mode) : (s.setMode v).length = s.length := rfl
@[simp] theorem setMode_cacheValid (s : State) (v : Mode) : (s.setMode v).cacheValid = s.cacheValid := rfl
@[simp] theorem setMode_cache (s : State) (v : Mode) : (s.setMode v).cache = s.cache := rfl
@[simp] theorem setMode_ffrun (s : State) (v : Mode) : (s.setMode v).ffrun = s.ffrun := rfl
@[simp] theorem setMode_cause (s : State) (v : Mode) : (s.setMode v).cause = s.cause := rfl
@[simp] theorem setMode_info (s : State) (v : Mode) : (s.setMode v).info = s.info := rfl
@[simp] theorem setMode_capNbm (s : State) (v : Mode) : (s.setMode v).capNbm = s.capNbm := rfl
@[simp] theorem setMode_capNsm (s : State) (v : Mode) : (s.setMode v).capNsm = s.capNsm := rfl
@[simp] theorem setMode_capNic (s : State) (v : Mode) : (s.setMode v).capNic = s.capNic := rfl
@[simp] theorem setMode_capIcBank (s : State) (v : Mode) : (s.setMode v).capIcBank = s.capIcBank := rfl
@[simp] theorem setMode_bm (s : State) (v : Mode) : (s.setMode v).bm = s.bm := rfl
@[simp] theorem setMode_sm (s : State) (v : Mode) : (s.setMode v).sm = s.sm := rfl
@[simp] theorem setMode_ic (s : State) (v : Mode) : (s.setMode v).ic = s.ic := rfl
@[simp] theorem setMode_cmd (s : State) (v : Mode) : (s.setMode v).cmd = s.cmd := rfl
@[simp] theorem setMode_rsp (s : State) (v : Mode) : (s.setMode v).rsp = s.rsp := rfl
@[simp] theorem setMode_bin (s : State) (v : Mode) : (s.setMode v).bin = s.bin := rfl
@[simp] theorem setMode_bout (s : State) (v : Mode) : (s.setMode v).bout = s.bout := rfl
@[simp] theorem setMode_freeCount (s : State) (v : Mode) : (s.setMode v).freeCount = s.freeCount := rfl

/-! ## setBase -/

@[simp] theorem setBase_mode (s : State) (v : Word) : (s.setBase v).mode = s.mode := rfl
@[simp] theorem setBase_base (s : State) (v : Word) : (s.setBase v).base = v := rfl
@[simp] theorem setBase_value (s : State) (v : Word) : (s.setBase v).value = s.value := rfl
@[simp] theorem setBase_length (s : State) (v : Word) : (s.setBase v).length = s.length := rfl
@[simp] theorem setBase_cacheValid (s : State) (v : Word) : (s.setBase v).cacheValid = s.cacheValid := rfl
@[simp] theorem setBase_cache (s : State) (v : Word) : (s.setBase v).cache = s.cache := rfl
@[simp] theorem setBase_ffrun (s : State) (v : Word) : (s.setBase v).ffrun = s.ffrun := rfl
@[simp] theorem setBase_cause (s : State) (v : Word) : (s.setBase v).cause = s.cause := rfl
@[simp] theorem setBase_info (s : State) (v : Word) : (s.setBase v).info = s.info := rfl
@[simp] theorem setBase_capNbm (s : State) (v : Word) : (s.setBase v).capNbm = s.capNbm := rfl
@[simp] theorem setBase_capNsm (s : State) (v : Word) : (s.setBase v).capNsm = s.capNsm := rfl
@[simp] theorem setBase_capNic (s : State) (v : Word) : (s.setBase v).capNic = s.capNic := rfl
@[simp] theorem setBase_capIcBank (s : State) (v : Word) : (s.setBase v).capIcBank = s.capIcBank := rfl
@[simp] theorem setBase_bm (s : State) (v : Word) : (s.setBase v).bm = s.bm := rfl
@[simp] theorem setBase_sm (s : State) (v : Word) : (s.setBase v).sm = s.sm := rfl
@[simp] theorem setBase_ic (s : State) (v : Word) : (s.setBase v).ic = s.ic := rfl
@[simp] theorem setBase_cmd (s : State) (v : Word) : (s.setBase v).cmd = s.cmd := rfl
@[simp] theorem setBase_rsp (s : State) (v : Word) : (s.setBase v).rsp = s.rsp := rfl
@[simp] theorem setBase_bin (s : State) (v : Word) : (s.setBase v).bin = s.bin := rfl
@[simp] theorem setBase_bout (s : State) (v : Word) : (s.setBase v).bout = s.bout := rfl
@[simp] theorem setBase_freeCount (s : State) (v : Word) : (s.setBase v).freeCount = s.freeCount := rfl

/-! ## setValue -/

@[simp] theorem setValue_mode (s : State) (v : Word) : (s.setValue v).mode = s.mode := rfl
@[simp] theorem setValue_base (s : State) (v : Word) : (s.setValue v).base = s.base := rfl
@[simp] theorem setValue_value (s : State) (v : Word) : (s.setValue v).value = v := rfl
@[simp] theorem setValue_length (s : State) (v : Word) : (s.setValue v).length = s.length := rfl
@[simp] theorem setValue_cacheValid (s : State) (v : Word) : (s.setValue v).cacheValid = s.cacheValid := rfl
@[simp] theorem setValue_cache (s : State) (v : Word) : (s.setValue v).cache = s.cache := rfl
@[simp] theorem setValue_ffrun (s : State) (v : Word) : (s.setValue v).ffrun = s.ffrun := rfl
@[simp] theorem setValue_cause (s : State) (v : Word) : (s.setValue v).cause = s.cause := rfl
@[simp] theorem setValue_info (s : State) (v : Word) : (s.setValue v).info = s.info := rfl
@[simp] theorem setValue_capNbm (s : State) (v : Word) : (s.setValue v).capNbm = s.capNbm := rfl
@[simp] theorem setValue_capNsm (s : State) (v : Word) : (s.setValue v).capNsm = s.capNsm := rfl
@[simp] theorem setValue_capNic (s : State) (v : Word) : (s.setValue v).capNic = s.capNic := rfl
@[simp] theorem setValue_capIcBank (s : State) (v : Word) : (s.setValue v).capIcBank = s.capIcBank := rfl
@[simp] theorem setValue_bm (s : State) (v : Word) : (s.setValue v).bm = s.bm := rfl
@[simp] theorem setValue_sm (s : State) (v : Word) : (s.setValue v).sm = s.sm := rfl
@[simp] theorem setValue_ic (s : State) (v : Word) : (s.setValue v).ic = s.ic := rfl
@[simp] theorem setValue_cmd (s : State) (v : Word) : (s.setValue v).cmd = s.cmd := rfl
@[simp] theorem setValue_rsp (s : State) (v : Word) : (s.setValue v).rsp = s.rsp := rfl
@[simp] theorem setValue_bin (s : State) (v : Word) : (s.setValue v).bin = s.bin := rfl
@[simp] theorem setValue_bout (s : State) (v : Word) : (s.setValue v).bout = s.bout := rfl
@[simp] theorem setValue_freeCount (s : State) (v : Word) : (s.setValue v).freeCount = s.freeCount := rfl

/-! ## setLength -/

@[simp] theorem setLength_mode (s : State) (v : Word) : (s.setLength v).mode = s.mode := rfl
@[simp] theorem setLength_base (s : State) (v : Word) : (s.setLength v).base = s.base := rfl
@[simp] theorem setLength_value (s : State) (v : Word) : (s.setLength v).value = s.value := rfl
@[simp] theorem setLength_length (s : State) (v : Word) : (s.setLength v).length = v := rfl
@[simp] theorem setLength_cacheValid (s : State) (v : Word) : (s.setLength v).cacheValid = s.cacheValid := rfl
@[simp] theorem setLength_cache (s : State) (v : Word) : (s.setLength v).cache = s.cache := rfl
@[simp] theorem setLength_ffrun (s : State) (v : Word) : (s.setLength v).ffrun = s.ffrun := rfl
@[simp] theorem setLength_cause (s : State) (v : Word) : (s.setLength v).cause = s.cause := rfl
@[simp] theorem setLength_info (s : State) (v : Word) : (s.setLength v).info = s.info := rfl
@[simp] theorem setLength_capNbm (s : State) (v : Word) : (s.setLength v).capNbm = s.capNbm := rfl
@[simp] theorem setLength_capNsm (s : State) (v : Word) : (s.setLength v).capNsm = s.capNsm := rfl
@[simp] theorem setLength_capNic (s : State) (v : Word) : (s.setLength v).capNic = s.capNic := rfl
@[simp] theorem setLength_capIcBank (s : State) (v : Word) : (s.setLength v).capIcBank = s.capIcBank := rfl
@[simp] theorem setLength_bm (s : State) (v : Word) : (s.setLength v).bm = s.bm := rfl
@[simp] theorem setLength_sm (s : State) (v : Word) : (s.setLength v).sm = s.sm := rfl
@[simp] theorem setLength_ic (s : State) (v : Word) : (s.setLength v).ic = s.ic := rfl
@[simp] theorem setLength_cmd (s : State) (v : Word) : (s.setLength v).cmd = s.cmd := rfl
@[simp] theorem setLength_rsp (s : State) (v : Word) : (s.setLength v).rsp = s.rsp := rfl
@[simp] theorem setLength_bin (s : State) (v : Word) : (s.setLength v).bin = s.bin := rfl
@[simp] theorem setLength_bout (s : State) (v : Word) : (s.setLength v).bout = s.bout := rfl
@[simp] theorem setLength_freeCount (s : State) (v : Word) : (s.setLength v).freeCount = s.freeCount := rfl

/-! ## setStage -/

@[simp] theorem setStage_mode (s : State) (v : Bool) (c : Byte) (f : Word) : (s.setStage v c f).mode = s.mode := rfl
@[simp] theorem setStage_base (s : State) (v : Bool) (c : Byte) (f : Word) : (s.setStage v c f).base = s.base := rfl
@[simp] theorem setStage_value (s : State) (v : Bool) (c : Byte) (f : Word) : (s.setStage v c f).value = s.value := rfl
@[simp] theorem setStage_length (s : State) (v : Bool) (c : Byte) (f : Word) : (s.setStage v c f).length = s.length := rfl
@[simp] theorem setStage_cacheValid (s : State) (v : Bool) (c : Byte) (f : Word) : (s.setStage v c f).cacheValid = v := rfl
@[simp] theorem setStage_cache (s : State) (v : Bool) (c : Byte) (f : Word) : (s.setStage v c f).cache = c := rfl
@[simp] theorem setStage_ffrun (s : State) (v : Bool) (c : Byte) (f : Word) : (s.setStage v c f).ffrun = f := rfl
@[simp] theorem setStage_cause (s : State) (v : Bool) (c : Byte) (f : Word) : (s.setStage v c f).cause = s.cause := rfl
@[simp] theorem setStage_info (s : State) (v : Bool) (c : Byte) (f : Word) : (s.setStage v c f).info = s.info := rfl
@[simp] theorem setStage_capNbm (s : State) (v : Bool) (c : Byte) (f : Word) : (s.setStage v c f).capNbm = s.capNbm := rfl
@[simp] theorem setStage_capNsm (s : State) (v : Bool) (c : Byte) (f : Word) : (s.setStage v c f).capNsm = s.capNsm := rfl
@[simp] theorem setStage_capNic (s : State) (v : Bool) (c : Byte) (f : Word) : (s.setStage v c f).capNic = s.capNic := rfl
@[simp] theorem setStage_capIcBank (s : State) (v : Bool) (c : Byte) (f : Word) : (s.setStage v c f).capIcBank = s.capIcBank := rfl
@[simp] theorem setStage_bm (s : State) (v : Bool) (c : Byte) (f : Word) : (s.setStage v c f).bm = s.bm := rfl
@[simp] theorem setStage_sm (s : State) (v : Bool) (c : Byte) (f : Word) : (s.setStage v c f).sm = s.sm := rfl
@[simp] theorem setStage_ic (s : State) (v : Bool) (c : Byte) (f : Word) : (s.setStage v c f).ic = s.ic := rfl
@[simp] theorem setStage_cmd (s : State) (v : Bool) (c : Byte) (f : Word) : (s.setStage v c f).cmd = s.cmd := rfl
@[simp] theorem setStage_rsp (s : State) (v : Bool) (c : Byte) (f : Word) : (s.setStage v c f).rsp = s.rsp := rfl
@[simp] theorem setStage_bin (s : State) (v : Bool) (c : Byte) (f : Word) : (s.setStage v c f).bin = s.bin := rfl
@[simp] theorem setStage_bout (s : State) (v : Bool) (c : Byte) (f : Word) : (s.setStage v c f).bout = s.bout := rfl
@[simp] theorem setStage_freeCount (s : State) (v : Bool) (c : Byte) (f : Word) : (s.setStage v c f).freeCount = s.freeCount := rfl

/-! ## setFault -/

@[simp] theorem setFault_mode (s : State) (c : Cause) (w : Word) : (s.setFault c w).mode = s.mode := rfl
@[simp] theorem setFault_base (s : State) (c : Cause) (w : Word) : (s.setFault c w).base = s.base := rfl
@[simp] theorem setFault_value (s : State) (c : Cause) (w : Word) : (s.setFault c w).value = s.value := rfl
@[simp] theorem setFault_length (s : State) (c : Cause) (w : Word) : (s.setFault c w).length = s.length := rfl
@[simp] theorem setFault_cacheValid (s : State) (c : Cause) (w : Word) : (s.setFault c w).cacheValid = s.cacheValid := rfl
@[simp] theorem setFault_cache (s : State) (c : Cause) (w : Word) : (s.setFault c w).cache = s.cache := rfl
@[simp] theorem setFault_ffrun (s : State) (c : Cause) (w : Word) : (s.setFault c w).ffrun = s.ffrun := rfl
@[simp] theorem setFault_cause (s : State) (c : Cause) (w : Word) : (s.setFault c w).cause = c := rfl
@[simp] theorem setFault_info (s : State) (c : Cause) (w : Word) : (s.setFault c w).info = w := rfl
@[simp] theorem setFault_capNbm (s : State) (c : Cause) (w : Word) : (s.setFault c w).capNbm = s.capNbm := rfl
@[simp] theorem setFault_capNsm (s : State) (c : Cause) (w : Word) : (s.setFault c w).capNsm = s.capNsm := rfl
@[simp] theorem setFault_capNic (s : State) (c : Cause) (w : Word) : (s.setFault c w).capNic = s.capNic := rfl
@[simp] theorem setFault_capIcBank (s : State) (c : Cause) (w : Word) : (s.setFault c w).capIcBank = s.capIcBank := rfl
@[simp] theorem setFault_bm (s : State) (c : Cause) (w : Word) : (s.setFault c w).bm = s.bm := rfl
@[simp] theorem setFault_sm (s : State) (c : Cause) (w : Word) : (s.setFault c w).sm = s.sm := rfl
@[simp] theorem setFault_ic (s : State) (c : Cause) (w : Word) : (s.setFault c w).ic = s.ic := rfl
@[simp] theorem setFault_cmd (s : State) (c : Cause) (w : Word) : (s.setFault c w).cmd = s.cmd := rfl
@[simp] theorem setFault_rsp (s : State) (c : Cause) (w : Word) : (s.setFault c w).rsp = s.rsp := rfl
@[simp] theorem setFault_bin (s : State) (c : Cause) (w : Word) : (s.setFault c w).bin = s.bin := rfl
@[simp] theorem setFault_bout (s : State) (c : Cause) (w : Word) : (s.setFault c w).bout = s.bout := rfl
@[simp] theorem setFault_freeCount (s : State) (c : Cause) (w : Word) : (s.setFault c w).freeCount = s.freeCount := rfl

/-! ## setBm -/

@[simp] theorem setBm_mode (s : State) (v : Store BitModel) : (s.setBm v).mode = s.mode := rfl
@[simp] theorem setBm_base (s : State) (v : Store BitModel) : (s.setBm v).base = s.base := rfl
@[simp] theorem setBm_value (s : State) (v : Store BitModel) : (s.setBm v).value = s.value := rfl
@[simp] theorem setBm_length (s : State) (v : Store BitModel) : (s.setBm v).length = s.length := rfl
@[simp] theorem setBm_cacheValid (s : State) (v : Store BitModel) : (s.setBm v).cacheValid = s.cacheValid := rfl
@[simp] theorem setBm_cache (s : State) (v : Store BitModel) : (s.setBm v).cache = s.cache := rfl
@[simp] theorem setBm_ffrun (s : State) (v : Store BitModel) : (s.setBm v).ffrun = s.ffrun := rfl
@[simp] theorem setBm_cause (s : State) (v : Store BitModel) : (s.setBm v).cause = s.cause := rfl
@[simp] theorem setBm_info (s : State) (v : Store BitModel) : (s.setBm v).info = s.info := rfl
@[simp] theorem setBm_capNbm (s : State) (v : Store BitModel) : (s.setBm v).capNbm = s.capNbm := rfl
@[simp] theorem setBm_capNsm (s : State) (v : Store BitModel) : (s.setBm v).capNsm = s.capNsm := rfl
@[simp] theorem setBm_capNic (s : State) (v : Store BitModel) : (s.setBm v).capNic = s.capNic := rfl
@[simp] theorem setBm_capIcBank (s : State) (v : Store BitModel) : (s.setBm v).capIcBank = s.capIcBank := rfl
@[simp] theorem setBm_bm (s : State) (v : Store BitModel) : (s.setBm v).bm = v := rfl
@[simp] theorem setBm_sm (s : State) (v : Store BitModel) : (s.setBm v).sm = s.sm := rfl
@[simp] theorem setBm_ic (s : State) (v : Store BitModel) : (s.setBm v).ic = s.ic := rfl
@[simp] theorem setBm_cmd (s : State) (v : Store BitModel) : (s.setBm v).cmd = s.cmd := rfl
@[simp] theorem setBm_rsp (s : State) (v : Store BitModel) : (s.setBm v).rsp = s.rsp := rfl
@[simp] theorem setBm_bin (s : State) (v : Store BitModel) : (s.setBm v).bin = s.bin := rfl
@[simp] theorem setBm_bout (s : State) (v : Store BitModel) : (s.setBm v).bout = s.bout := rfl
@[simp] theorem setBm_freeCount (s : State) (v : Store BitModel) : (s.setBm v).freeCount = s.freeCount := rfl

/-! ## setSm -/

@[simp] theorem setSm_mode (s : State) (v : Store SymModel) : (s.setSm v).mode = s.mode := rfl
@[simp] theorem setSm_base (s : State) (v : Store SymModel) : (s.setSm v).base = s.base := rfl
@[simp] theorem setSm_value (s : State) (v : Store SymModel) : (s.setSm v).value = s.value := rfl
@[simp] theorem setSm_length (s : State) (v : Store SymModel) : (s.setSm v).length = s.length := rfl
@[simp] theorem setSm_cacheValid (s : State) (v : Store SymModel) : (s.setSm v).cacheValid = s.cacheValid := rfl
@[simp] theorem setSm_cache (s : State) (v : Store SymModel) : (s.setSm v).cache = s.cache := rfl
@[simp] theorem setSm_ffrun (s : State) (v : Store SymModel) : (s.setSm v).ffrun = s.ffrun := rfl
@[simp] theorem setSm_cause (s : State) (v : Store SymModel) : (s.setSm v).cause = s.cause := rfl
@[simp] theorem setSm_info (s : State) (v : Store SymModel) : (s.setSm v).info = s.info := rfl
@[simp] theorem setSm_capNbm (s : State) (v : Store SymModel) : (s.setSm v).capNbm = s.capNbm := rfl
@[simp] theorem setSm_capNsm (s : State) (v : Store SymModel) : (s.setSm v).capNsm = s.capNsm := rfl
@[simp] theorem setSm_capNic (s : State) (v : Store SymModel) : (s.setSm v).capNic = s.capNic := rfl
@[simp] theorem setSm_capIcBank (s : State) (v : Store SymModel) : (s.setSm v).capIcBank = s.capIcBank := rfl
@[simp] theorem setSm_bm (s : State) (v : Store SymModel) : (s.setSm v).bm = s.bm := rfl
@[simp] theorem setSm_sm (s : State) (v : Store SymModel) : (s.setSm v).sm = v := rfl
@[simp] theorem setSm_ic (s : State) (v : Store SymModel) : (s.setSm v).ic = s.ic := rfl
@[simp] theorem setSm_cmd (s : State) (v : Store SymModel) : (s.setSm v).cmd = s.cmd := rfl
@[simp] theorem setSm_rsp (s : State) (v : Store SymModel) : (s.setSm v).rsp = s.rsp := rfl
@[simp] theorem setSm_bin (s : State) (v : Store SymModel) : (s.setSm v).bin = s.bin := rfl
@[simp] theorem setSm_bout (s : State) (v : Store SymModel) : (s.setSm v).bout = s.bout := rfl
@[simp] theorem setSm_freeCount (s : State) (v : Store SymModel) : (s.setSm v).freeCount = s.freeCount := rfl

/-! ## setIc -/

@[simp] theorem setIc_mode (s : State) (v : Store IcUnit) : (s.setIc v).mode = s.mode := rfl
@[simp] theorem setIc_base (s : State) (v : Store IcUnit) : (s.setIc v).base = s.base := rfl
@[simp] theorem setIc_value (s : State) (v : Store IcUnit) : (s.setIc v).value = s.value := rfl
@[simp] theorem setIc_length (s : State) (v : Store IcUnit) : (s.setIc v).length = s.length := rfl
@[simp] theorem setIc_cacheValid (s : State) (v : Store IcUnit) : (s.setIc v).cacheValid = s.cacheValid := rfl
@[simp] theorem setIc_cache (s : State) (v : Store IcUnit) : (s.setIc v).cache = s.cache := rfl
@[simp] theorem setIc_ffrun (s : State) (v : Store IcUnit) : (s.setIc v).ffrun = s.ffrun := rfl
@[simp] theorem setIc_cause (s : State) (v : Store IcUnit) : (s.setIc v).cause = s.cause := rfl
@[simp] theorem setIc_info (s : State) (v : Store IcUnit) : (s.setIc v).info = s.info := rfl
@[simp] theorem setIc_capNbm (s : State) (v : Store IcUnit) : (s.setIc v).capNbm = s.capNbm := rfl
@[simp] theorem setIc_capNsm (s : State) (v : Store IcUnit) : (s.setIc v).capNsm = s.capNsm := rfl
@[simp] theorem setIc_capNic (s : State) (v : Store IcUnit) : (s.setIc v).capNic = s.capNic := rfl
@[simp] theorem setIc_capIcBank (s : State) (v : Store IcUnit) : (s.setIc v).capIcBank = s.capIcBank := rfl
@[simp] theorem setIc_bm (s : State) (v : Store IcUnit) : (s.setIc v).bm = s.bm := rfl
@[simp] theorem setIc_sm (s : State) (v : Store IcUnit) : (s.setIc v).sm = s.sm := rfl
@[simp] theorem setIc_ic (s : State) (v : Store IcUnit) : (s.setIc v).ic = v := rfl
@[simp] theorem setIc_cmd (s : State) (v : Store IcUnit) : (s.setIc v).cmd = s.cmd := rfl
@[simp] theorem setIc_rsp (s : State) (v : Store IcUnit) : (s.setIc v).rsp = s.rsp := rfl
@[simp] theorem setIc_bin (s : State) (v : Store IcUnit) : (s.setIc v).bin = s.bin := rfl
@[simp] theorem setIc_bout (s : State) (v : Store IcUnit) : (s.setIc v).bout = s.bout := rfl
@[simp] theorem setIc_freeCount (s : State) (v : Store IcUnit) : (s.setIc v).freeCount = s.freeCount := rfl

/-! ## setCmd -/

@[simp] theorem setCmd_mode (s : State) (v : List Word) : (s.setCmd v).mode = s.mode := rfl
@[simp] theorem setCmd_base (s : State) (v : List Word) : (s.setCmd v).base = s.base := rfl
@[simp] theorem setCmd_value (s : State) (v : List Word) : (s.setCmd v).value = s.value := rfl
@[simp] theorem setCmd_length (s : State) (v : List Word) : (s.setCmd v).length = s.length := rfl
@[simp] theorem setCmd_cacheValid (s : State) (v : List Word) : (s.setCmd v).cacheValid = s.cacheValid := rfl
@[simp] theorem setCmd_cache (s : State) (v : List Word) : (s.setCmd v).cache = s.cache := rfl
@[simp] theorem setCmd_ffrun (s : State) (v : List Word) : (s.setCmd v).ffrun = s.ffrun := rfl
@[simp] theorem setCmd_cause (s : State) (v : List Word) : (s.setCmd v).cause = s.cause := rfl
@[simp] theorem setCmd_info (s : State) (v : List Word) : (s.setCmd v).info = s.info := rfl
@[simp] theorem setCmd_capNbm (s : State) (v : List Word) : (s.setCmd v).capNbm = s.capNbm := rfl
@[simp] theorem setCmd_capNsm (s : State) (v : List Word) : (s.setCmd v).capNsm = s.capNsm := rfl
@[simp] theorem setCmd_capNic (s : State) (v : List Word) : (s.setCmd v).capNic = s.capNic := rfl
@[simp] theorem setCmd_capIcBank (s : State) (v : List Word) : (s.setCmd v).capIcBank = s.capIcBank := rfl
@[simp] theorem setCmd_bm (s : State) (v : List Word) : (s.setCmd v).bm = s.bm := rfl
@[simp] theorem setCmd_sm (s : State) (v : List Word) : (s.setCmd v).sm = s.sm := rfl
@[simp] theorem setCmd_ic (s : State) (v : List Word) : (s.setCmd v).ic = s.ic := rfl
@[simp] theorem setCmd_cmd (s : State) (v : List Word) : (s.setCmd v).cmd = v := rfl
@[simp] theorem setCmd_rsp (s : State) (v : List Word) : (s.setCmd v).rsp = s.rsp := rfl
@[simp] theorem setCmd_bin (s : State) (v : List Word) : (s.setCmd v).bin = s.bin := rfl
@[simp] theorem setCmd_bout (s : State) (v : List Word) : (s.setCmd v).bout = s.bout := rfl
@[simp] theorem setCmd_freeCount (s : State) (v : List Word) : (s.setCmd v).freeCount = s.freeCount := rfl

/-! ## setRsp -/

@[simp] theorem setRsp_mode (s : State) (v : List Response) : (s.setRsp v).mode = s.mode := rfl
@[simp] theorem setRsp_base (s : State) (v : List Response) : (s.setRsp v).base = s.base := rfl
@[simp] theorem setRsp_value (s : State) (v : List Response) : (s.setRsp v).value = s.value := rfl
@[simp] theorem setRsp_length (s : State) (v : List Response) : (s.setRsp v).length = s.length := rfl
@[simp] theorem setRsp_cacheValid (s : State) (v : List Response) : (s.setRsp v).cacheValid = s.cacheValid := rfl
@[simp] theorem setRsp_cache (s : State) (v : List Response) : (s.setRsp v).cache = s.cache := rfl
@[simp] theorem setRsp_ffrun (s : State) (v : List Response) : (s.setRsp v).ffrun = s.ffrun := rfl
@[simp] theorem setRsp_cause (s : State) (v : List Response) : (s.setRsp v).cause = s.cause := rfl
@[simp] theorem setRsp_info (s : State) (v : List Response) : (s.setRsp v).info = s.info := rfl
@[simp] theorem setRsp_capNbm (s : State) (v : List Response) : (s.setRsp v).capNbm = s.capNbm := rfl
@[simp] theorem setRsp_capNsm (s : State) (v : List Response) : (s.setRsp v).capNsm = s.capNsm := rfl
@[simp] theorem setRsp_capNic (s : State) (v : List Response) : (s.setRsp v).capNic = s.capNic := rfl
@[simp] theorem setRsp_capIcBank (s : State) (v : List Response) : (s.setRsp v).capIcBank = s.capIcBank := rfl
@[simp] theorem setRsp_bm (s : State) (v : List Response) : (s.setRsp v).bm = s.bm := rfl
@[simp] theorem setRsp_sm (s : State) (v : List Response) : (s.setRsp v).sm = s.sm := rfl
@[simp] theorem setRsp_ic (s : State) (v : List Response) : (s.setRsp v).ic = s.ic := rfl
@[simp] theorem setRsp_cmd (s : State) (v : List Response) : (s.setRsp v).cmd = s.cmd := rfl
@[simp] theorem setRsp_rsp (s : State) (v : List Response) : (s.setRsp v).rsp = v := rfl
@[simp] theorem setRsp_bin (s : State) (v : List Response) : (s.setRsp v).bin = s.bin := rfl
@[simp] theorem setRsp_bout (s : State) (v : List Response) : (s.setRsp v).bout = s.bout := rfl
@[simp] theorem setRsp_freeCount (s : State) (v : List Response) : (s.setRsp v).freeCount = s.freeCount := rfl

/-! ## setBin -/

@[simp] theorem setBin_mode (s : State) (v : List Byte) : (s.setBin v).mode = s.mode := rfl
@[simp] theorem setBin_base (s : State) (v : List Byte) : (s.setBin v).base = s.base := rfl
@[simp] theorem setBin_value (s : State) (v : List Byte) : (s.setBin v).value = s.value := rfl
@[simp] theorem setBin_length (s : State) (v : List Byte) : (s.setBin v).length = s.length := rfl
@[simp] theorem setBin_cacheValid (s : State) (v : List Byte) : (s.setBin v).cacheValid = s.cacheValid := rfl
@[simp] theorem setBin_cache (s : State) (v : List Byte) : (s.setBin v).cache = s.cache := rfl
@[simp] theorem setBin_ffrun (s : State) (v : List Byte) : (s.setBin v).ffrun = s.ffrun := rfl
@[simp] theorem setBin_cause (s : State) (v : List Byte) : (s.setBin v).cause = s.cause := rfl
@[simp] theorem setBin_info (s : State) (v : List Byte) : (s.setBin v).info = s.info := rfl
@[simp] theorem setBin_capNbm (s : State) (v : List Byte) : (s.setBin v).capNbm = s.capNbm := rfl
@[simp] theorem setBin_capNsm (s : State) (v : List Byte) : (s.setBin v).capNsm = s.capNsm := rfl
@[simp] theorem setBin_capNic (s : State) (v : List Byte) : (s.setBin v).capNic = s.capNic := rfl
@[simp] theorem setBin_capIcBank (s : State) (v : List Byte) : (s.setBin v).capIcBank = s.capIcBank := rfl
@[simp] theorem setBin_bm (s : State) (v : List Byte) : (s.setBin v).bm = s.bm := rfl
@[simp] theorem setBin_sm (s : State) (v : List Byte) : (s.setBin v).sm = s.sm := rfl
@[simp] theorem setBin_ic (s : State) (v : List Byte) : (s.setBin v).ic = s.ic := rfl
@[simp] theorem setBin_cmd (s : State) (v : List Byte) : (s.setBin v).cmd = s.cmd := rfl
@[simp] theorem setBin_rsp (s : State) (v : List Byte) : (s.setBin v).rsp = s.rsp := rfl
@[simp] theorem setBin_bin (s : State) (v : List Byte) : (s.setBin v).bin = v := rfl
@[simp] theorem setBin_bout (s : State) (v : List Byte) : (s.setBin v).bout = s.bout := rfl
@[simp] theorem setBin_freeCount (s : State) (v : List Byte) : (s.setBin v).freeCount = s.freeCount := rfl

/-! ## setBout -/

@[simp] theorem setBout_mode (s : State) (v : List Byte) : (s.setBout v).mode = s.mode := rfl
@[simp] theorem setBout_base (s : State) (v : List Byte) : (s.setBout v).base = s.base := rfl
@[simp] theorem setBout_value (s : State) (v : List Byte) : (s.setBout v).value = s.value := rfl
@[simp] theorem setBout_length (s : State) (v : List Byte) : (s.setBout v).length = s.length := rfl
@[simp] theorem setBout_cacheValid (s : State) (v : List Byte) : (s.setBout v).cacheValid = s.cacheValid := rfl
@[simp] theorem setBout_cache (s : State) (v : List Byte) : (s.setBout v).cache = s.cache := rfl
@[simp] theorem setBout_ffrun (s : State) (v : List Byte) : (s.setBout v).ffrun = s.ffrun := rfl
@[simp] theorem setBout_cause (s : State) (v : List Byte) : (s.setBout v).cause = s.cause := rfl
@[simp] theorem setBout_info (s : State) (v : List Byte) : (s.setBout v).info = s.info := rfl
@[simp] theorem setBout_capNbm (s : State) (v : List Byte) : (s.setBout v).capNbm = s.capNbm := rfl
@[simp] theorem setBout_capNsm (s : State) (v : List Byte) : (s.setBout v).capNsm = s.capNsm := rfl
@[simp] theorem setBout_capNic (s : State) (v : List Byte) : (s.setBout v).capNic = s.capNic := rfl
@[simp] theorem setBout_capIcBank (s : State) (v : List Byte) : (s.setBout v).capIcBank = s.capIcBank := rfl
@[simp] theorem setBout_bm (s : State) (v : List Byte) : (s.setBout v).bm = s.bm := rfl
@[simp] theorem setBout_sm (s : State) (v : List Byte) : (s.setBout v).sm = s.sm := rfl
@[simp] theorem setBout_ic (s : State) (v : List Byte) : (s.setBout v).ic = s.ic := rfl
@[simp] theorem setBout_cmd (s : State) (v : List Byte) : (s.setBout v).cmd = s.cmd := rfl
@[simp] theorem setBout_rsp (s : State) (v : List Byte) : (s.setBout v).rsp = s.rsp := rfl
@[simp] theorem setBout_bin (s : State) (v : List Byte) : (s.setBout v).bin = s.bin := rfl
@[simp] theorem setBout_bout (s : State) (v : List Byte) : (s.setBout v).bout = v := rfl
@[simp] theorem setBout_freeCount (s : State) (v : List Byte) : (s.setBout v).freeCount = s.freeCount := rfl

/-! ## setFree -/

@[simp] theorem setFree_mode (s : State) (v : Nat) : (s.setFree v).mode = s.mode := rfl
@[simp] theorem setFree_base (s : State) (v : Nat) : (s.setFree v).base = s.base := rfl
@[simp] theorem setFree_value (s : State) (v : Nat) : (s.setFree v).value = s.value := rfl
@[simp] theorem setFree_length (s : State) (v : Nat) : (s.setFree v).length = s.length := rfl
@[simp] theorem setFree_cacheValid (s : State) (v : Nat) : (s.setFree v).cacheValid = s.cacheValid := rfl
@[simp] theorem setFree_cache (s : State) (v : Nat) : (s.setFree v).cache = s.cache := rfl
@[simp] theorem setFree_ffrun (s : State) (v : Nat) : (s.setFree v).ffrun = s.ffrun := rfl
@[simp] theorem setFree_cause (s : State) (v : Nat) : (s.setFree v).cause = s.cause := rfl
@[simp] theorem setFree_info (s : State) (v : Nat) : (s.setFree v).info = s.info := rfl
@[simp] theorem setFree_capNbm (s : State) (v : Nat) : (s.setFree v).capNbm = s.capNbm := rfl
@[simp] theorem setFree_capNsm (s : State) (v : Nat) : (s.setFree v).capNsm = s.capNsm := rfl
@[simp] theorem setFree_capNic (s : State) (v : Nat) : (s.setFree v).capNic = s.capNic := rfl
@[simp] theorem setFree_capIcBank (s : State) (v : Nat) : (s.setFree v).capIcBank = s.capIcBank := rfl
@[simp] theorem setFree_bm (s : State) (v : Nat) : (s.setFree v).bm = s.bm := rfl
@[simp] theorem setFree_sm (s : State) (v : Nat) : (s.setFree v).sm = s.sm := rfl
@[simp] theorem setFree_ic (s : State) (v : Nat) : (s.setFree v).ic = s.ic := rfl
@[simp] theorem setFree_cmd (s : State) (v : Nat) : (s.setFree v).cmd = s.cmd := rfl
@[simp] theorem setFree_rsp (s : State) (v : Nat) : (s.setFree v).rsp = s.rsp := rfl
@[simp] theorem setFree_bin (s : State) (v : Nat) : (s.setFree v).bin = s.bin := rfl
@[simp] theorem setFree_bout (s : State) (v : Nat) : (s.setFree v).bout = s.bout := rfl
@[simp] theorem setFree_freeCount (s : State) (v : Nat) : (s.setFree v).freeCount = v := rfl

end Sys2Proof.Machine.State
end

