-- ==== Sys2Proof/Laws/Store.lean ====
section
/-! SUPPORT. Laws of the model store: reading after writing, and the canonical form. -/

namespace Sys2Proof.Machine

theorem Store.wf_nil {α : Type} : Store.wf ([] : Store α) := List.Pairwise.nil

theorem Store.get_put_self {α : Type} (m : Store α) (i : Nat) (a : α) : (m.put i a).get i = some a := by
  induction m with
  | nil => simp [Store.put, Store.get]
  | cons e rest ih =>
    obtain ⟨j, b⟩ := e
    simp only [Store.put]
    split
    · simp [Store.get]
    · split
      · simp [Store.get]
      · rename_i h
        simp [Store.get, h, ih]

theorem Store.get_put_other {α : Type} (m : Store α) (i j : Nat) (a : α) (h : j ≠ i) : (m.put i a).get j = m.get j := by
  induction m with
  | nil => simp [Store.put, Store.get, h]
  | cons e rest ih =>
    obtain ⟨k, b⟩ := e
    simp only [Store.put]
    split
    · simp [Store.get, h]
    · split
      · rename_i hk
        simp [Store.get, h, ← hk]
      · simp [Store.get, ih]

/-- Every entry after a write is the written one or an earlier one. -/
theorem Store.mem_put {α : Type} (m : Store α) (i : Nat) (a : α) (e : Nat × α) (h : e ∈ m.put i a) :
    e = (i, a) ∨ e ∈ m := by
  induction m with
  | nil => simpa [Store.put] using h
  | cons x rest ih =>
    obtain ⟨j, b⟩ := x
    simp only [Store.put] at h
    split at h
    · simpa using h
    · split at h
      · simp only [List.mem_cons] at h ⊢
        tauto
      · simp only [List.mem_cons] at h ⊢
        rcases h with h | h
        · exact .inr (.inl h)
        · rcases ih h with h | h
          · exact .inl h
          · exact .inr (.inr h)

/-- A write keeps the canonical form. -/
theorem Store.put_wf {α : Type} (m : Store α) (i : Nat) (a : α) (h : m.wf) : (m.put i a).wf := by
  induction m with
  | nil => simp [Store.put, Store.wf]
  | cons x rest ih =>
    obtain ⟨j, b⟩ := x
    have hx := List.pairwise_cons.mp h
    simp only [Store.put]
    split
    · rename_i hij
      refine List.pairwise_cons.mpr ⟨?_, h⟩
      intro e he
      rcases List.mem_cons.mp he with rfl | he
      · exact hij
      · exact Nat.lt_trans hij (hx.1 e he)
    · split
      · rename_i hij
        subst hij
        exact List.pairwise_cons.mpr ⟨hx.1, hx.2⟩
      · rename_i h1 h2
        refine List.pairwise_cons.mpr ⟨?_, ih hx.2⟩
        intro e he
        rcases Store.mem_put rest i a e he with rfl | he
        · show j < i
          omega
        · exact hx.1 e he

/-- The content read from a slot is an entry of the store. -/
theorem Store.mem_of_get {α : Type} (m : Store α) (i : Nat) (a : α) (h : m.get i = some a) : (i, a) ∈ m := by
  induction m with
  | nil => simp [Store.get] at h
  | cons x rest ih =>
    obtain ⟨j, b⟩ := x
    simp only [Store.get] at h
    split at h
    · rename_i hij
      subst hij
      simp_all
    · exact List.mem_cons_of_mem _ (ih h)

end Sys2Proof.Machine
end

