-- ==== Sys2Proof/Laws/Ops.lean ====
section
/-! SUPPORT. The shared operations of Machine/Ops.lean, each said once. -/

namespace Sys2Proof.Machine

/-! ## Sequencing -/

@[simp] theorem Res.bind_ok {α β : Type} (a : α) (s : State) (k : α → State → Res β) : (Res.ok a s).bind k = k a s := rfl

@[simp] theorem Res.bind_raise {α β : Type} (c : Cause) (w : Word) (s : State) (k : α → State → Res β) :
    (Res.raise c w s : Res α).bind k = .raise c w s := rfl

@[simp] theorem Res.bind_stuck {α β : Type} (f : Fault) (k : α → State → Res β) :
    (Res.stuck f : Res α).bind k = .stuck f := rfl

theorem Res.bind_assoc {α β γ : Type} (r : Res α) (f : α → State → Res β) (g : β → State → Res γ) :
    (r.bind f).bind g = r.bind fun a s => (f a s).bind g := by
  cases r <;> rfl

theorem check_pos {p : Prop} [Decidable p] (h : p) (c : Cause) (w : Word) (s : State) : check p c w s = .ok () s := by
  simp [check, h]

theorem check_neg {p : Prop} [Decidable p] (h : ¬p) (c : Cause) (w : Word) (s : State) : check p c w s = .raise c w s := by
  simp [check, h]

theorem lookup_of_getElem? {α : Type} {l : List α} {i : Nat} {a : α} (h : l[i]? = some a) (s : State) :
    lookup l i s = .ok a s := by
  simp [lookup, h]

/-! ## Endings -/

theorem respond_none (w : Word) (s : State) : respond .none w s = success w s := rfl

@[simp] theorem Res.finish_ok (w : Word) (s : State) : (Res.ok w s).finish = .next (success w s) := rfl

@[simp] theorem Res.finish_raise (c : Cause) (w : Word) (s : State) :
    (Res.raise c w s : Res Word).finish = .next (takeFault c w s) := rfl

@[simp] theorem Res.finish_stuck (f : Fault) : (Res.stuck f : Res Word).finish = .fault f := rfl

/-- Outside FAULT mode a fault is entered (R250). -/
theorem takeFault_enter (c : Cause) (w : Word) (s : State) (h : s.mode ≠ .fault) : takeFault c w s = faulted c w s := by
  simp [takeFault, h, faulted, respond, State.setMode, State.setFault, State.setRsp]

/-- In FAULT mode only the response is given (R256). -/
theorem takeFault_stay (c : Cause) (w : Word) (s : State) (h : s.mode = .fault) :
    takeFault c w s = { s with rsp := s.rsp ++ [⟨c.code, 0#32⟩] } := by
  simp [takeFault, h, respond, State.setRsp]

/-! ## Slots and units -/

theorem useBm_ok (i : BitVec 16) (s : State) (m : BitModel) (hi : i.toNat < s.capNbm.toNat) (hm : s.bm.get i.toNat = some m) :
    useBm i s = .ok m s := by
  simp [useBm, check_pos hi, hm]

theorem useSm_ok (i : BitVec 16) (s : State) (m : SymModel) (hi : i.toNat < s.capNsm.toNat) (hm : s.sm.get i.toNat = some m) :
    useSm i s = .ok m s := by
  simp [useSm, check_pos hi, hm]

theorem useIc_ok (u : BitVec 8) (s : State) (m : IcUnit) (hi : u.toNat < s.capNic.toNat) (hm : s.ic.get u.toNat = some m) :
    useIc u s = .ok m s := by
  simp [useIc, check_pos hi, hm]

theorem useIcInited_ok (u : BitVec 8) (s : State) (m : IcUnit) (a : IcAdaptive) (hi : u.toNat < s.capNic.toNat)
    (hm : s.ic.get u.toNat = some m) (ha : m.adaptive = some a) : useIcInited u s = .ok (m, a) s := by
  simp [useIcInited, useIc_ok u s m hi hm, ha]

/-- What `useBm` can do: the slot's model, or one of its two faults, with the state unchanged. -/
theorem useBm_cases (i : BitVec 16) (s : State) :
    (∃ m, useBm i s = .ok m s ∧ i.toNat < s.capNbm.toNat ∧ s.bm.get i.toNat = some m) ∨
    useBm i s = .raise .indexRange (indexWord i) s ∨ useBm i s = .raise .modelUninit (indexWord i) s := by
  by_cases hi : i.toNat < s.capNbm.toNat
  · cases hm : s.bm.get i.toNat with
    | some m => exact .inl ⟨m, useBm_ok i s m hi hm, hi, rfl⟩
    | none => exact .inr (.inr (by simp [useBm, check_pos hi, hm]))
  · exact .inr (.inl (by simp [useBm, check_neg hi]))

theorem useSm_cases (i : BitVec 16) (s : State) :
    (∃ m, useSm i s = .ok m s ∧ i.toNat < s.capNsm.toNat ∧ s.sm.get i.toNat = some m) ∨
    useSm i s = .raise .indexRange (indexWord i) s ∨ useSm i s = .raise .modelUninit (indexWord i) s := by
  by_cases hi : i.toNat < s.capNsm.toNat
  · cases hm : s.sm.get i.toNat with
    | some m => exact .inl ⟨m, useSm_ok i s m hi hm, hi, rfl⟩
    | none => exact .inr (.inr (by simp [useSm, check_pos hi, hm]))
  · exact .inr (.inl (by simp [useSm, check_neg hi]))

theorem useIc_cases (u : BitVec 8) (s : State) :
    (∃ m, useIc u s = .ok m s ∧ u.toNat < s.capNic.toNat ∧ s.ic.get u.toNat = some m) ∨
    useIc u s = .raise .indexRange (smallWord u) s ∨ useIc u s = .raise .modelUninit (smallWord u) s := by
  by_cases hi : u.toNat < s.capNic.toNat
  · cases hm : s.ic.get u.toNat with
    | some m => exact .inl ⟨m, useIc_ok u s m hi hm, hi, rfl⟩
    | none => exact .inr (.inr (by simp [useIc, check_pos hi, hm]))
  · exact .inr (.inl (by simp [useIc, check_neg hi]))

theorem useIcInited_cases (u : BitVec 8) (s : State) :
    (∃ m a, useIcInited u s = .ok (m, a) s ∧ u.toNat < s.capNic.toNat ∧ s.ic.get u.toNat = some m ∧ m.adaptive = some a) ∨
    useIcInited u s = .raise .indexRange (smallWord u) s ∨ useIcInited u s = .raise .modelUninit (smallWord u) s := by
  rcases useIc_cases u s with ⟨m, h, hi, hm⟩ | h | h
  · cases ha : m.adaptive with
    | some a => exact .inl ⟨m, a, by simp [useIcInited, h, ha], hi, hm, ha⟩
    | none => exact .inr (.inr (by simp [useIcInited, h, ha]))
  · exact .inr (.inl (by simp [useIcInited, h]))
  · exact .inr (.inr (by simp [useIcInited, h]))

end Sys2Proof.Machine
end

