-- ==== Sys2Proof/Laws/Coder.lean ====
section
/-! SUPPORT. The encoder's shared procedures, each said once in the terms of the reference view of the output stage
(40_encoder.md R132): the produced bytes and the low end of the interval as one number. -/

namespace Sys2Proof.Machine

/-! ## Big-endian numbers -/

theorem bigEndian_foldl (bs : List Byte) (n : Nat) :
    bs.foldl (fun n b => n * 256 + b.toNat) n = n * 256 ^ bs.length + bigEndian bs := by
  induction bs generalizing n with
  | nil => simp [bigEndian]
  | cons b bs ih =>
    have h0 := ih b.toNat
    have h1 := ih (n * 256 + b.toNat)
    simp only [bigEndian, List.foldl_cons, List.length_cons, Nat.zero_mul, Nat.zero_add] at h0 h1 ⊢
    rw [h1, h0]
    ring

theorem bigEndian_append (xs ys : List Byte) : bigEndian (xs ++ ys) = bigEndian xs * 256 ^ ys.length + bigEndian ys := by
  show (xs ++ ys).foldl (fun n b => n * 256 + b.toNat) 0 = _
  rw [List.foldl_append, bigEndian_foldl ys]
  rfl

@[simp] theorem bigEndian_nil : bigEndian [] = 0 := rfl

theorem bigEndian_cons (b : Byte) (bs : List Byte) : bigEndian (b :: bs) = b.toNat * 256 ^ bs.length + bigEndian bs := by
  have h := bigEndian_append [b] bs
  simpa [bigEndian] using h

theorem bigEndian_replicate_zero (n : Nat) : bigEndian (List.replicate n 0#8) = 0 := by
  induction n with
  | zero => rfl
  | succ n ih => simp [List.replicate_succ, bigEndian_cons, ih]

theorem bigEndian_replicate_ff (n : Nat) : bigEndian (List.replicate n 0xFF#8) + 1 = 256 ^ n := by
  induction n with
  | zero => rfl
  | succ n ih =>
    have h : (0xFF#8).toNat = 255 := rfl
    simp only [List.replicate_succ, bigEndian_cons, List.length_replicate, h, pow_succ]
    omega

/-! ## What an encoder procedure may touch -/

/-- `t` is `s` but for BASE, LENGTH, the output stage and BOUT, and BOUT only grew. -/
def EncFrame (s t : State) : Prop :=
  s.bout <+: t.bout ∧
  t = { s with base := t.base, length := t.length, cacheValid := t.cacheValid, cache := t.cache, ffrun := t.ffrun,
               bout := t.bout }

theorem EncFrame.refl (s : State) : EncFrame s s := ⟨List.prefix_refl _, rfl⟩

theorem EncFrame.trans {s t u : State} (h1 : EncFrame s t) (h2 : EncFrame t u) : EncFrame s u := by
  refine ⟨h1.1.trans h2.1, ?_⟩
  have e1 := h1.2
  have e2 := h2.2
  rw [e1] at e2
  exact e2

theorem EncFrame.setBase {s t : State} (h : EncFrame s t) (w : Word) : EncFrame s (t.setBase w) :=
  h.trans ⟨List.prefix_refl _, rfl⟩

theorem EncFrame.setLength {s t : State} (h : EncFrame s t) (w : Word) : EncFrame s (t.setLength w) :=
  h.trans ⟨List.prefix_refl _, rfl⟩

/-- FFRUN = 0 while nothing is pending (R26). -/
abbrev State.stageWf (s : State) : Prop := s.cacheValid = false → s.ffrun = 0#32

/-! ## The output stage -/

/-- FlushStage commits the pending bytes: the produced bytes are the same list, all on BOUT (R130). -/
theorem flushStage_spec (s : State) :
    (flushStage s).bout = s.produced ∧ (flushStage s).cacheValid = false ∧ (flushStage s).ffrun = 0#32 ∧
    (flushStage s).base = s.base ∧ (flushStage s).length = s.length ∧ EncFrame s (flushStage s) := by
  unfold flushStage
  cases h : s.cacheValid
  · simp [State.produced, State.pending, h, EncFrame, State.setStage]
  · refine ⟨?_, rfl, rfl, rfl, rfl, ?_, rfl⟩
    · simp [State.produced, State.pending, h, boutWrite, State.setStage, State.setBout, List.replicate_one]
    · simp [boutWrite, State.setStage, State.setBout]

/-- Emit appends its byte to the produced bytes (R128, R132), unless the run counter is full. -/
theorem emit_spec (b : Byte) (s : State) (hw : s.stageWf) :
    (∃ t, emit b s = .ok () t ∧ t.produced = s.produced ++ [b] ∧ t.base = s.base ∧ t.length = s.length ∧
      t.cacheValid = true ∧ (t.cache = 0xFF#8 → b = 0xFF#8 ∧ (s.cacheValid = false ∨ s.cache = 0xFF#8)) ∧
      t.ffrun.toNat ≤ s.ffrun.toNat + 1 ∧ EncFrame s t) ∨
    (emit b s = .raise .outputStage 0#32 s ∧ s.ffrun = 0xFFFFFFFF#32) := by
  unfold emit
  by_cases hc : s.cacheValid = true ∧ b = 0xFF#8
  · by_cases hf : s.ffrun = 0xFFFFFFFF#32
    · exact .inr ⟨by simp [hc, hf], hf⟩
    · left
      obtain ⟨hv, rfl⟩ := hc
      have hlt : s.ffrun.toNat < 2 ^ 32 - 1 := by
        have h1 := s.ffrun.isLt
        have h2 : s.ffrun.toNat ≠ (0xFFFFFFFF#32).toNat := fun h => hf (BitVec.eq_of_toNat_eq h)
        have h3 : (0xFFFFFFFF#32).toNat = 2 ^ 32 - 1 := rfl
        omega
      have hadd : (s.ffrun + 1#32).toNat = s.ffrun.toNat + 1 := by
        rw [BitVec.toNat_add]
        have : (1#32).toNat = 1 := rfl
        omega
      refine ⟨s.setStage true s.cache (s.ffrun + 1#32), by simp [hv, hf], ?_, rfl, rfl, rfl, ?_, ?_, ?_⟩
      · simp [State.produced, State.pending, hv, hadd, List.replicate_succ']
      · intro h
        exact ⟨rfl, .inr h⟩
      · simp [hadd]
      · exact ⟨List.prefix_refl _, rfl⟩
  · left
    obtain ⟨f1, f2, f3, f4, f5, f6⟩ := flushStage_spec s
    refine ⟨(flushStage s).setStage true b 0#32, by simp [hc], ?_, f4, f5, rfl, ?_, by simp, ?_⟩
    · simp [State.produced, State.pending, f1]
    · intro h
      have hb : b = 0xFF#8 := h
      cases hv : s.cacheValid
      · exact ⟨hb, .inl rfl⟩
      · exact absurd ⟨hv, hb⟩ hc
    · exact f6.trans ⟨List.prefix_refl _, rfl⟩

/-- Carry adds one to the produced bytes read as a number (R129, R132), when a pending byte can take it. -/
theorem carry_spec (s : State) (hv : s.cacheValid = true) (hc : s.cache ≠ 0xFF#8) :
    ∃ t, carry s = .ok () t ∧ bigEndian t.produced = bigEndian s.produced + 1 ∧
      t.produced.length = s.produced.length ∧ t.base = s.base ∧ t.length = s.length ∧ t.cacheValid = true ∧
      t.ffrun.toNat ≤ s.ffrun.toNat ∧ EncFrame s t := by
  have hlt : s.cache.toNat < 255 := by
    have h1 := s.cache.isLt
    have h2 : s.cache.toNat ≠ (0xFF#8).toNat := fun h => hc (BitVec.eq_of_toNat_eq h)
    have h3 : (0xFF#8).toNat = 255 := rfl
    omega
  have hadd : (s.cache + 1#8).toNat = s.cache.toNat + 1 := by
    rw [BitVec.toNat_add]
    have : (1#8).toNat = 1 := rfl
    omega
  unfold carry
  by_cases hf : s.ffrun = 0#32
  · refine ⟨s.setStage true (s.cache + 1#8) 0#32, by simp [hv, hc, hf], ?_, ?_, rfl, rfl, rfl, by simp, List.prefix_refl _, rfl⟩
    · simp [State.produced, State.pending, hv, hf, bigEndian_append, bigEndian_cons, hadd]
      omega
    · simp [State.produced, State.pending, hv, hf]
  · have hpos : ∃ n, s.ffrun.toNat = n + 1 := by
      have : s.ffrun.toNat ≠ 0 := fun h => hf (BitVec.eq_of_toNat_eq h)
      exact ⟨s.ffrun.toNat - 1, by omega⟩
    obtain ⟨n, hn⟩ := hpos
    refine ⟨(boutWrite (s.ffrun.toNat - 1) 0x00#8 (boutWrite 1 (s.cache + 1#8) s)).setStage true 0x00#8 0#32,
      by simp [hv, hc, hf], ?_, ?_, rfl, rfl, rfl, by simp [hn], ?_, rfl⟩
    · have h1 := bigEndian_replicate_ff (n + 1)
      have h2 := bigEndian_replicate_zero (n + 1)
      have hz : List.replicate n 0x00#8 ++ [0x00#8] = List.replicate (n + 1) 0x00#8 := List.replicate_succ'.symm
      have hp : State.produced ((boutWrite (s.ffrun.toNat - 1) 0x00#8 (boutWrite 1 (s.cache + 1#8) s)).setStage true 0x00#8
          0#32) = s.bout ++ (s.cache + 1#8) :: List.replicate (n + 1) 0x00#8 := by
        rw [← hz]
        simp [State.produced, State.pending, boutWrite, State.setStage, State.setBout, hn]
      have hq : s.produced = s.bout ++ s.cache :: List.replicate (n + 1) 0xFF#8 := by
        simp [State.produced, State.pending, hv, hn]
      rw [hp, hq]
      simp only [bigEndian_append, bigEndian_cons, List.length_cons, List.length_replicate, hadd, h2]
      have h3 : (s.cache.toNat + 1) * 256 ^ (n + 1) = s.cache.toNat * 256 ^ (n + 1) + 256 ^ (n + 1) := by ring
      omega
    · simp [State.produced, State.pending, hv, boutWrite, State.setStage, State.setBout, hn]
    · simp [boutWrite, State.setStage, State.setBout]

/-! ## The interval -/

/-- Room for the carries of an interval of width `l` at BASE: no byte can take a carry exactly when none can come (R133). -/
abbrev State.roomFor (s : State) (l : Nat) : Prop :=
  s.cacheValid = false ∨ s.cache = 0xFF#8 → s.base.toNat + l ≤ 2 ^ 32

/-- AddBase adds to the low end of the interval, and the width `l` that is left has its room (R126). -/
theorem addBase_spec (x l : Nat) (s : State) (hw : s.stageWf) (hr : s.roomFor (x + l)) (hl : 1 ≤ l)
    (hx : x + l ≤ 2 ^ 32) :
    ∃ t, addBase x s = .ok () t ∧ t.lowEnd = s.lowEnd + x ∧ t.base.toNat = (s.base.toNat + x) % 2 ^ 32 ∧
      t.length = s.length ∧ t.produced.length = s.produced.length ∧ t.ffrun.toNat ≤ s.ffrun.toNat ∧ t.stageWf ∧
      t.roomFor l ∧ EncFrame s t := by
  have hb := s.base.isLt
  have hu : (u32 (s.base.toNat + x)).toNat = (s.base.toNat + x) % 2 ^ 32 := by simp [u32]
  unfold addBase
  by_cases hc : 2 ^ 32 ≤ s.base.toNat + x
  · have hnot : ¬(s.cacheValid = false ∨ s.cache = 0xFF#8) := fun h => by
      have := hr h
      omega
    have hv : s.cacheValid = true := by
      cases h : s.cacheValid
      · exact absurd (.inl h) hnot
      · rfl
    have hcf : s.cache ≠ 0xFF#8 := fun h => hnot (.inr h)
    obtain ⟨t, e, t1, t2, t3, t4, t5, t6, t7⟩ := carry_spec (s.setBase (u32 (s.base.toNat + x))) hv hcf
    refine ⟨t, by simp only [hc, if_true]; exact e, ?_, by rw [t3]; exact hu, t4, t2, t6, ?_, ?_,
      ((EncFrame.refl s).setBase _).trans t7⟩
    · have t1' : bigEndian t.produced = bigEndian s.produced + 1 := t1
      have t3' : t.base.toNat = (s.base.toNat + x) % 2 ^ 32 := by rw [t3]; exact hu
      unfold State.lowEnd
      rw [t1', t3']
      omega
    · intro h
      rw [t5] at h
      cases h
    · intro _
      have t3' : t.base.toNat = (s.base.toNat + x) % 2 ^ 32 := by rw [t3]; exact hu
      omega
  · refine ⟨s.setBase (u32 (s.base.toNat + x)), by simp only [hc, if_false], ?_, hu, rfl, rfl, Nat.le_refl _, hw, ?_,
      (EncFrame.refl s).setBase _⟩
    · show bigEndian s.produced * 2 ^ 32 + (u32 (s.base.toNat + x)).toNat = _
      rw [hu]
      unfold State.lowEnd
      omega
    · intro h
      have := hr h
      show (u32 (s.base.toNat + x)).toNat + l ≤ 2 ^ 32
      rw [hu]
      omega

/-! ## Renormalisation -/

/-- One more byte brings the width one byte closer to 2^24. -/
theorem renormCount_step (l : Nat) (h1 : 1 ≤ l) (h2 : l < 2 ^ 24) : renormCount l = renormCount (l * 256) + 1 := by
  unfold renormCount
  split_ifs <;> omega

theorem renormCount_le (l : Nat) : renormCount l ≤ 3 := by
  unfold renormCount
  split_ifs <;> omega

theorem renormCount_zero (l : Nat) : renormCount l = 0 ↔ 2 ^ 24 ≤ l := by
  unfold renormCount
  split_ifs with h
  · exact ⟨fun _ => h, fun _ => rfl⟩
  all_goals
    constructor
    · intro h0
      cases h0
    · intro h0
      exact absurd h0 h

/-- The width after a renormalisation is between 2^24 and 2^32. -/
theorem renormCount_spec (l : Nat) (h1 : 1 ≤ l) (h2 : l < 2 ^ 32) :
    2 ^ 24 ≤ l * 256 ^ renormCount l ∧ l * 256 ^ renormCount l < 2 ^ 32 := by
  unfold renormCount
  split_ifs <;> norm_num <;> omega

/-- The good end of an encoder procedure. -/
def EncDone (x l k : Nat) (s t : State) : Prop :=
  Encoded x l k s t ∧ t.stageWf ∧ t.roomFor (l * 256 ^ k) ∧ t.ffrun.toNat ≤ s.ffrun.toNat + k

/-- The bad end of an encoder procedure that emits at most `n` bytes: the run counter is full. -/
def EncFull (n : Nat) (s t : State) : Prop :=
  EncFrame s t ∧ t.stageWf ∧ 2 ^ 32 ≤ s.ffrun.toNat + n

/-- What an encoder procedure can do: end well, or find the run counter full. -/
def EncRes (x l k n : Nat) (s : State) (r : Res Unit) : Prop :=
  (∃ t, r = .ok () t ∧ EncDone x l k s t) ∨ (∃ t, r = .raise .outputStage 0#32 t ∧ EncFull n s t)

theorem Encoded.frame {x l k : Nat} {s t : State} (h : Encoded x l k s t) : EncFrame s t := h.2.2.2.2

theorem pow256_mod (a k : Nat) : (a % 2 ^ 32 * 256 ^ k) % 2 ^ 32 = (a * 256 ^ k) % 2 ^ 32 := by
  rw [Nat.mod_mul_mod]

/-- Narrowing, then renormalising. -/
theorem EncDone.trans {x l j k : Nat} {s t u : State} (h1 : EncDone x l j s t) (h2 : EncDone 0 (l * 256 ^ j) k t u) :
    EncDone x l (j + k) s u := by
  obtain ⟨⟨a1, a2, a3, a4, a5⟩, _, _, a6⟩ := h1
  obtain ⟨⟨b1, b2, b3, b4, b5⟩, b6, b7, b8⟩ := h2
  refine ⟨⟨?_, ?_, ?_, by omega, EncFrame.trans a5 b5⟩, b6, ?_, by omega⟩
  · rw [b1, a1, Nat.add_zero, pow_add, Nat.mul_assoc]
  · rw [b2, a2, Nat.add_zero, pow256_mod, pow_add, Nat.mul_assoc]
  · rw [b3, pow_add, Nat.mul_assoc]
  · rw [pow_add, ← Nat.mul_assoc]
    exact b7

theorem shiftLeft8_toNat (w : Word) : (w <<< 8).toNat = w.toNat * 256 % 2 ^ 32 := by
  rw [BitVec.toNat_shiftLeft, Nat.shiftLeft_eq]

theorem topByte_toNat (w : Word) : (w.extractLsb' 24 8).toNat = w.toNat / 2 ^ 24 := by
  have h := w.isLt
  simp only [BitVec.extractLsb'_toNat, Nat.shiftRight_eq_div_pow]
  omega

/-- One iteration of EncRenorm (R127). -/
theorem encRenorm_iter (s : State) (hw : s.stageWf) (hr : s.roomFor s.length.toNat) (hl : s.length.toNat < 2 ^ 24) :
    (∃ t, emit (s.base.extractLsb' 24 8) s = .ok () t ∧
      EncDone 0 s.length.toNat 1 s ((t.setBase (t.base <<< 8)).setLength (t.length <<< 8))) ∨
    (∃ t, emit (s.base.extractLsb' 24 8) s = .raise .outputStage 0#32 t ∧ EncFull 1 s t) := by
  rcases emit_spec (s.base.extractLsb' 24 8) s hw with ⟨t, e, t1, t2, t3, t4, t5, t6, t7⟩ | ⟨e, hf⟩
  · left
    have hb := s.base.isLt
    have htop := topByte_toNat s.base
    have hbase : (t.base <<< 8).toNat = s.base.toNat * 256 % 2 ^ 32 := by rw [t2, shiftLeft8_toNat]
    have hlen : (t.length <<< 8).toNat = s.length.toNat * 256 := by
      rw [t3, shiftLeft8_toNat]
      omega
    refine ⟨t, e, ⟨?_, ?_, ?_, ?_, (t7.setBase _).setLength _⟩, ?_, ?_, t6⟩
    · show bigEndian t.produced * 2 ^ 32 + (t.base <<< 8).toNat = _
      rw [t1, hbase, bigEndian_append, bigEndian_cons, htop]
      simp only [State.lowEnd, List.length_cons, List.length_nil, bigEndian_nil]
      omega
    · show (t.base <<< 8).toNat = _
      rw [hbase]
      omega
    · show (t.length <<< 8).toNat = _
      rw [hlen]
      omega
    · show t.produced.length = _
      rw [t1]
      simp
    · intro h
      have h' : t.cacheValid = false := h
      rw [t4] at h'
      cases h'
    · intro h
      have h' : t.cache = 0xFF#8 := by
        rcases h with h | h
        · have h' : t.cacheValid = false := h
          rw [t4] at h'
          cases h'
        · exact h
      have h1 := t5 h'
      have h2 := hr h1.2
      have h3 : (s.base.extractLsb' 24 8).toNat = 255 := by rw [h1.1]; rfl
      show (t.base <<< 8).toNat + _ ≤ _
      rw [hbase]
      omega
  · right
    refine ⟨s, e, EncFrame.refl s, hw, ?_⟩
    rw [hf]
    decide

/-- The renormalisation loop with enough iterations: `renormCount` bytes, or a full run counter (R127). -/
theorem encRenormLoop_spec (fuel : Nat) (s : State) (hw : s.stageWf) (hr : s.roomFor s.length.toNat)
    (h1 : 1 ≤ s.length.toNat) (h2 : s.length.toNat < 2 ^ 24) (hf : renormCount s.length.toNat ≤ fuel) :
    EncRes 0 s.length.toNat (renormCount s.length.toNat) (renormCount s.length.toNat) s (encRenormLoop fuel s) := by
  induction fuel generalizing s with
  | zero =>
    have := (renormCount_zero s.length.toNat).mp (by omega)
    omega
  | succ fuel ih =>
    have hstep := renormCount_step _ h1 h2
    unfold encRenormLoop
    rcases encRenorm_iter s hw hr h2 with ⟨t, e, d⟩ | ⟨t, e, d⟩
    · rw [e]
      simp only [Res.bind_ok]
      have hlen : (t.length <<< 8).toNat = s.length.toNat * 256 := by
        have := d.1.2.2.1
        simpa using this
      by_cases hge : 2 ^ 24 ≤ s.length.toNat * 256
      · left
        refine ⟨(t.setBase (t.base <<< 8)).setLength (t.length <<< 8), ?_, ?_⟩
        · rw [if_pos]
          simp only [State.setLength_length, hlen]
          exact hge
        · have hz := (renormCount_zero _).mpr hge
          rw [hstep, hz]
          exact d
      · rw [if_neg (by simp only [State.setLength_length, hlen]; exact hge)]
        have hih := ih ((t.setBase (t.base <<< 8)).setLength (t.length <<< 8)) d.2.1
          (by simp only [State.setLength_length, hlen]; simpa using d.2.2.1)
          (by simp only [State.setLength_length, hlen]; omega)
          (by simp only [State.setLength_length, hlen]; omega)
          (by simp only [State.setLength_length, hlen]; omega)
        simp only [State.setLength_length, hlen] at hih
        rcases hih with ⟨u, eu, du⟩ | ⟨u, eu, du⟩
        · refine .inl ⟨u, eu, ?_⟩
          rw [hstep, Nat.add_comm]
          exact d.trans (by simpa using du)
        · refine .inr ⟨u, eu, d.1.frame.trans du.1, du.2.1, ?_⟩
          have h3 := du.2.2
          have h4 := d.2.2.2
          rw [hstep]
          omega
    · right
      rw [e]
      refine ⟨t, rfl, d.1, d.2.1, ?_⟩
      have := d.2.2
      omega

theorem encRenorm_spec (s : State) (hw : s.stageWf) (hr : s.roomFor s.length.toNat)
    (h1 : 1 ≤ s.length.toNat) (h2 : s.length.toNat < 2 ^ 24) :
    EncRes 0 s.length.toNat (renormCount s.length.toNat) (renormCount s.length.toNat) s (encRenorm s) :=
  encRenormLoop_spec 3 s hw hr h1 h2 (renormCount_le _)

theorem Encoded.refl (s : State) : Encoded 0 s.length.toNat 0 s s := by
  have := s.base.isLt
  refine ⟨by simp, ?_, by simp, rfl, EncFrame.refl s⟩
  simp only [Nat.pow_zero, Nat.mul_one, Nat.add_zero]
  omega

theorem EncDone.refl (s : State) (hw : s.stageWf) (hr : s.roomFor s.length.toNat) : EncDone 0 s.length.toNat 0 s s :=
  ⟨Encoded.refl s, hw, by simpa using hr, by omega⟩

theorem encNormalize_spec (s : State) (hw : s.stageWf) (hr : s.roomFor s.length.toNat) (h1 : 1 ≤ s.length.toNat) :
    EncRes 0 s.length.toNat (renormCount s.length.toNat) (renormCount s.length.toNat) s (encNormalize s) := by
  unfold encNormalize
  by_cases h : s.length.toNat < 2 ^ 24
  · rw [if_pos (by simpa [AC_MIN_LENGTH] using h)]
    exact encRenorm_spec s hw hr h1 h
  · rw [if_neg (by simpa [AC_MIN_LENGTH] using h), (renormCount_zero _).mpr (by omega)]
    exact .inl ⟨s, rfl, EncDone.refl s hw hr⟩

/-- Renormalising after the interval was narrowed to width `l` at offset `x`: the shape of every encoding step. -/
theorem encNormalize_narrowed {x l : Nat} {s u : State} (d : EncDone x l 0 s u) (hl : 1 ≤ l) :
    EncRes x l (renormCount l) (renormCount l) s (encNormalize u) := by
  have hu : u.length.toNat = l := by simpa using d.1.2.2.1
  have h := encNormalize_spec u d.2.1 (by rw [hu]; simpa using d.2.2.1) (by rw [hu]; exact hl)
  rw [hu] at h
  rcases h with ⟨v, ev, dv⟩ | ⟨v, ev, dv⟩
  · refine .inl ⟨v, ev, ?_⟩
    have := d.trans (by simpa using dv)
    simpa using this
  · refine .inr ⟨v, ev, d.1.frame.trans dv.1, dv.2.1, ?_⟩
    have h3 := dv.2.2
    have h4 := d.2.2.2
    omega

/-- AddBase(x) then LENGTH <- l. -/
theorem addBase_narrow (x l : Nat) (s : State) (hw : s.stageWf) (hr : s.roomFor (x + l)) (hl : 1 ≤ l)
    (hx : x + l < 2 ^ 32) :
    ∃ t, addBase x s = .ok () t ∧ t.length = s.length ∧ EncDone x l 0 s (t.setLength (u32 l)) := by
  obtain ⟨t, e, t1, t2, t3, t4, t5, t6, t7, t8⟩ := addBase_spec x l s hw hr hl (by omega)
  have hu : ((t.setLength (u32 l)).length).toNat = l := by simp [u32]; omega
  refine ⟨t, e, t3, ⟨?_, ?_, ?_, t4, t8.setLength _⟩, t6, ?_, t5⟩
  · rw [Nat.pow_zero, Nat.mul_one]
    exact t1
  · rw [Nat.pow_zero, Nat.mul_one]
    exact t2
  · rw [Nat.pow_zero, Nat.mul_one]
    exact hu
  · rw [Nat.pow_zero, Nat.mul_one]
    exact t7

theorem EncDone.of_setLength {x l k : Nat} {s t : State} {w : Word} (h : EncDone x l k (s.setLength w) t) :
    EncDone x l k s t :=
  ⟨⟨h.1.1, h.1.2.1, h.1.2.2.1, h.1.2.2.2.1, ((EncFrame.refl s).setLength w).trans h.1.frame⟩, h.2⟩

theorem EncRes.of_setLength {x l k n : Nat} {s : State} {w : Word} {r : Res Unit} (h : EncRes x l k n (s.setLength w) r) :
    EncRes x l k n s r := by
  rcases h with ⟨t, e, d⟩ | ⟨t, e, d⟩
  · exact .inl ⟨t, e, d.of_setLength⟩
  · exact .inr ⟨t, e, ((EncFrame.refl s).setLength w).trans d.1, d.2.1, d.2.2⟩

/-- A digit of the flat distribution narrows to `[d * (LENGTH >> n), (d + 1) * (LENGTH >> n))` (R131). -/
theorem encDirectStep_spec (n d : Nat) (s : State) (hw : s.stageWf) (hr : s.carryRoom) (hd : d < 2 ^ n)
    (hl : 1 ≤ s.length.toNat >>> n) :
    EncRes (d * (s.length.toNat >>> n)) (s.length.toNat >>> n) (renormCount (s.length.toNat >>> n))
      (renormCount (s.length.toNat >>> n)) s (encDirectStep n d s) := by
  have hL := s.length.isLt
  have hle : d * (s.length.toNat >>> n) + s.length.toNat >>> n ≤ s.length.toNat := by
    have h1 : (d + 1) * (s.length.toNat >>> n) ≤ 2 ^ n * (s.length.toNat >>> n) := Nat.mul_le_mul_right _ hd
    have h2 : 2 ^ n * (s.length.toNat >>> n) ≤ s.length.toNat := by
      rw [Nat.shiftRight_eq_div_pow]
      exact Nat.mul_div_le _ _
    rw [Nat.add_mul, Nat.one_mul] at h1
    omega
  unfold encDirectStep
  have hs : (s.length >>> n).toNat = s.length.toNat >>> n := BitVec.toNat_ushiftRight _ _
  have hu : u32 (s.length.toNat >>> n) = s.length >>> n := by
    apply BitVec.eq_of_toNat_eq
    rw [← hs]
    simp [u32, hs]
    omega
  obtain ⟨t, e, t1, t2⟩ := addBase_narrow (d * (s.length.toNat >>> n)) (s.length.toNat >>> n)
    (s.setLength (s.length >>> n)) hw
    (fun h => by
      have := hr h
      show s.base.toNat + _ ≤ _
      omega) hl (by omega)
  have ht : t.setLength (u32 (s.length.toNat >>> n)) = t := by
    rw [hu, ← State.setLength_length s (s.length >>> n), ← t1]
    rfl
  rw [ht] at t2
  simp only [State.setLength_length, hs, e, Res.bind_ok]
  exact encNormalize_narrowed t2.of_setLength hl

/-! ## The encoder's narrowing steps and the flush -/

theorem EncDone.room {x l : Nat} {s t : State} (h : EncDone x l (renormCount l) s t) (h1 : 1 ≤ l) (h2 : l < 2 ^ 32) :
    2 ^ 24 ≤ t.length.toNat ∧ t.carryRoom := by
  have h3 := h.1.2.2.1
  have h4 := h.2.2.1
  have h5 := renormCount_spec l h1 h2
  rw [← h3] at h4 h5
  exact ⟨h5.1, h4⟩

/-- Emit(0x00), `n` times (R125). -/
theorem emitZeros_spec (n : Nat) (s : State) (hw : s.stageWf) :
    ∃ t, emitZeros n s = .ok () t ∧ t.produced = s.produced ++ List.replicate n 0x00#8 ∧ t.stageWf ∧
      t.ffrun.toNat ≤ s.ffrun.toNat ∧ EncFrame s t := by
  induction n generalizing s with
  | zero => exact ⟨s, rfl, by simp, hw, Nat.le_refl _, EncFrame.refl s⟩
  | succ n ih =>
    obtain ⟨f1, f2, f3, f4, f5, f6⟩ := flushStage_spec s
    have e : emit 0x00#8 s = .ok () ((flushStage s).setStage true 0x00#8 0#32) := by simp [emit]
    obtain ⟨t, et, t1, t2, t3, t4⟩ := ih ((flushStage s).setStage true 0x00#8 0#32) (fun h => by cases h)
    refine ⟨t, by rw [emitZeros, e]; exact et, ?_, t2, ?_, ?_⟩
    · rw [t1, List.replicate_succ]
      simp [State.produced, State.pending, f1]
    · have h0 : ((flushStage s).setStage true 0x00#8 0#32).ffrun.toNat = 0 := rfl
      omega
    · exact (f6.trans ⟨List.prefix_refl _, rfl⟩).trans t4

/-- One flat digit, or two (R124). -/
theorem encDirect_spec (n v : Nat) (s : State) (hw : s.stageWf) (hr : s.carryRoom) (hl : 2 ^ 24 ≤ s.length.toNat)
    (hn : n ≤ 32) (hv : v < 2 ^ n) :
    (∃ t, encDirect n v s = .ok () t ∧ t.stageWf ∧ t.carryRoom ∧ 2 ^ 24 ≤ t.length.toNat ∧ EncFrame s t ∧
      t.ffrun.toNat ≤ s.ffrun.toNat + 6 ∧
      (n ≤ 19 → EncDone (v * (s.length.toNat >>> n)) (s.length.toNat >>> n) (renormCount (s.length.toNat >>> n)) s t) ∧
      (19 < n → ∃ u, EncDone (v % 2 ^ 16 * (s.length.toNat >>> 16)) (s.length.toNat >>> 16)
          (renormCount (s.length.toNat >>> 16)) s u ∧
        EncDone (v >>> 16 * (u.length.toNat >>> (n - 16))) (u.length.toNat >>> (n - 16))
          (renormCount (u.length.toNat >>> (n - 16))) u t)) ∨
    (∃ t, encDirect n v s = .raise .outputStage 0#32 t ∧ EncFull 6 s t) := by
  have hone : ∀ (m d : Nat) (s : State), s.stageWf → s.carryRoom → 2 ^ 24 ≤ s.length.toNat → m ≤ 19 → d < 2 ^ m →
      (1 ≤ s.length.toNat >>> m ∧ s.length.toNat >>> m < 2 ^ 32) ∧
      EncRes (d * (s.length.toNat >>> m)) (s.length.toNat >>> m) (renormCount (s.length.toNat >>> m))
        (renormCount (s.length.toNat >>> m)) s (encDirectStep m d s) := by
    intro m d s hw hr hl hm hd
    have hL := s.length.isLt
    have h1 : 1 ≤ s.length.toNat >>> m := by
      rw [Nat.shiftRight_eq_div_pow]
      have : 2 ^ m ≤ 2 ^ 24 := Nat.pow_le_pow_right (by omega) (by omega)
      exact (Nat.one_le_div_iff (by positivity)).mpr (by omega)
    have h2 : s.length.toNat >>> m ≤ s.length.toNat := by
      rw [Nat.shiftRight_eq_div_pow]
      exact Nat.div_le_self _ _
    exact ⟨⟨h1, by omega⟩, encDirectStep_spec m d s hw hr hd h1⟩
  unfold encDirect
  by_cases hsplit : DIRECT_SPLIT < n
  · rw [if_pos hsplit]
    have hs : 19 < n := hsplit
    have hd1 : v % 2 ^ 16 < 2 ^ 16 := Nat.mod_lt _ (by norm_num)
    have hd2 : v >>> 16 < 2 ^ (n - 16) := by
      rw [Nat.shiftRight_eq_div_pow, Nat.div_lt_iff_lt_mul (by norm_num), ← Nat.pow_add]
      rwa [Nat.sub_add_cancel (by omega)]
    obtain ⟨⟨b1, b2⟩, r1⟩ := hone 16 (v % 2 ^ 16) s hw hr hl (by omega) hd1
    rcases r1 with ⟨u, e1, d1⟩ | ⟨u, e1, d1⟩
    · have hu := d1.room b1 b2
      obtain ⟨⟨c1, c2⟩, r2⟩ := hone (n - 16) (v >>> 16) u d1.2.1 hu.2 hu.1 (by omega) hd2
      have k1 := renormCount_le (s.length.toNat >>> 16)
      have k2 := renormCount_le (u.length.toNat >>> (n - 16))
      have f1 := d1.2.2.2
      rw [e1]
      rcases r2 with ⟨t, e2, d2⟩ | ⟨t, e2, d2⟩
      · have ht := d2.room c1 c2
        have f2 := d2.2.2.2
        exact .inl ⟨t, e2, d2.2.1, ht.2, ht.1, d1.1.frame.trans d2.1.frame, by omega, fun h => by omega,
          fun _ => ⟨u, d1, d2⟩⟩
      · have f2 := d2.2.2
        exact .inr ⟨t, e2, d1.1.frame.trans d2.1, d2.2.1, by omega⟩
    · have k1 := renormCount_le (s.length.toNat >>> 16)
      rw [e1]
      have f2 := d1.2.2
      exact .inr ⟨u, rfl, d1.1, d1.2.1, by omega⟩
  · rw [if_neg hsplit]
    have hs : n ≤ 19 := by
      have h : ¬19 < n := hsplit
      omega
    obtain ⟨⟨b1, b2⟩, r1⟩ := hone n v s hw hr hl hs hv
    have k1 := renormCount_le (s.length.toNat >>> n)
    rcases r1 with ⟨t, e1, d1⟩ | ⟨t, e1, d1⟩
    · have ht := d1.room b1 b2
      have f1 := d1.2.2.2
      exact .inl ⟨t, e1, d1.2.1, ht.2, ht.1, d1.1.frame, by omega, fun _ => d1, fun h => by omega⟩
    · have f2 := d1.2.2
      exact .inr ⟨t, e1, d1.1, d1.2.1, by omega⟩

/-! ## The decoder's interval -/

@[simp] theorem u32_toNat (w : Word) : u32 w.toNat = w := by simp [u32]


/-- What a decoder procedure may touch: VALUE, LENGTH and BIN, which only loses bytes at its front. -/
def DecFrame (s t : State) : Prop :=
  t.bin <:+ s.bin ∧ t = { s with value := t.value, length := t.length, bin := t.bin }

theorem DecFrame.refl (s : State) : DecFrame s s := ⟨List.suffix_refl _, rfl⟩

theorem DecFrame.trans {s t u : State} (h1 : DecFrame s t) (h2 : DecFrame t u) : DecFrame s u := by
  refine ⟨h2.1.trans h1.1, ?_⟩
  have e1 := h1.2
  have e2 := h2.2
  rw [e1] at e2
  exact e2

theorem DecodedTo.frame {v l k : Nat} {s t : State} (h : DecodedTo v l k s t) : DecFrame s t :=
  ⟨h.2.2.1 ▸ List.drop_suffix _ _, h.2.2.2⟩

/-- The renormalisation of the decoder: `renormCount` bytes of BIN, or StreamExhausted where BIN is shorter (R156). -/
theorem decRenormLoop_spec (fuel : Nat) (s : State) (h1 : 1 ≤ s.length.toNat) (h2 : s.length.toNat < 2 ^ 24)
    (hf : renormCount s.length.toNat ≤ fuel) :
    (renormCount s.length.toNat ≤ s.bin.length ∧
      ∃ t, decRenormLoop fuel s = .ok () t ∧ DecodedTo s.value.toNat s.length.toNat (renormCount s.length.toNat) s t) ∨
    (s.bin.length < renormCount s.length.toNat ∧
      ∃ t, decRenormLoop fuel s = .raise .streamExhausted 0#32 t ∧ t.bin = [] ∧ DecFrame s t) := by
  induction fuel generalizing s with
  | zero =>
    have := (renormCount_zero s.length.toNat).mp (by omega)
    omega
  | succ fuel ih =>
    have hstep := renormCount_step _ h1 h2
    unfold decRenormLoop
    cases hbin : s.bin with
    | nil =>
      right
      refine ⟨by simp only [List.length_nil]; omega, s, ?_, hbin, DecFrame.refl s⟩
      simp [binRead, hbin]
    | cons b rest =>
      have e : binRead s = .ok b (s.setBin rest) := by simp [binRead, hbin]
      rw [e]
      simp only [Res.bind_ok]
      have hlen : (s.length <<< 8).toNat = s.length.toNat * 256 := by
        rw [shiftLeft8_toNat]
        omega
      have hfr : DecFrame s (((s.setBin rest).setValue ((s.setBin rest).value <<< 8 ||| b.setWidth 32)).setLength
          ((s.setBin rest).length <<< 8)) :=
        ⟨by rw [hbin]; exact ⟨[b], rfl⟩, rfl⟩
      generalize hu : ((s.setBin rest).setValue ((s.setBin rest).value <<< 8 ||| b.setWidth 32)).setLength
          ((s.setBin rest).length <<< 8) = u at hfr
      have ul : u.length.toNat = s.length.toNat * 256 := by rw [← hu]; exact hlen
      have uv : u.value = s.value <<< 8 ||| b.setWidth 32 := by rw [← hu]; rfl
      have ub : u.bin = rest := by rw [← hu]; rfl
      by_cases hge : 2 ^ 24 ≤ s.length.toNat * 256
      · left
        have hz := (renormCount_zero _).mpr hge
        rw [hstep, hz]
        refine ⟨by simp, u, by rw [if_pos (by rw [ul]; exact hge)], ?_, by rw [ul]; simp, by rw [ub, hbin]; simp, hfr.2⟩
        rw [uv, hbin]
        simp [shiftIn, u32]
      · rw [if_neg (by rw [ul]; exact hge)]
        rcases ih u (by omega) (by omega) (by rw [ul]; omega) with ⟨k, t, et, dt⟩ | ⟨k, t, et, dt⟩
        · left
          rw [ul] at dt k
          rw [ub] at k
          refine ⟨by rw [hstep, List.length_cons]; omega, t, et, ?_, ?_, ?_, (hfr.trans dt.frame).2⟩
          · have h := dt.1
            rw [ub, uv] at h
            rw [h, hstep, hbin, u32_toNat, u32_toNat]
            rfl
          · rw [dt.2.1, hstep, pow_succ, Nat.mul_assoc, Nat.mul_comm 256]
          · rw [dt.2.2.1, ub, hstep, hbin]
            rfl
        · right
          rw [ul, ub] at k
          exact ⟨by rw [hstep, List.length_cons]; omega, t, et, dt.1, hfr.trans dt.2⟩

/-- What a decoder procedure that makes VALUE `v` and the width `l` can do: read its bytes, or find too few. -/
def DecRes (v l : Nat) (s : State) (r : Res Unit) : Prop :=
  (renormCount l ≤ s.bin.length ∧ ∃ t, r = .ok () t ∧ DecodedTo v l (renormCount l) s t) ∨
  (s.bin.length < renormCount l ∧ ∃ t, r = .raise .streamExhausted 0#32 t ∧ t.bin = [] ∧ DecFrame s t)

theorem decNormalize_spec (s : State) (h1 : 1 ≤ s.length.toNat) :
    DecRes s.value.toNat s.length.toNat s (decNormalize s) := by
  unfold decNormalize
  by_cases h : s.length.toNat < 2 ^ 24
  · rw [if_pos (by simpa [AC_MIN_LENGTH] using h)]
    exact decRenormLoop_spec 3 s h1 h (renormCount_le _)
  · rw [if_neg (by simpa [AC_MIN_LENGTH] using h)]
    unfold DecRes
    rw [(renormCount_zero s.length.toNat).mpr (by omega)]
    exact .inl ⟨by omega, s, rfl, by simp [shiftIn, u32], by simp, by simp, rfl⟩

/-- Renormalising after VALUE and LENGTH were set: the shape of every decoding step. -/
theorem decNormalize_narrowed (v l : Nat) (s u : State) (h1 : 1 ≤ l) (h2 : l < 2 ^ 32) (h3 : v < 2 ^ 32)
    (hu : u = (s.setValue (u32 v)).setLength (u32 l)) : DecRes v l s (decNormalize u) := by
  have ul : u.length.toNat = l := by rw [hu]; simp [u32]; omega
  have uv : u.value.toNat = v := by rw [hu]; simp [u32]; omega
  have ub : u.bin = s.bin := by rw [hu]; rfl
  have hfr : DecFrame s u := by rw [hu]; exact ⟨List.suffix_refl _, rfl⟩
  have h := decNormalize_spec u (by omega)
  unfold DecRes at h ⊢
  rw [ul, ub, uv] at h
  rcases h with ⟨k, t, e, d⟩ | ⟨k, t, e, d⟩
  · refine .inl ⟨k, t, e, ?_, d.2.1, ?_, (hfr.trans d.frame).2⟩
    · rw [d.1, ub]
    · rw [d.2.2.1, ub]
  · exact .inr ⟨k, t, e, d.1, hfr.trans d.2⟩

theorem DecodedTo.room {v l : Nat} {s t : State} (h : DecodedTo v l (renormCount l) s t) (h1 : 1 ≤ l) (h2 : l < 2 ^ 32) :
    2 ^ 24 ≤ t.length.toNat := by
  rw [h.2.1]
  exact (renormCount_spec l h1 h2).1

/-- A flat digit read back (R157): the quotient, its renormalisation, then the range check. -/
theorem decDirectStep_spec (n : Nat) (s : State) (hl : 1 ≤ s.length.toNat >>> n) :
    (renormCount (s.length.toNat >>> n) ≤ s.bin.length ∧
      ∃ t, DecodedTo (s.value.toNat % (s.length.toNat >>> n)) (s.length.toNat >>> n)
          (renormCount (s.length.toNat >>> n)) s t ∧
        decDirectStep n s =
          if s.value.toNat / (s.length.toNat >>> n) < 2 ^ n then .ok (s.value.toNat / (s.length.toNat >>> n)) t
          else .raise .streamCorruption (u32 (s.value.toNat / (s.length.toNat >>> n))) t) ∨
    (s.bin.length < renormCount (s.length.toNat >>> n) ∧
      ∃ t, decDirectStep n s = .raise .streamExhausted 0#32 t ∧ t.bin = [] ∧ DecFrame s t) := by
  have hL := s.length.isLt
  have hV := s.value.isLt
  have hs : (s.length >>> n).toNat = s.length.toNat >>> n := BitVec.toNat_ushiftRight _ _
  have hlt : s.length.toNat >>> n < 2 ^ 32 := by
    rw [← hs]
    exact (s.length >>> n).isLt
  have hu : u32 (s.length.toNat >>> n) = s.length >>> n := by
    apply BitVec.eq_of_toNat_eq
    rw [← hs]
    simp [u32, hs]
    omega
  have hnz : ¬(s.length >>> n) = 0#32 := fun h => by
    rw [h] at hs
    have h0 : (0#32).toNat = 0 := rfl
    omega
  have hmod : s.value.toNat - s.value.toNat / (s.length.toNat >>> n) * (s.length.toNat >>> n) =
      s.value.toNat % (s.length.toNat >>> n) := by
    have h1 := Nat.div_add_mod s.value.toNat (s.length.toNat >>> n)
    rw [Nat.mul_comm] at h1
    omega
  unfold decDirectStep
  simp only [State.setLength_length, State.setLength_value, hnz, if_false, hs, hmod]
  have h := decNormalize_narrowed (s.value.toNat % (s.length.toNat >>> n)) (s.length.toNat >>> n) s
    ((s.setLength (s.length >>> n)).setValue (u32 (s.value.toNat % (s.length.toNat >>> n)))) hl hlt
    (Nat.lt_of_le_of_lt (Nat.mod_le _ _) hV) (by rw [hu]; rfl)
  rcases h with ⟨k, t, e, d⟩ | ⟨k, t, e, d⟩
  · refine .inl ⟨k, t, d, ?_⟩
    rw [e]
    simp only [Res.bind_ok, check]
    split <;> rfl
  · refine .inr ⟨k, t, ?_, d⟩
    rw [e]
    rfl

end Sys2Proof.Machine
end

