-- ==== Sys2Proof/Laws/Models.lean ====
section
/-! SUPPORT. The probability models: what an initialisation and an observation leave satisfies the invariants of
10_state.md R37 and R39. -/

namespace Sys2Proof.Machine

theorem u32_toNat_of_lt {n : Nat} (h : n < 2 ^ 32) : (u32 n).toNat = n := by
  simp [u32]
  omega

/-! ## Bit models (R37) -/

theorem bmInitial_wf : bmInitial.wf := by decide

/-- The cached probability of legal counts is a legal fraction of 2^13 (R172). -/
theorem bmProbability_bounds (c0 cn : Nat) (h0 : 1 ≤ c0) (h1 : c0 < cn) (h2 : cn ≤ 8192) :
    1 ≤ (c0 * (0x80000000 / cn)) >>> 18 ∧ (c0 * (0x80000000 / cn)) >>> 18 ≤ 8191 := by
  have hq : 2 ^ 18 ≤ 0x80000000 / cn := by
    rw [Nat.le_div_iff_mul_le (by omega)]
    omega
  have hm : cn * (0x80000000 / cn) ≤ 0x80000000 := Nat.mul_div_le _ _
  have ha : 1 * (0x80000000 / cn) ≤ c0 * (0x80000000 / cn) := Nat.mul_le_mul_right _ h0
  have hb : (c0 + 1) * (0x80000000 / cn) ≤ cn * (0x80000000 / cn) := Nat.mul_le_mul_right _ h1
  rw [Nat.add_mul, Nat.one_mul] at hb
  rw [Nat.shiftRight_eq_div_pow]
  omega

/-- The counts after an update (R172). -/
theorem bmCounts_bounds (m : BitModel) (h0 : 1 ≤ m.c0.toNat) (h1 : m.c0.toNat < m.cn.toNat + m.cycle.toNat)
    (h2 : 2 ≤ m.cn.toNat) (h3 : m.cn.toNat ≤ 8192) (h4 : m.cycle.toNat ≤ 64) :
    1 ≤ (bmCounts m).1 ∧ (bmCounts m).1 < (bmCounts m).2 ∧ 2 ≤ (bmCounts m).2 ∧ (bmCounts m).2 ≤ 8192 := by
  unfold bmCounts BM_MAX_COUNT
  by_cases h : 8192 < m.cn.toNat + m.cycle.toNat
  · simp only [h, if_true, Nat.shiftRight_eq_div_pow, Nat.pow_one]
    split <;> omega
  · simp only [h, if_false]
    omega

/-- BmUpdate on a model whose countdown has ended re-establishes the invariants (R37, R172). -/
theorem bmUpdate_wf (m : BitModel) (h0 : 1 ≤ m.c0.toNat) (h1 : m.c0.toNat < m.cn.toNat + m.cycle.toNat)
    (h2 : 2 ≤ m.cn.toNat) (h3 : m.cn.toNat ≤ 8192) (h4 : 4 ≤ m.cycle.toNat) (h5 : m.cycle.toNat ≤ 64) :
    (bmUpdate m).wf := by
  obtain ⟨a1, a2, a3, a4⟩ := bmCounts_bounds m h0 h1 h2 h3 h5
  obtain ⟨b1, b2⟩ := bmProbability_bounds _ _ a1 a2 a4
  have hc : 4 ≤ min BM_MAX_CYCLE ((5 * m.cycle.toNat) >>> 2) ∧ min BM_MAX_CYCLE ((5 * m.cycle.toNat) >>> 2) ≤ 64 := by
    rw [Nat.shiftRight_eq_div_pow]
    unfold BM_MAX_CYCLE
    omega
  unfold BitModel.wf bmUpdate
  simp only
  rw [u32_toNat_of_lt (by omega), u32_toNat_of_lt (by omega), u32_toNat_of_lt (by omega), u32_toNat_of_lt (by omega)]
  omega

/-- Observing a bit keeps the invariants (R37, R173). -/
theorem bmObserve_wf (bit : BitVec 1) (m : BitModel) (h : m.wf) : (bmObserve bit m).wf := by
  obtain ⟨h1, h2, h3, h4, h5, h6, h7, h8, h9, h10⟩ := h
  have hu : (u32 (m.left.toNat - 1)).toNat = m.left.toNat - 1 := u32_toNat_of_lt (by omega)
  have hv : (u32 (m.c0.toNat + 1)).toNat = m.c0.toNat + 1 := u32_toNat_of_lt (by omega)
  have key : ∀ c : Word, 1 ≤ c.toNat → c.toNat ≤ m.c0.toNat + 1 → (bmCountdown { m with c0 := c }).wf := by
    intro c hc1 hc2
    unfold bmCountdown
    by_cases hz : u32 (m.left.toNat - 1) = 0#32
    · simp only [hz, if_true]
      have h0 : m.left.toNat - 1 = 0 := by
        rw [← hu, hz]
        rfl
      exact bmUpdate_wf _ hc1 (by show c.toNat < m.cn.toNat + m.cycle.toNat; omega) h7 h8 h3 h4
    · simp only [hz, if_false]
      have h0 : m.left.toNat - 1 ≠ 0 := fun h => hz (by rw [h]; rfl)
      unfold BitModel.wf
      simp only [hu]
      omega
  unfold bmObserve bmCount
  split
  · exact key _ (by omega) (by omega)
  · exact key m.c0 h5 (by omega)

/-! ## Counts -/

theorem sumCounts_nil : sumCounts [] = 0 := rfl

theorem sumCounts_cons (c : Word) (cs : List Word) : sumCounts (c :: cs) = c.toNat + sumCounts cs := by
  simp [sumCounts]

theorem length_le_sumCounts (cs : List Word) (h : ∀ c ∈ cs, 1 ≤ c.toNat) : cs.length ≤ sumCounts cs := by
  induction cs with
  | nil => exact Nat.le_refl _
  | cons c cs ih =>
    have h1 := h c (by simp)
    have h2 := ih fun x hx => h x (by simp [hx])
    rw [sumCounts_cons, List.length_cons]
    omega

theorem mem_le_sumCounts (cs : List Word) (c : Word) (h : c ∈ cs) : c.toNat ≤ sumCounts cs := by
  induction cs with
  | nil => cases h
  | cons d cs ih =>
    rw [sumCounts_cons]
    rcases List.mem_cons.mp h with rfl | h
    · omega
    · have := ih h
      omega

theorem sumCounts_replicate (n : Nat) : sumCounts (List.replicate n 1#32) = n := by
  induction n with
  | zero => rfl
  | succ n ih =>
    rw [List.replicate_succ, sumCounts_cons, ih]
    show 1 + n = n + 1
    omega

/-- One more observation of a symbol of the alphabet. -/
theorem sumCounts_modify (cs : List Word) (i : Nat) (hi : i < cs.length) (hb : sumCounts cs + 1 < 2 ^ 32) :
    sumCounts (cs.modify i fun c => u32 (c.toNat + 1)) = sumCounts cs + 1 := by
  induction cs generalizing i with
  | nil => cases hi
  | cons c cs ih =>
    rw [sumCounts_cons] at hb ⊢
    cases i with
    | zero =>
      rw [List.modify_zero_cons, sumCounts_cons, u32_toNat_of_lt (by omega)]
      omega
    | succ i =>
      rw [List.modify_succ_cons, sumCounts_cons, ih i (by simpa using hi) (by omega)]
      omega

theorem modify_pos (cs : List Word) (i : Nat) (h : ∀ c ∈ cs, 1 ≤ c.toNat) (hb : sumCounts cs + 1 < 2 ^ 32) :
    ∀ c ∈ cs.modify i (fun c => u32 (c.toNat + 1)), 1 ≤ c.toNat := by
  induction cs generalizing i with
  | nil => simp
  | cons d cs ih =>
    rw [sumCounts_cons] at hb
    cases i with
    | zero =>
      intro c hc
      rw [List.modify_zero_cons] at hc
      rcases List.mem_cons.mp hc with rfl | hc
      · rw [u32_toNat_of_lt (by omega)]
        omega
      · exact h c (by simp [hc])
    | succ i =>
      intro c hc
      rw [List.modify_succ_cons] at hc
      rcases List.mem_cons.mp hc with rfl | hc
      · exact h _ (by simp)
      · exact ih i (fun x hx => h x (by simp [hx])) (by omega) c hc

/-- Halving keeps every count positive and makes the sum about half (R179). -/
theorem sumCounts_halve (cs : List Word) (h : ∀ c ∈ cs, 1 ≤ c.toNat) :
    (∀ c ∈ cs.map (fun c => u32 ((c.toNat + 1) >>> 1)), 1 ≤ c.toNat) ∧
    2 * sumCounts (cs.map fun c => u32 ((c.toNat + 1) >>> 1)) ≤ sumCounts cs + cs.length := by
  have hu : ∀ c : Word, (u32 ((c.toNat + 1) >>> 1)).toNat = (c.toNat + 1) / 2 := fun c => by
    have := c.isLt
    rw [Nat.shiftRight_eq_div_pow, u32_toNat_of_lt (by omega)]
  constructor
  · intro c hc
    obtain ⟨d, hd, rfl⟩ := List.mem_map.mp hc
    have := h d hd
    rw [hu]
    omega
  · induction cs with
    | nil => simp [sumCounts_nil]
    | cons c cs ih =>
      have := ih fun x hx => h x (by simp [hx])
      rw [List.map_cons, sumCounts_cons, sumCounts_cons, hu, List.length_cons]
      omega

/-! ## The cumulative distribution (R178) -/

theorem cumulate_length (scale acc : Nat) (cs : List Word) : (cumulate scale acc cs).length = cs.length := by
  induction cs generalizing acc with
  | nil => rfl
  | cons c cs ih => simp [cumulate, ih]

/-- The cumulative values lie in the range the counts give. -/
theorem cumulate_bounds (scale acc : Nat) (cs : List Word) (h : ∀ c ∈ cs, 1 ≤ c.toNat)
    (hs : scale * (acc + sumCounts cs) ≤ 2 ^ 31) (h1 : 2 ^ 16 ≤ scale) :
    ∀ d ∈ cumulate scale acc cs, (scale * acc) >>> 16 ≤ d.toNat ∧ d.toNat ≤ 32767 := by
  induction cs generalizing acc with
  | nil => simp [cumulate]
  | cons c cs ih =>
    have hc := h c (by simp)
    rw [sumCounts_cons] at hs
    have hlt : scale * acc + scale ≤ 2 ^ 31 := by
      have h2 : scale * (acc + 1) ≤ scale * (acc + (c.toNat + sumCounts cs)) := Nat.mul_le_mul_left _ (by omega)
      rw [Nat.mul_add, Nat.mul_one] at h2
      omega
    intro d hd
    simp only [cumulate, List.mem_cons] at hd
    rcases hd with rfl | hd
    · rw [Nat.shiftRight_eq_div_pow, u32_toNat_of_lt (by omega)]
      omega
    · have h2 := ih (acc + c.toNat) (fun x hx => h x (by simp [hx])) (by rw [Nat.add_assoc]; exact hs) d hd
      refine ⟨Nat.le_trans ?_ h2.1, h2.2⟩
      rw [Nat.shiftRight_eq_div_pow, Nat.shiftRight_eq_div_pow]
      exact Nat.div_le_div_right (Nat.mul_le_mul_left _ (by omega))

theorem cumulate_pairwise (scale acc : Nat) (cs : List Word) (h : ∀ c ∈ cs, 1 ≤ c.toNat)
    (hs : scale * (acc + sumCounts cs) ≤ 2 ^ 31) (h1 : 2 ^ 16 ≤ scale) :
    (cumulate scale acc cs).Pairwise fun a b => a.toNat < b.toNat := by
  induction cs generalizing acc with
  | nil => exact List.Pairwise.nil
  | cons c cs ih =>
    have hc := h c (by simp)
    have hs' := hs
    rw [sumCounts_cons] at hs
    have hcs : ∀ x ∈ cs, 1 ≤ x.toNat := fun x hx => h x (by simp [hx])
    refine List.pairwise_cons.mpr ⟨?_, ih (acc + c.toNat) hcs (by rw [Nat.add_assoc]; exact hs)⟩
    intro d hd
    have hd1 := (cumulate_bounds scale (acc + c.toNat) cs hcs (by rw [Nat.add_assoc]; exact hs) h1 d hd).1
    have h0 := (cumulate_bounds scale acc (c :: cs) h hs' h1 _ (List.mem_cons_self)).2
    have h2 : scale * acc + scale ≤ scale * (acc + c.toNat) := by
      have h3 : scale * (acc + 1) ≤ scale * (acc + c.toNat) := Nat.mul_le_mul_left _ (by omega)
      rw [Nat.mul_add, Nat.mul_one] at h3
      exact h3
    have h4 : scale * acc ≤ 2 ^ 31 := Nat.le_trans (Nat.mul_le_mul_left _ (by omega)) hs
    rw [Nat.shiftRight_eq_div_pow] at hd1 ⊢
    rw [u32_toNat_of_lt (by omega)]
    omega

/-- SmRecompute on positive counts with their sum in TOTAL re-establishes the distribution's invariants (R39, R178). -/
theorem smRecompute_dist (m : SymModel) (h2 : 2 ≤ m.nsym) (hlen : m.count.length = m.nsym) (h : ∀ c ∈ m.count, 1 ≤ c.toNat)
    (ht : m.total.toNat = sumCounts m.count) (hb : sumCounts m.count ≤ 32768) :
    (smRecompute m).dist.length = m.nsym ∧ (smRecompute m).dist[0]? = some 0#32 ∧
    (smRecompute m).dist.Pairwise (fun a b => a.toNat < b.toNat) ∧ ∀ d ∈ (smRecompute m).dist, d.toNat ≤ 32767 := by
  have hpos : 0 < sumCounts m.count := by
    have := length_le_sumCounts _ h
    omega
  have hs : 0x80000000 / sumCounts m.count * (0 + sumCounts m.count) ≤ 2 ^ 31 := by
    rw [Nat.zero_add]
    exact Nat.div_mul_le_self _ _
  have h1 : 2 ^ 16 ≤ 0x80000000 / sumCounts m.count := by
    rw [Nat.le_div_iff_mul_le hpos]
    omega
  unfold smRecompute
  simp only [ht]
  refine ⟨by rw [cumulate_length, hlen], ?_, cumulate_pairwise _ _ _ h hs h1,
    fun d hd => (cumulate_bounds _ _ _ h hs h1 d hd).2⟩
  cases hc : m.count with
  | nil =>
    rw [hc] at hlen
    simp only [List.length_nil] at hlen
    omega
  | cons c cs => simp [cumulate, u32]

/-- SmInit on legal counts makes a well-formed model (R39, R177). -/
theorem smInit_wf (n : Nat) (c : List Word) (h2 : 2 ≤ n) (hn : n ≤ 2048) (hlen : c.length = n)
    (h : ∀ x ∈ c, 1 ≤ x.toNat) (hb : sumCounts c ≤ 32768) : (smInit n c).wf ∧ (smInit n c).nsym = n := by
  have ht : (u32 (sumCounts c)).toNat = sumCounts c := u32_toNat_of_lt (by omega)
  have hl := length_le_sumCounts c h
  have hcy : (u32 ((n + 6) >>> 1)).toNat = (n + 6) / 2 := by
    rw [Nat.shiftRight_eq_div_pow, u32_toNat_of_lt (by omega)]
  obtain ⟨d1, d2, d3, d4⟩ := smRecompute_dist
    { nsym := n, count := c, dist := [], total := u32 (sumCounts c), cycle := u32 ((n + 6) >>> 1),
      left := u32 ((n + 6) >>> 1) } h2 hlen h ht hb
  refine ⟨⟨h2, hn, hlen, d1, h, d2, d3, d4, ?_, ?_, ?_, ?_, ?_, ?_⟩, rfl⟩
  · show n ≤ (u32 (sumCounts c)).toNat
    omega
  · show (u32 (sumCounts c)).toNat ≤ 32768
    omega
  · show sumCounts c + (u32 ((n + 6) >>> 1)).toNat = (u32 (sumCounts c)).toNat + (u32 ((n + 6) >>> 1)).toNat
    omega
  · show 1 ≤ (u32 ((n + 6) >>> 1)).toNat
    omega
  · exact Nat.le_refl _
  · show (u32 ((n + 6) >>> 1)).toNat ≤ (n + 6) <<< 3
    rw [hcy, Nat.shiftLeft_eq]
    omega

theorem smUniform_wf (n : Nat) (h2 : 2 ≤ n) (hn : n ≤ 2048) : (smUniform n).wf ∧ (smUniform n).nsym = n :=
  smInit_wf n _ h2 hn (by simp) (by simp) (by rw [sumCounts_replicate]; omega)

/-- SmUpdate on a model whose countdown has ended re-establishes the invariants (R39, R179). -/
theorem smUpdate_wf (m : SymModel) (h2 : 2 ≤ m.nsym) (hn : m.nsym ≤ 2048) (hlen : m.count.length = m.nsym)
    (h : ∀ c ∈ m.count, 1 ≤ c.toNat) (ht : m.total.toNat ≤ 32768)
    (hsum : sumCounts m.count = m.total.toNat + m.cycle.toNat) (hc1 : 1 ≤ m.cycle.toNat)
    (hc : m.cycle.toNat ≤ (m.nsym + 6) <<< 3) : (smUpdate m).wf ∧ (smUpdate m).nsym = m.nsym := by
  rw [Nat.shiftLeft_eq] at hc
  have hcounts : (smCounts m).1.length = m.nsym ∧ (∀ c ∈ (smCounts m).1, 1 ≤ c.toNat) ∧
      (smCounts m).2 = sumCounts (smCounts m).1 ∧ (smCounts m).2 ≤ 32768 := by
    unfold smCounts DM_MAX_COUNT
    by_cases hh : 32768 < m.total.toNat + m.cycle.toNat
    · obtain ⟨p1, p2⟩ := sumCounts_halve m.count h
      simp only [hh, if_true]
      exact ⟨by simp [hlen], p1, trivial, by omega⟩
    · simp only [hh, if_false]
      exact ⟨hlen, h, hsum.symm, by omega⟩
  obtain ⟨c1, c2, c3, c4⟩ := hcounts
  have hu : (u32 (smCounts m).2).toNat = sumCounts (smCounts m).1 := by rw [u32_toNat_of_lt (by omega), c3]
  obtain ⟨d1, d2, d3, d4⟩ := smRecompute_dist { m with count := (smCounts m).1, total := u32 (smCounts m).2 } h2 c1 c2 hu
    (by show sumCounts (smCounts m).1 ≤ 32768; omega)
  have hl := length_le_sumCounts _ c2
  have hcy : 1 ≤ min ((m.nsym + 6) <<< 3) ((5 * m.cycle.toNat) >>> 2) ∧
      min ((m.nsym + 6) <<< 3) ((5 * m.cycle.toNat) >>> 2) ≤ (m.nsym + 6) <<< 3 ∧
      min ((m.nsym + 6) <<< 3) ((5 * m.cycle.toNat) >>> 2) < 2 ^ 32 := by
    rw [Nat.shiftRight_eq_div_pow, Nat.shiftLeft_eq]
    omega
  have hcu := u32_toNat_of_lt hcy.2.2
  refine ⟨⟨h2, hn, c1, d1, c2, d2, d3, d4, ?_, ?_, ?_, ?_, Nat.le_refl _, ?_⟩, rfl⟩
  · show m.nsym ≤ (u32 (smCounts m).2).toNat
    omega
  · show (u32 (smCounts m).2).toNat ≤ 32768
    omega
  · show sumCounts (smCounts m).1 + (u32 (min ((m.nsym + 6) <<< 3) ((5 * m.cycle.toNat) >>> 2))).toNat =
      (u32 (smCounts m).2).toNat + (u32 (min ((m.nsym + 6) <<< 3) ((5 * m.cycle.toNat) >>> 2))).toNat
    omega
  · show 1 ≤ (u32 (min ((m.nsym + 6) <<< 3) ((5 * m.cycle.toNat) >>> 2))).toNat
    rw [hcu]
    exact hcy.1
  · show (u32 (min ((m.nsym + 6) <<< 3) ((5 * m.cycle.toNat) >>> 2))).toNat ≤ (m.nsym + 6) <<< 3
    rw [hcu]
    exact hcy.2.1

/-- Observing a symbol of the alphabet keeps the invariants (R39, R180). -/
theorem smObserve_wf (s : Nat) (m : SymModel) (h : m.wf) (hs : s < m.nsym) :
    (smObserve s m).wf ∧ (smObserve s m).nsym = m.nsym := by
  obtain ⟨h1, h2, h3, h4, h5, h6, h7, h8, h9, h10, h11, h12, h13, h14⟩ := h
  have hcy := h14
  rw [Nat.shiftLeft_eq] at hcy
  have hb : sumCounts m.count + 1 < 2 ^ 32 := by omega
  have hu : (u32 (m.left.toNat - 1)).toNat = m.left.toNat - 1 := u32_toNat_of_lt (by omega)
  have hsum := sumCounts_modify m.count s (by omega) hb
  have hpos := modify_pos m.count s h5 hb
  have hlen : (m.count.modify s fun c => u32 (c.toNat + 1)).length = m.nsym := by simp [h3]
  unfold smObserve
  by_cases hz : u32 (m.left.toNat - 1) = 0#32
  · simp only [hz, if_true]
    have h0 : m.left.toNat - 1 = 0 := by
      rw [← hu, hz]
      rfl
    exact smUpdate_wf { m with count := m.count.modify s fun c => u32 (c.toNat + 1), left := 0#32 } h1 h2 hlen hpos h10
      (by show sumCounts (m.count.modify s fun c => u32 (c.toNat + 1)) = m.total.toNat + m.cycle.toNat; omega)
      (by show 1 ≤ m.cycle.toNat; omega) h14
  · simp only [hz, if_false]
    have h0 : m.left.toNat - 1 ≠ 0 := fun h => hz (by rw [h]; rfl)
    refine ⟨⟨h1, h2, hlen, h4, hpos, h6, h7, h8, h9, h10, ?_, ?_, ?_, h14⟩, trivial⟩
    · show sumCounts (m.count.modify s fun c => u32 (c.toNat + 1)) + (u32 (m.left.toNat - 1)).toNat =
        m.total.toNat + m.cycle.toNat
      omega
    · show 1 ≤ (u32 (m.left.toNat - 1)).toNat
      omega
    · show (u32 (m.left.toNat - 1)).toNat ≤ m.cycle.toNat
      omega

/-! ## What an initialisation and an observation leave, in numbers (Sys2Proof/Safety.lean) -/

/-- Coding a bit changes the model as R172 and R173 say, in numbers. -/
theorem bmObserve_observed (bit : BitVec 1) (m : BitModel) (h : m.wf) : m.Observed bit (bmObserve bit m) := by
  obtain ⟨h1, h2, h3, h4, h5, h6, h7, h8, h9, h10⟩ := h
  have hc : (bmCount bit m).c0.toNat = m.c0.toNat + (if bit = 0#1 then 1 else 0) ∧ (bmCount bit m).cn = m.cn ∧
      (bmCount bit m).p0 = m.p0 ∧ (bmCount bit m).cycle = m.cycle ∧ (bmCount bit m).left = m.left := by
    unfold bmCount
    split
    · exact ⟨u32_toNat_of_lt (by omega), rfl, rfl, rfl, rfl⟩
    · exact ⟨rfl, rfl, rfl, rfl, rfl⟩
  have hc1 : (bmCount bit m).c0.toNat ≤ m.c0.toNat + 1 := by rw [hc.1]; split <;> omega
  have hc2 : 1 ≤ (bmCount bit m).c0.toNat := by rw [hc.1]; omega
  unfold BitModel.Observed bmObserve
  simp only
  rw [← hc.1, ← hc.2.1, ← hc.2.2.1, ← hc.2.2.2.1, ← hc.2.2.2.2]
  rw [← hc.2.2.2.1] at h2 h3 h4 h6
  rw [← hc.2.2.2.2] at h1 h2 h6
  rw [← hc.2.1] at h6 h7 h8
  clear hc
  generalize bmCount bit m = x at h1 h2 h3 h4 h6 h7 h8 hc1 hc2 ⊢
  obtain ⟨c0, cn, p0, cycle, left⟩ := x
  simp only at h1 h2 h3 h4 h6 h7 h8 hc1 hc2 ⊢
  have hz : u32 (left.toNat - 1) = 0#32 ↔ ¬1 < left.toNat := by
    constructor
    · intro h
      have := congrArg BitVec.toNat h
      rw [u32_toNat_of_lt (by omega)] at this
      simp at this
      omega
    · intro h
      have : left.toNat - 1 = 0 := by omega
      rw [this]
      rfl
  unfold bmCountdown
  simp only
  by_cases hl : 1 < left.toNat
  · rw [if_pos hl, if_neg (by rw [hz]; omega)]
    refine ⟨rfl, ?_, rfl, rfl, rfl⟩
    show (u32 _).toNat + 1 = _
    rw [u32_toNat_of_lt (by omega)]
    omega
  · rw [if_neg hl, if_pos (hz.mpr hl)]
    have hb := bmCounts_bounds ⟨c0, cn, p0, cycle, u32 (left.toNat - 1)⟩ hc2 (by show c0.toNat < cn.toNat + cycle.toNat; omega)
      h7 h8 h4
    have hp := bmProbability_bounds _ _ hb.1 hb.2.1 hb.2.2.2
    have hs : ∀ n : Nat, n >>> 1 = n / 2 := fun n => by rw [Nat.shiftRight_eq_div_pow]
    have e1 : (bmCounts ⟨c0, cn, p0, cycle, u32 (left.toNat - 1)⟩).1 =
        if 8192 < cn.toNat + cycle.toNat then (c0.toNat + 1) / 2 else c0.toNat := by
      unfold bmCounts BM_MAX_COUNT
      simp only [hs]
      split <;> rfl
    have e2 : (bmCounts ⟨c0, cn, p0, cycle, u32 (left.toNat - 1)⟩).2 =
        if 8192 < cn.toNat + cycle.toNat then
          (if (c0.toNat + 1) / 2 = (cn.toNat + cycle.toNat + 1) / 2 then (cn.toNat + cycle.toNat + 1) / 2 + 1
          else (cn.toNat + cycle.toNat + 1) / 2)
        else cn.toNat + cycle.toNat := by
      unfold bmCounts BM_MAX_COUNT
      simp only [hs]
      split <;> rfl
    rw [← e1, ← e2]
    refine ⟨?_, ?_, ?_, ?_, rfl⟩
    · exact u32_toNat_of_lt (by omega)
    · exact u32_toNat_of_lt (by omega)
    · refine (u32_toNat_of_lt (Nat.lt_of_le_of_lt hp.2 (by norm_num))).trans ?_
      rw [Nat.shiftRight_eq_div_pow, show (0x80000000 : Nat) = 2 ^ 31 from rfl]
    · show (u32 (min BM_MAX_CYCLE ((5 * cycle.toNat) >>> 2))).toNat = _
      unfold BM_MAX_CYCLE
      rw [u32_toNat_of_lt (by omega), Nat.shiftRight_eq_div_pow]

theorem getElem?_cumulate (scale acc : Nat) (cs : List Word) (k : Nat) (hk : k < cs.length) :
    (cumulate scale acc cs)[k]? = some (u32 ((scale * (acc + sumCounts (cs.take k))) >>> 16)) := by
  induction cs generalizing acc k with
  | nil => simp at hk
  | cons c cs ih =>
    unfold cumulate
    cases k with
    | zero => simp [sumCounts_nil]
    | succ k =>
      simp only [List.getElem?_cons_succ, List.take_succ_cons]
      rw [ih _ _ (by simpa using hk), sumCounts_cons, Nat.add_assoc]

theorem sumCounts_take_le (cs : List Word) (k : Nat) : sumCounts (cs.take k) ≤ sumCounts cs := by
  induction cs generalizing k with
  | nil => simp
  | cons c cs ih =>
    cases k with
    | zero => simp [sumCounts_nil]
    | succ k =>
      rw [List.take_succ_cons, sumCounts_cons, sumCounts_cons]
      have := ih k
      omega

/-- DIST after SmRecompute, in numbers (R178). -/
theorem smRecompute_dist_toNat (m : SymModel) (hlen : m.count.length = m.nsym) (ht : m.total.toNat = sumCounts m.count) :
    (smRecompute m).dist.map BitVec.toNat =
      (List.range m.nsym).map fun k => 2 ^ 31 / m.total.toNat * (m.count.take k |>.map BitVec.toNat).sum / 2 ^ 16 := by
  apply List.ext_getElem?
  intro k
  simp only [smRecompute, List.getElem?_map]
  by_cases hk : k < m.nsym
  · rw [getElem?_cumulate _ _ _ _ (by omega), List.getElem?_range hk]
    simp only [Option.map_some, Nat.zero_add]
    have h1 := sumCounts_take_le m.count k
    have h2 : 2 ^ 31 / m.total.toNat * sumCounts (m.count.take k) ≤ 2 ^ 31 := by
      refine Nat.le_trans (Nat.mul_le_mul_left _ h1) ?_
      rw [← ht]
      exact Nat.div_mul_le_self _ _
    rw [u32_toNat_of_lt, Nat.shiftRight_eq_div_pow]
    · rfl
    · rw [Nat.shiftRight_eq_div_pow]
      exact Nat.lt_of_le_of_lt (Nat.div_le_self _ _) (Nat.lt_of_le_of_lt h2 (by norm_num))
  · rw [List.getElem?_eq_none (by rw [cumulate_length]; omega), List.getElem?_eq_none (by simpa using hk)]
    rfl

/-- SmInit makes the model of R177. -/
theorem smInit_fresh (n : Nat) (c : List Word) (hn : n ≤ 2048) (hlen : c.length = n) (hb : sumCounts c ≤ 32768) :
    SymModel.Fresh n c (smInit n c) := by
  have ht : (u32 (sumCounts c)).toNat = sumCounts c := u32_toNat_of_lt (by omega)
  have hc : (u32 ((n + 6) >>> 1)).toNat = (n + 6) / 2 := by
    rw [Nat.shiftRight_eq_div_pow, u32_toNat_of_lt (by omega)]
  refine ⟨rfl, rfl, ht, ?_, hc, hc⟩
  have h := smRecompute_dist_toNat ⟨n, c, [], u32 (sumCounts c), u32 ((n + 6) >>> 1), u32 ((n + 6) >>> 1)⟩ hlen ht
  rw [ht] at h
  exact h

theorem smUniform_uniform (n : Nat) (hn : n ≤ 2048) : SymModel.Uniform n (smUniform n) :=
  smInit_fresh n _ hn (by simp) (by rw [sumCounts_replicate]; omega)

theorem modify_toNat (cs : List Word) (i : Nat) (hb : ∀ c ∈ cs, c.toNat + 1 < 2 ^ 32) :
    (cs.modify i fun c => u32 (c.toNat + 1)).map BitVec.toNat = (cs.map BitVec.toNat).modify i (· + 1) := by
  induction cs generalizing i with
  | nil => simp
  | cons c cs ih =>
    cases i with
    | zero => simp [u32_toNat_of_lt (hb c (by simp))]
    | succ i => simpa using ih i fun x hx => hb x (by simp [hx])

/-- Coding a symbol changes the model as R178 to R180 say, in numbers. -/
theorem smObserve_observed (sym : Nat) (m : SymModel) (h : m.wf) (hs : sym < m.nsym) : m.Observed sym (smObserve sym m) := by
  obtain ⟨h1, h2, h3, h4, h5, h6, h7, h8, h9, h10, h11, h12, h13, h14⟩ := h
  rw [Nat.shiftLeft_eq] at h14
  have hb : sumCounts m.count + 1 < 2 ^ 32 := by omega
  have hsum := sumCounts_modify m.count sym (by omega) hb
  have hpos := modify_pos m.count sym h5 hb
  have hmod := modify_toNat m.count sym fun c hc => by
    have := mem_le_sumCounts m.count c hc
    omega
  have hlen : (m.count.modify sym fun c => u32 (c.toNat + 1)).length = m.nsym := by simp [h3]
  have hz : u32 (m.left.toNat - 1) = 0#32 ↔ ¬1 < m.left.toNat := by
    constructor
    · intro h
      have := congrArg BitVec.toNat h
      rw [u32_toNat_of_lt (by omega)] at this
      simp at this
      omega
    · intro h
      have : m.left.toNat - 1 = 0 := by omega
      rw [this]
      rfl
  unfold SymModel.Observed smObserve
  simp only
  rw [← hmod]
  generalize (m.count.modify sym fun c => u32 (c.toNat + 1)) = cnt at hsum hpos hlen
  by_cases hl : 1 < m.left.toNat
  · rw [if_neg (by rw [hz]; omega)]
    simp only [if_pos hl]
    refine ⟨trivial, trivial, ?_, trivial, trivial, trivial⟩
    rw [u32_toNat_of_lt (by omega)]
    omega
  · rw [if_pos (hz.mpr hl)]
    simp only [if_neg hl]
    have hh := sumCounts_halve cnt hpos
    have hhm : (cnt.map fun c => u32 ((c.toNat + 1) >>> 1)).map BitVec.toNat =
        (cnt.map BitVec.toNat).map fun x => (x + 1) / 2 := by
      rw [List.map_map, List.map_map]
      apply List.map_congr_left
      intro c hc
      have := mem_le_sumCounts cnt c hc
      simp only [Function.comp_apply, Nat.shiftRight_eq_div_pow]
      rw [u32_toNat_of_lt (by omega)]
    have key : ∀ (c1 : List Word) (n1 : Nat), c1.length = m.nsym → sumCounts c1 = n1 → n1 ≤ 32768 →
        smCounts { m with count := cnt, left := u32 (m.left.toNat - 1) } = (c1, n1) →
        (smUpdate { m with count := cnt, left := u32 (m.left.toNat - 1) }).nsym = m.nsym ∧
        (smUpdate { m with count := cnt, left := u32 (m.left.toNat - 1) }).count.map BitVec.toNat = c1.map BitVec.toNat ∧
        (smUpdate { m with count := cnt, left := u32 (m.left.toNat - 1) }).total.toNat = n1 ∧
        (smUpdate { m with count := cnt, left := u32 (m.left.toNat - 1) }).dist.map BitVec.toNat =
          (List.range m.nsym).map (fun k => 2 ^ 31 / n1 * ((c1.map BitVec.toNat).take k).sum / 2 ^ 16) ∧
        (smUpdate { m with count := cnt, left := u32 (m.left.toNat - 1) }).cycle.toNat =
          min ((m.nsym + 6) * 8) (5 * m.cycle.toNat / 4) ∧
        (smUpdate { m with count := cnt, left := u32 (m.left.toNat - 1) }).left =
          (smUpdate { m with count := cnt, left := u32 (m.left.toNat - 1) }).cycle := by
      intro c1 n1 hl1 hs1 hn1 he
      have ht : (u32 n1).toNat = n1 := u32_toNat_of_lt (by omega)
      unfold smUpdate
      rw [he]
      refine ⟨rfl, rfl, ht, ?_, ?_, rfl⟩
      · have h := smRecompute_dist_toNat { m with count := c1, total := u32 n1, left := u32 (m.left.toNat - 1) } hl1
          (by show (u32 n1).toNat = _; rw [ht, hs1])
        simp only [ht] at h
        simp only [← List.map_take]
        exact h
      · show (u32 (min ((m.nsym + 6) <<< 3) ((5 * m.cycle.toNat) >>> 2))).toNat = _
        rw [Nat.shiftLeft_eq, Nat.shiftRight_eq_div_pow, u32_toNat_of_lt (by omega)]
    by_cases hn : 32768 < m.total.toNat + m.cycle.toNat
    · have k := key (cnt.map fun c => u32 ((c.toNat + 1) >>> 1)) _ (by simp [hlen]) rfl (by omega)
        (by unfold smCounts DM_MAX_COUNT; exact if_pos hn)
      simp only [if_pos hn, hhm] at k ⊢
      have hs2 : sumCounts (cnt.map fun c => u32 ((c.toNat + 1) >>> 1)) =
          ((cnt.map BitVec.toNat).map fun x => (x + 1) / 2).sum := congrArg List.sum hhm
      rw [hs2] at k
      exact k
    · have k := key cnt (m.total.toNat + m.cycle.toNat) hlen (by omega) (by omega) (by unfold smCounts DM_MAX_COUNT; exact if_neg hn)
      simp only [if_neg hn]
      exact k

end Sys2Proof.Machine
end

