-- ==== Sys2Proof/Laws/Encoder.lean ====
section
/-! SUPPORT. The encoder's procedures on a model (40_encoder.md R122, R123), the flush of R125, and the sub-intervals of
bits and symbols, which the decoder shares. -/

namespace Sys2Proof.Machine

/-! ## Sub-intervals -/

/-- Both parts of a bit's split are non-empty and inside the interval. -/
theorem bitPart_bounds (m : BitModel) (hm : m.wf) (bit : BitVec 1) (len : Nat) (h : 2 ^ 24 ≤ len) :
    1 ≤ (bitPart m bit len).2 ∧ (bitPart m bit len).1 + (bitPart m bit len).2 ≤ len ∧
    1 ≤ bitPoint m len ∧ bitPoint m len < len := by
  obtain ⟨-, -, -, -, -, -, -, -, p1, p2⟩ := hm
  have h1 : 1 * (len >>> 13) ≤ m.p0.toNat * (len >>> 13) := Nat.mul_le_mul_right _ p1
  have h2 : m.p0.toNat * (len >>> 13) ≤ 8191 * (len >>> 13) := Nat.mul_le_mul_right _ p2
  have h3 : 1 ≤ bitPoint m len ∧ bitPoint m len < len := by
    unfold bitPoint
    rw [Nat.shiftRight_eq_div_pow] at h1 h2 ⊢
    omega
  unfold bitPart
  split <;> simp only <;> omega

theorem getD_getElem? {l : List Word} {i : Nat} (h : i < l.length) : l[i]? = some (l.getD i 0#32) := by
  simp [List.getD, h]

/-- DIST never exceeds 32767. -/
theorem dist_le (m : SymModel) (hm : m.wf) (i : Nat) : (m.dist.getD i 0#32).toNat ≤ 32767 := by
  by_cases h : i < m.dist.length
  · have h1 := getD_getElem? h
    exact hm.2.2.2.2.2.2.2.1 _ (List.mem_of_getElem? h1)
  · rw [List.getD_eq_default _ _ (by omega)]
    decide

/-- DIST rises strictly. -/
theorem dist_lt (m : SymModel) (hm : m.wf) (i j : Nat) (hij : i < j) (hj : j < m.nsym) :
    (m.dist.getD i 0#32).toNat < (m.dist.getD j 0#32).toNat := by
  have hlen := hm.2.2.2.1
  have hj' : j < m.dist.length := by omega
  have hi' : i < m.dist.length := by omega
  have h := (List.pairwise_iff_getElem.mp hm.2.2.2.2.2.2.1) i j hi' hj' hij
  simpa [List.getD, hi', hj'] using h

/-- The sub-interval of a symbol of the alphabet is non-empty and inside the interval. -/
theorem sym_bounds (m : SymModel) (hm : m.wf) (sym len : Nat) (hs : sym < m.nsym) (h : 2 ^ 24 ≤ len) :
    symLow m sym len < symHigh m sym len ∧ symHigh m sym len ≤ len := by
  have h15 : ∀ i, (m.dist.getD i 0#32).toNat * (len >>> 15) ≤ 32767 * (len >>> 15) := fun i =>
    Nat.mul_le_mul_right _ (dist_le m hm i)
  have hl : 32767 * (len >>> 15) < len ∧ 1 ≤ len >>> 15 := by
    rw [Nat.shiftRight_eq_div_pow]
    omega
  unfold symLow symHigh
  split
  · have := h15 sym
    omega
  · have h1 := dist_lt m hm sym (sym + 1) (by omega) (by omega)
    have h2 := h15 (sym + 1)
    refine ⟨Nat.mul_lt_mul_of_pos_right h1 hl.2, by omega⟩

/-! ## Coding on a model -/

/-- What an encoding operation that emits at most `n` bytes leaves for the next one. -/
def EncRun (n : Nat) (s t : State) : Prop :=
  EncFrame s t ∧ t.stageWf ∧ t.carryRoom ∧ 2 ^ 24 ≤ t.length.toNat ∧ t.ffrun.toNat ≤ s.ffrun.toNat + n

/-- A state an encoding operation may start in. -/
def EncReady (s : State) : Prop := s.stageWf ∧ s.carryRoom ∧ 2 ^ 24 ≤ s.length.toNat

theorem EncRun.ready {n : Nat} {s t : State} (h : EncRun n s t) : EncReady t := ⟨h.2.1, h.2.2.1, h.2.2.2.1⟩

theorem EncRun.trans {m n : Nat} {s t u : State} (h1 : EncRun m s t) (h2 : EncRun n t u) : EncRun (m + n) s u := by
  obtain ⟨a1, -, -, -, a2⟩ := h1
  obtain ⟨b1, b2, b3, b4, b5⟩ := h2
  exact ⟨a1.trans b1, b2, b3, b4, by omega⟩

theorem EncRun.full {m n : Nat} {s t u : State} (h1 : EncRun m s t) (h2 : EncFull n t u) : EncFull (m + n) s u := by
  obtain ⟨a1, -, -, -, a2⟩ := h1
  obtain ⟨b1, b2, b3⟩ := h2
  exact ⟨a1.trans b1, b2, by omega⟩

theorem EncRun.mono {m n : Nat} {s t : State} (h : EncRun m s t) (hmn : m ≤ n) : EncRun n s t := by
  obtain ⟨a1, a2, a3, a4, a5⟩ := h
  exact ⟨a1, a2, a3, a4, by omega⟩

theorem EncFull.mono {m n : Nat} {s t : State} (h : EncFull m s t) (hmn : m ≤ n) : EncFull n s t :=
  ⟨h.1, h.2.1, by have := h.2.2; omega⟩

theorem EncDone.run {x l : Nat} {s t : State} (h : EncDone x l (renormCount l) s t) (h1 : 1 ≤ l) (h2 : l < 2 ^ 32) :
    EncRun 3 s t := by
  have h3 := h.room h1 h2
  have h4 := renormCount_le l
  exact ⟨h.1.frame, h.2.1, h3.2, h3.1, by have := h.2.2.2; omega⟩

/-- EncBit (R122). -/
theorem codeBit_spec (m : BitModel) (hm : m.wf) (bit : BitVec 1) (s : State) (hs : EncReady s) :
    (∃ t, codeBit m bit s = .ok (bmObserve bit m) t ∧ EncRun 3 s t ∧
      EncDone (bitPart m bit s.length.toNat).1 (bitPart m bit s.length.toNat).2
        (renormCount (bitPart m bit s.length.toNat).2) s t) ∨
    (∃ t, codeBit m bit s = .raise .outputStage 0#32 t ∧ EncFull 3 s t) := by
  obtain ⟨hw, hr, hl⟩ := hs
  have hL := s.length.isLt
  obtain ⟨b1, b2, b3, b4⟩ := bitPart_bounds m hm bit _ hl
  have hx : bitSplit m s = bitPoint m s.length.toNat := rfl
  have key : ∃ t, encBitNarrow m bit s = .ok () t ∧
      EncDone (bitPart m bit s.length.toNat).1 (bitPart m bit s.length.toNat).2 0 s t := by
    unfold encBitNarrow
    by_cases h0 : bit = 0#1
    · have hp : bitPart m bit s.length.toNat = (0, bitPoint m s.length.toNat) := by simp [bitPart, h0]
      rw [hp]
      have hu : (u32 (bitPoint m s.length.toNat)).toNat = bitPoint m s.length.toNat := u32_toNat_of_lt (by omega)
      refine ⟨s.setLength (u32 (bitPoint m s.length.toNat)), by simp [h0, hx], ?_⟩
      have hb := s.base.isLt
      refine ⟨⟨by rw [Nat.pow_zero, Nat.mul_one, Nat.add_zero]; rfl, ?_, by simpa using hu, rfl,
        (EncFrame.refl s).setLength _⟩, hw, ?_, by simp⟩
      · simp only [State.setLength_base, Nat.pow_zero, Nat.mul_one, Nat.add_zero]
        omega
      · intro h
        have := hr h
        simp only [State.setLength_base, Nat.pow_zero, Nat.mul_one]
        omega
    · have hp : bitPart m bit s.length.toNat =
          (bitPoint m s.length.toNat, s.length.toNat - bitPoint m s.length.toNat) := by simp [bitPart, h0]
      rw [hp]
      obtain ⟨t, e, t1, t2⟩ := addBase_narrow (bitPoint m s.length.toNat) (s.length.toNat - bitPoint m s.length.toNat) s hw
        (fun h => by have := hr h; omega) (by omega) (by omega)
      refine ⟨t.setLength (u32 (t.length.toNat - bitPoint m s.length.toNat)), by simp [h0, hx, e], ?_⟩
      rw [t1]
      exact t2
  obtain ⟨u, eu, du⟩ := key
  unfold codeBit
  rw [eu]
  simp only [Res.bind_ok]
  have hlt : (bitPart m bit s.length.toNat).2 < 2 ^ 32 := by omega
  have h3 := renormCount_le (bitPart m bit s.length.toNat).2
  rcases encNormalize_narrowed du b1 with ⟨t, e, d⟩ | ⟨t, e, d⟩
  · rw [e]
    exact .inl ⟨t, rfl, d.run b1 hlt, d⟩
  · rw [e]
    exact .inr ⟨t, rfl, d.mono h3⟩

/-- The bounds of a symbol, as the coder looks them up. -/
theorem symUpper_ok (m : SymModel) (hm : m.wf) (sym : Nat) (s : State) (hs : sym < m.nsym) :
    symUpper m sym s = .ok (symHigh m sym s.length.toNat) s := by
  have hlen := hm.2.2.2.1
  unfold symUpper symHigh
  by_cases h : sym + 1 = m.nsym
  · simp [h]
  · have h1 : m.dist[sym + 1]? = some (m.dist.getD (sym + 1) 0#32) := getD_getElem? (by omega)
    simp only [h, if_false, lookup_of_getElem? h1, Res.bind_ok]
    rfl

theorem lookup_dist_ok (m : SymModel) (hm : m.wf) (sym : Nat) (s : State) (hs : sym < m.nsym) :
    lookup m.dist sym s = .ok (m.dist.getD sym 0#32) s :=
  lookup_of_getElem? (getD_getElem? (by have := hm.2.2.2.1; omega)) s

/-- EncSym (R123). -/
theorem codeSym_spec (m : SymModel) (hm : m.wf) (sym : Nat) (hy : sym < m.nsym) (s : State) (hs : EncReady s) :
    (∃ t, codeSym m sym s = .ok (smObserve sym m) t ∧ EncRun 3 s t ∧
      EncDone (symLow m sym s.length.toNat) (symHigh m sym s.length.toNat - symLow m sym s.length.toNat)
        (renormCount (symHigh m sym s.length.toNat - symLow m sym s.length.toNat)) s t) ∨
    (∃ t, codeSym m sym s = .raise .outputStage 0#32 t ∧ EncFull 3 s t) := by
  obtain ⟨hw, hr, hl⟩ := hs
  have hL := s.length.isLt
  obtain ⟨b1, b2⟩ := sym_bounds m hm sym _ hy hl
  obtain ⟨t, e, t1, t2⟩ := addBase_narrow (symLow m sym s.length.toNat)
    (symHigh m sym s.length.toNat - symLow m sym s.length.toNat) s hw (fun h => by have := hr h; omega) (by omega) (by omega)
  have key : encSymNarrow m sym s =
      .ok () (t.setLength (u32 (symHigh m sym s.length.toNat - symLow m sym s.length.toNat))) := by
    unfold encSymNarrow
    rw [lookup_dist_ok m hm sym s hy]
    simp only [Res.bind_ok, symUpper_ok m hm sym s hy]
    have hx : (m.dist.getD sym 0#32).toNat * symUnit s = symLow m sym s.length.toNat := rfl
    rw [hx, e]
    rfl
  unfold codeSym
  rw [key]
  simp only [Res.bind_ok]
  have h3 := renormCount_le (symHigh m sym s.length.toNat - symLow m sym s.length.toNat)
  rcases encNormalize_narrowed t2 (by omega) with ⟨u, eu, du⟩ | ⟨u, eu, du⟩
  · rw [eu]
    exact .inl ⟨u, rfl, du.run (by omega) (by omega), du⟩
  · rw [eu]
    exact .inr ⟨u, rfl, du.mono h3⟩

/-! ## The flush (R125) -/

/-- The flush of an encoding session: `z` of the last four bytes are zeros, the others name a point of the interval. -/
theorem flushInterval_spec (s : State) (hs : EncReady s) (hf : s.ffrun.toNat + 2 < 2 ^ 32) :
    ∃ t, flushInterval s = .ok () t ∧ EncFrame s t ∧ t.produced.length = s.produced.length + 4 ∧
      (2 ^ 25 < s.length.toNat → bigEndian t.produced = (s.lowEnd + 2 ^ 24) / 2 ^ 24 * 2 ^ 24) ∧
      (s.length.toNat ≤ 2 ^ 25 → bigEndian t.produced = (s.lowEnd + 2 ^ 23) / 2 ^ 16 * 2 ^ 16) := by
  obtain ⟨hw, hr, hl⟩ := hs
  have hL := s.length.isLt
  have key : ∀ (x l k z : Nat) (w : Word), u32 l = w → x + l ≤ s.length.toNat → 1 ≤ l → l < 2 ^ 24 → renormCount l = k → k ≤ 2 →
      ∃ t, ((addBase x s).bind fun _ s => (encRenorm (s.setLength w)).bind fun _ s => emitZeros z s) = .ok () t ∧
        EncFrame s t ∧ t.produced.length = s.produced.length + (k + z) ∧
        ∃ b : Nat, b < 2 ^ 32 ∧ ∃ p : Nat, p * 2 ^ 32 + b = (s.lowEnd + x) * 256 ^ k ∧ bigEndian t.produced = p * 256 ^ z := by
    intro x l k z w hlw h1 h2 h3 h4 h5
    subst hlw
    obtain ⟨u, e, u1, u2⟩ := addBase_narrow x l s hw (fun h => by have := hr h; omega) h2 (by omega)
    have ul : (u.setLength (u32 l)).length.toNat = l := by simpa using u2.1.2.2.1
    have hren := encRenorm_spec (u.setLength (u32 l)) u2.2.1 (by rw [ul]; simpa using u2.2.2.1) (by omega) (by omega)
    rw [ul, h4] at hren
    rw [e]
    simp only [Res.bind_ok]
    rcases hren with ⟨v, ev, dv⟩ | ⟨v, ev, dv⟩
    · have d := u2.trans (by simpa using dv)
      simp only [Nat.zero_add] at d
      obtain ⟨t, et, t1, t2, t3, t4⟩ := emitZeros_spec z v d.2.1
      rw [ev]
      refine ⟨t, et, d.1.frame.trans t4, ?_, v.base.toNat, v.base.isLt, bigEndian v.produced, d.1.1, ?_⟩
      · rw [t1, List.length_append, List.length_replicate, d.1.2.2.2.1]
        omega
      · rw [t1, bigEndian_append, bigEndian_replicate_zero, List.length_replicate]
        omega
    · have h6 := dv.2.2
      have h7 := u2.2.2.2
      omega
  have div1 : ∀ p b q : Nat, b < 2 ^ 32 → p * 2 ^ 32 + b = q * 256 ^ 1 → p * 256 ^ 3 = q / 2 ^ 24 * 2 ^ 24 := by
    intro p b q hb hp
    have h : p = q / 2 ^ 24 := by omega
    rw [h, show (256 : Nat) ^ 3 = 2 ^ 24 from by norm_num]
  have div2 : ∀ p b q : Nat, b < 2 ^ 32 → p * 2 ^ 32 + b = q * 256 ^ 2 → p * 256 ^ 2 = q / 2 ^ 16 * 2 ^ 16 := by
    intro p b q hb hp
    have h : p = q / 2 ^ 16 := by omega
    rw [h, show (256 : Nat) ^ 2 = 2 ^ 16 from by norm_num]
  unfold flushInterval AC_MIN_LENGTH
  by_cases h : 2 * 0x01000000 < s.length.toNat
  · obtain ⟨t, e, f, g, b, hb, p, hp, hq⟩ := key (2 ^ 24) 0x00800000 1 3 0x00800000#32 rfl (by omega) (by omega) (by omega)
      (by norm_num [renormCount]) (by omega)
    refine ⟨t, by rw [if_pos h]; exact e, f, g, fun _ => ?_, fun h' => by clear hp hq; omega⟩
    rw [hq]
    exact div1 p b _ hb hp
  · obtain ⟨t, e, f, g, b, hb, p, hp, hq⟩ := key (2 ^ 23) 0x00008000 2 2 0x00008000#32 rfl (by omega) (by omega) (by omega)
      (by norm_num [renormCount]) (by omega)
    refine ⟨t, by rw [if_neg h]; exact e, f, g, fun h' => by clear hp hq; omega, fun _ => ?_⟩
    rw [hq]
    exact div2 p b _ hb hp

/-- The flush whatever the run counter holds. -/
theorem flushInterval_run (s : State) (hs : EncReady s) :
    (∃ t, flushInterval s = .ok () t ∧ EncFrame s t) ∨
    (∃ t, flushInterval s = .raise .outputStage 0#32 t ∧ EncFull 3 s t) := by
  obtain ⟨hw, hr, hl⟩ := hs
  have hL := s.length.isLt
  have key : ∀ (x l z : Nat) (w : Word), u32 l = w → x + l ≤ s.length.toNat → 1 ≤ l → l < 2 ^ 24 →
      (∃ t, ((addBase x s).bind fun _ s => (encRenorm (s.setLength w)).bind fun _ s => emitZeros z s) = .ok () t ∧
        EncFrame s t) ∨
      (∃ t, ((addBase x s).bind fun _ s => (encRenorm (s.setLength w)).bind fun _ s => emitZeros z s) =
        .raise .outputStage 0#32 t ∧ EncFull 3 s t) := by
    intro x l z w hlw h1 h2 h3
    subst hlw
    obtain ⟨u, e, u1, u2⟩ := addBase_narrow x l s hw (fun h => by have := hr h; omega) h2 (by omega)
    have ul : (u.setLength (u32 l)).length.toNat = l := by simpa using u2.1.2.2.1
    have hren := encRenorm_spec (u.setLength (u32 l)) u2.2.1 (by rw [ul]; simpa using u2.2.2.1) (by omega) (by omega)
    rw [ul] at hren
    have hc := renormCount_le l
    rw [e]
    simp only [Res.bind_ok]
    rcases hren with ⟨v, ev, dv⟩ | ⟨v, ev, dv⟩
    · obtain ⟨t, et, t1, t2, t3, t4⟩ := emitZeros_spec z v dv.2.1
      rw [ev]
      exact .inl ⟨t, et, (u2.1.frame.trans dv.1.frame).trans t4⟩
    · rw [ev]
      have h6 := dv.2.2
      have h7 := u2.2.2.2
      exact .inr ⟨v, rfl, u2.1.frame.trans dv.1, dv.2.1, by omega⟩
  unfold flushInterval AC_MIN_LENGTH
  by_cases h : 2 * 0x01000000 < s.length.toNat
  · rw [if_pos h]
    exact key 0x01000000 0x00800000 3 0x00800000#32 rfl (by omega) (by omega) (by omega)
  · rw [if_neg h]
    exact key 0x00800000 0x00008000 2 0x00008000#32 rfl (by omega) (by omega) (by omega)

/-! ## The run counter at its end (R128) -/

/-- What the encoder changes while every byte it hands out is held: BASE, LENGTH and FFRUN. -/
def HeldFrame (s t : State) : Prop := t = { s with base := t.base, length := t.length, ffrun := t.ffrun }

theorem HeldFrame.trans {s t u : State} (h1 : HeldFrame s t) (h2 : HeldFrame t u) : HeldFrame s u := by
  unfold HeldFrame at *
  rw [h1] at h2
  exact h2

theorem held_frame (x l : Nat) (s : State) : HeldFrame s (held x l s) := rfl

theorem held_length (x l : Nat) (s : State) (h1 : 1 ≤ l) (h2 : l < 2 ^ 32) : 2 ^ 24 ≤ (held x l s).length.toNat := by
  have h := renormCount_spec l h1 h2
  show _ ≤ (u32 (l * 256 ^ renormCount l)).toNat
  rw [u32_toNat_of_lt h.2]
  exact h.1

/-- A byte 0xFF behind a pending byte is counted, or finds the counter full. -/
theorem emit_ff (s : State) (hv : s.cacheValid = true) :
    emit 0xFF#8 s = if s.ffrun = 0xFFFFFFFF#32 then .raise .outputStage 0#32 s
      else .ok () (s.setStage true s.cache (s.ffrun + 1#32)) := by
  simp [emit, hv]

/-- One iteration of the loop on a BASE whose top byte is 0xFF. -/
theorem encRenormLoop_ff (fuel : Nat) (s : State) (hv : s.cacheValid = true) (hb : 255 * 2 ^ 24 ≤ s.base.toNat)
    (hf : s.ffrun.toNat + 1 < 2 ^ 32) (hl : s.length.toNat < 2 ^ 24) :
    ∃ u : State, u = { s with base := u32 (s.base.toNat * 256), length := u32 (s.length.toNat * 256),
                              ffrun := u32 (s.ffrun.toNat + 1) } ∧
      u.base.toNat = s.base.toNat * 256 - 255 * 2 ^ 32 ∧ u.length.toNat = s.length.toNat * 256 ∧
      u.ffrun.toNat = s.ffrun.toNat + 1 ∧
      encRenormLoop (fuel + 1) s = if 2 ^ 24 ≤ s.length.toNat * 256 then .ok () u else encRenormLoop fuel u := by
  have hB := s.base.isLt
  have htop : s.base.extractLsb' 24 8 = 0xFF#8 := by
    apply BitVec.eq_of_toNat_eq
    rw [topByte_toNat]
    show _ = 255
    omega
  have hne : s.ffrun ≠ 0xFFFFFFFF#32 := fun h => by rw [h] at hf; revert hf; decide
  have hbase : s.base <<< 8 = u32 (s.base.toNat * 256) := by
    apply BitVec.eq_of_toNat_eq
    rw [shiftLeft8_toNat]
    simp [u32]
  have hlen : s.length <<< 8 = u32 (s.length.toNat * 256) := by
    apply BitVec.eq_of_toNat_eq
    rw [shiftLeft8_toNat]
    simp [u32]
  have hrun : s.ffrun + 1#32 = u32 (s.ffrun.toNat + 1) := by
    apply BitVec.eq_of_toNat_eq
    simp [u32, BitVec.toNat_add]
  have hl' : (u32 (s.length.toNat * 256)).toNat = s.length.toNat * 256 := u32_toNat_of_lt (by omega)
  refine ⟨_, rfl, ?_, hl', u32_toNat_of_lt hf, ?_⟩
  · show (u32 (s.base.toNat * 256)).toNat = _
    simp only [u32, BitVec.toNat_ofNat]
    omega
  · rw [encRenormLoop, htop, emit_ff s hv, if_neg hne]
    simp only [Res.bind_ok, State.setStage, State.setBase, State.setLength, hbase, hlen, hrun, hl', hv]
    rfl

/-- The byte the counter cannot take is among the bytes of the loop. -/
theorem encRenormLoop_full (j fuel : Nat) (s : State) (hv : s.cacheValid = true) (h1 : 1 ≤ s.length.toNat)
    (h2 : s.length.toNat < 2 ^ 24) (hj : j < renormCount s.length.toNat) (hk : renormCount s.length.toNat ≤ fuel)
    (hf : s.ffrun.toNat + (j + 1) = 2 ^ 32) (hb : 2 ^ 32 - 256 ^ (4 - (j + 1)) ≤ s.base.toNat) :
    ∃ t, encRenormLoop fuel s = .raise .outputStage 0#32 t ∧ HeldFrame s t := by
  have hc := renormCount_le s.length.toNat
  induction j generalizing fuel s with
  | zero =>
    obtain ⟨fuel, rfl⟩ : ∃ f, fuel = f + 1 := ⟨fuel - 1, by omega⟩
    have hB := s.base.isLt
    have htop : s.base.extractLsb' 24 8 = 0xFF#8 := by
      apply BitVec.eq_of_toNat_eq
      rw [topByte_toNat]
      show _ = 255
      norm_num at hb
      omega
    have hfull : s.ffrun = 0xFFFFFFFF#32 := by
      apply BitVec.eq_of_toNat_eq
      show _ = 4294967295
      omega
    refine ⟨s, ?_, rfl⟩
    rw [encRenormLoop, htop, emit_ff s hv, if_pos hfull]
    rfl
  | succ j ih =>
    obtain ⟨fuel, rfl⟩ : ∃ f, fuel = f + 1 := ⟨fuel - 1, by omega⟩
    have hstep := renormCount_step _ h1 h2
    have hbound : 255 * 2 ^ 24 ≤ s.base.toNat ∧ 2 ^ 32 - 256 ^ (4 - (j + 1)) ≤ s.base.toNat * 256 - 255 * 2 ^ 32 := by
      obtain rfl | rfl : j = 0 ∨ j = 1 := by omega
      all_goals norm_num at hb ⊢; omega
    obtain ⟨u, hu, u1, u2, u3, e⟩ := encRenormLoop_ff fuel s hv hbound.1 (by omega) h2
    have hz := (renormCount_zero (s.length.toNat * 256)).not.mp (by omega)
    rw [e, if_neg hz]
    obtain ⟨t, et, ft⟩ := ih fuel u (by rw [hu]; exact hv) (by omega) (by omega) (by rw [u2]; omega) (by rw [u2]; omega)
      (by omega) (by rw [u1]; exact hbound.2) (renormCount_le _)
    exact ⟨t, et, HeldFrame.trans (by rw [hu]; rfl) ft⟩

/-- All bytes of the loop are held. -/
theorem encRenormLoop_held (fuel : Nat) (s : State) (hv : s.cacheValid = true) (h1 : 1 ≤ s.length.toNat)
    (h2 : s.length.toNat < 2 ^ 24) (hk : renormCount s.length.toNat ≤ fuel)
    (hf : s.ffrun.toNat + renormCount s.length.toNat < 2 ^ 32)
    (hb : 2 ^ 32 - 256 ^ (4 - renormCount s.length.toNat) ≤ s.base.toNat) :
    encRenormLoop fuel s = .ok () (held 0 s.length.toNat s) := by
  have hc := renormCount_le s.length.toNat
  induction fuel generalizing s with
  | zero =>
    have := (renormCount_zero s.length.toNat).mp (by omega)
    omega
  | succ fuel ih =>
    have hstep := renormCount_step _ h1 h2
    generalize hr : renormCount (s.length.toNat * 256) = r at hstep
    rw [hstep] at hb hf hk hc
    have hbound : 255 * 2 ^ 24 ≤ s.base.toNat ∧ 2 ^ 32 - 256 ^ (4 - r) ≤ s.base.toNat * 256 - 255 * 2 ^ 32 := by
      obtain rfl | rfl | rfl : r = 0 ∨ r = 1 ∨ r = 2 := by omega
      all_goals norm_num at hb ⊢; omega
    obtain ⟨u, hu, u1, u2, u3, e⟩ := encRenormLoop_ff fuel s hv hbound.1 (by omega) h2
    have hpow : ∀ a : Nat, a * 256 * 256 ^ r = a * 256 ^ (r + 1) := fun a => by rw [Nat.pow_succ]; ring
    have hbase : u32 ((u32 (s.base.toNat * 256)).toNat * 256 ^ r) = u32 (s.base.toNat * 256 ^ (r + 1)) := by
      apply BitVec.eq_of_toNat_eq
      simp only [u32, BitVec.toNat_ofNat]
      rw [pow256_mod, hpow]
    have heq : held 0 u.length.toNat u = held 0 s.length.toNat s := by
      unfold held
      rw [hstep, u2, hr, u3, hpow, hu]
      simp only [Nat.add_zero, hbase, Nat.add_assoc, Nat.add_comm 1]
    by_cases hz : 2 ^ 24 ≤ s.length.toNat * 256
    · rw [e, if_pos hz, ← heq]
      have h0 := (renormCount_zero u.length.toNat).mpr (by omega)
      unfold held
      simp [h0]
    · rw [e, if_neg hz, ← heq]
      exact ih u (by rw [hu]; exact hv) (by omega) (by omega) (by rw [u2]; omega) (by rw [u2, u3]; omega)
        (by rw [u2, hr, u1]; exact hbound.2) (renormCount_le _)

/-- The state a narrowing step without a carry leaves before it renormalises. -/
def narrowTo (x l : Nat) (s : State) : State := (s.setBase (u32 (s.base.toNat + x))).setLength (u32 l)

theorem addBase_noCarry (x : Nat) (s : State) (h : s.base.toNat + x < 2 ^ 32) :
    addBase x s = .ok () (s.setBase (u32 (s.base.toNat + x))) := by
  simp only [addBase]
  rw [if_neg (by omega)]

/-- A narrowing step that overflows raises, and has written nothing. -/
theorem encNormalize_overflows {x l : Nat} {s : State} (h : s.overflows x l) (h1 : 1 ≤ l) (h2 : l < 2 ^ 32) :
    ∃ t, encNormalize (narrowTo x l s) = .raise .outputStage 0#32 t ∧ HeldFrame s t := by
  obtain ⟨hv, hc, j, hj, hf, hb⟩ := h
  have hF := s.ffrun.isLt
  have hl : (narrowTo x l s).length.toNat = l := u32_toNat_of_lt h2
  have hbase : (narrowTo x l s).base.toNat = s.base.toNat + x := u32_toNat_of_lt hc
  have hlt : l < 2 ^ 24 := by
    have := (renormCount_zero l).not.mp (by omega)
    omega
  unfold encNormalize
  rw [if_pos (by rw [hl]; exact hlt)]
  obtain ⟨i, rfl⟩ : ∃ i, j = i + 1 := ⟨j - 1, by omega⟩
  obtain ⟨t, e, f⟩ := encRenormLoop_full i 3 (narrowTo x l s) hv (by omega) (by omega) (by rw [hl]; omega) (renormCount_le _) hf
    (by rw [hbase]; exact hb)
  exact ⟨t, e, HeldFrame.trans (by rfl) f⟩

/-- The same of a step whose bytes are all held. -/
theorem encNormalize_holdsAll {x l : Nat} {s : State} (h : s.holdsAll x l) (h1 : 1 ≤ l) (h2 : l < 2 ^ 32) :
    encNormalize (narrowTo x l s) = .ok () (held x l s) := by
  obtain ⟨hv, hc, hf, hb⟩ := h
  have hl : (narrowTo x l s).length.toNat = l := u32_toNat_of_lt h2
  have hbase : (narrowTo x l s).base.toNat = s.base.toNat + x := u32_toNat_of_lt hc
  have heq : held 0 l (narrowTo x l s) = held x l s := by
    unfold held
    rw [hbase]
    rfl
  unfold encNormalize
  by_cases hlt : l < 2 ^ 24
  · rw [if_pos (by rw [hl]; exact hlt), ← heq]
    have := encRenormLoop_held 3 (narrowTo x l s) hv (by omega) (by omega) (renormCount_le _) (by rw [hl]; exact hf)
      (by rw [hl, hbase]; exact hb)
    rw [hl] at this
    exact this
  · rw [if_neg (by rw [hl]; exact hlt)]
    have h0 := (renormCount_zero l).mpr (by omega)
    unfold held narrowTo State.setBase State.setLength
    simp [h0]

/-- ENC_BIT's arithmetic where it makes no carry. -/
theorem encBitNarrow_noCarry (m : BitModel) (bit : BitVec 1) (s : State)
    (hc : s.base.toNat + (bitPart m bit s.length.toNat).1 < 2 ^ 32) :
    encBitNarrow m bit s = .ok () (narrowTo (bitPart m bit s.length.toNat).1 (bitPart m bit s.length.toNat).2 s) := by
  have hx : bitSplit m s = bitPoint m s.length.toNat := rfl
  unfold encBitNarrow bitPart at *
  by_cases h0 : bit = 0#1
  · simp only [h0, if_true, hx, narrowTo, Nat.add_zero, u32_toNat]
    rfl
  · simp only [h0, if_false] at hc ⊢
    simp only [hx, addBase_noCarry _ s hc, Res.bind_ok]
    rfl

theorem codeBit_overflows (m : BitModel) (hm : m.wf) (bit : BitVec 1) (s : State) (hl : 2 ^ 24 ≤ s.length.toNat)
    (h : s.overflows (bitPart m bit s.length.toNat).1 (bitPart m bit s.length.toNat).2) :
    ∃ t, codeBit m bit s = .raise .outputStage 0#32 t ∧ HeldFrame s t := by
  have hL := s.length.isLt
  obtain ⟨b1, b2, -⟩ := bitPart_bounds m hm bit _ hl
  obtain ⟨t, e, f⟩ := encNormalize_overflows h b1 (by omega)
  refine ⟨t, ?_, f⟩
  simp only [codeBit, encBitNarrow_noCarry m bit s h.2.1, Res.bind_ok, e, Res.bind_raise]

/-- ENC_SYM's arithmetic where it makes no carry. -/
theorem encSymNarrow_noCarry (m : SymModel) (hm : m.wf) (sym : Nat) (hy : sym < m.nsym) (s : State)
    (hc : s.base.toNat + symLow m sym s.length.toNat < 2 ^ 32) :
    encSymNarrow m sym s = .ok () (narrowTo (symLow m sym s.length.toNat)
      (symHigh m sym s.length.toNat - symLow m sym s.length.toNat) s) := by
  unfold encSymNarrow
  rw [lookup_dist_ok m hm sym s hy]
  simp only [Res.bind_ok, symUpper_ok m hm sym s hy]
  have hx : (m.dist.getD sym 0#32).toNat * symUnit s = symLow m sym s.length.toNat := rfl
  rw [hx, addBase_noCarry _ s hc]
  rfl

theorem codeSym_overflows (m : SymModel) (hm : m.wf) (sym : Nat) (hy : sym < m.nsym) (s : State)
    (hl : 2 ^ 24 ≤ s.length.toNat)
    (h : s.overflows (symLow m sym s.length.toNat) (symHigh m sym s.length.toNat - symLow m sym s.length.toNat)) :
    ∃ t, codeSym m sym s = .raise .outputStage 0#32 t ∧ HeldFrame s t := by
  have hL := s.length.isLt
  obtain ⟨b1, b2⟩ := sym_bounds m hm sym _ hy hl
  obtain ⟨t, e, f⟩ := encNormalize_overflows h (by omega) (by omega)
  refine ⟨t, ?_, f⟩
  simp only [codeSym, encSymNarrow_noCarry m hm sym hy s h.2.1, Res.bind_ok, e, Res.bind_raise]

theorem codeSym_holdsAll (m : SymModel) (hm : m.wf) (sym : Nat) (hy : sym < m.nsym) (s : State)
    (hl : 2 ^ 24 ≤ s.length.toNat)
    (h : s.holdsAll (symLow m sym s.length.toNat) (symHigh m sym s.length.toNat - symLow m sym s.length.toNat)) :
    codeSym m sym s = .ok (smObserve sym m)
      (held (symLow m sym s.length.toNat) (symHigh m sym s.length.toNat - symLow m sym s.length.toNat) s) := by
  have hL := s.length.isLt
  obtain ⟨b1, b2⟩ := sym_bounds m hm sym _ hy hl
  simp only [codeSym, encSymNarrow_noCarry m hm sym hy s h.2.1, Res.bind_ok, encNormalize_holdsAll h (by omega) (by omega)]

/-- A direct step where it makes no carry. -/
theorem encDirectStep_noCarry (n d : Nat) (s : State) (hc : s.base.toNat + d * (s.length.toNat >>> n) < 2 ^ 32) :
    encDirectStep n d s = encNormalize (narrowTo (d * (s.length.toNat >>> n)) (s.length.toNat >>> n) s) := by
  have hs : (s.length >>> n).toNat = s.length.toNat >>> n := BitVec.toNat_ushiftRight _ _
  have hu : u32 (s.length.toNat >>> n) = s.length >>> n := by rw [← hs, u32_toNat]
  unfold encDirectStep
  simp only [State.setLength_length, hs]
  rw [addBase_noCarry _ _ (by exact hc)]
  unfold narrowTo
  rw [hu]
  rfl

theorem encDirect_overflows (n v : Nat) (s : State) (hl : 2 ^ 24 ≤ s.length.toNat) (hn : n ≤ 32) (h : s.overflowsDirect n v) :
    ∃ t, encDirect n v s = .raise .outputStage 0#32 t ∧ HeldFrame s t := by
  have hL := s.length.isLt
  have one : ∀ (n d : Nat) (s : State), n ≤ 19 → 2 ^ 24 ≤ s.length.toNat →
      s.overflows (d * (s.length.toNat >>> n)) (s.length.toNat >>> n) →
      ∃ t, encDirectStep n d s = .raise .outputStage 0#32 t ∧ HeldFrame s t := by
    intro n d s hn hl h
    have hL := s.length.isLt
    have h24 : 2 ^ n ≤ 2 ^ 24 := Nat.pow_le_pow_right (by omega) (by omega)
    have hp : 1 ≤ s.length.toNat >>> n ∧ s.length.toNat >>> n ≤ s.length.toNat := by
      rw [Nat.shiftRight_eq_div_pow]
      exact ⟨(Nat.one_le_div_iff (by positivity)).mpr (by omega), Nat.div_le_self _ _⟩
    rw [encDirectStep_noCarry n d s h.2.1]
    exact encNormalize_overflows h hp.1 (by omega)
  unfold encDirect DIRECT_SPLIT
  rcases h with ⟨h1, h⟩ | ⟨h1, h⟩ | ⟨h1, hh, h⟩
  · rw [if_neg (by omega)]
    exact one n v s h1 hl h
  · rw [if_pos h1]
    obtain ⟨t, e, f⟩ := one 16 _ s (by omega) hl h
    exact ⟨t, by rw [e]; rfl, f⟩
  · rw [if_pos h1, encDirectStep_noCarry 16 _ s hh.2.1]
    have hp : 1 ≤ s.length.toNat >>> 16 ∧ s.length.toNat >>> 16 < 2 ^ 32 := by
      rw [Nat.shiftRight_eq_div_pow]
      omega
    rw [encNormalize_holdsAll hh hp.1 hp.2]
    simp only [Res.bind_ok, Nat.shiftRight_eq_div_pow v]
    obtain ⟨t, e, f⟩ := one (n - 16) (v / 2 ^ 16) _ (by omega) (held_length _ _ s hp.1 hp.2) h
    exact ⟨t, e, (held_frame _ _ s).trans f⟩

theorem flushInterval_overflows (s : State) (h1 : 2 ^ 25 < s.length.toNat → s.overflows (2 ^ 24) (2 ^ 23))
    (h2 : s.length.toNat ≤ 2 ^ 25 → s.overflows (2 ^ 23) (2 ^ 15)) :
    ∃ t, flushInterval s = .raise .outputStage 0#32 t ∧ HeldFrame s t := by
  have key : ∀ (x l z : Nat) (w : Word), u32 l = w → 1 ≤ l → l < 2 ^ 24 → s.overflows x l →
      ∃ t, ((addBase x s).bind fun _ s => (encRenorm (s.setLength w)).bind fun _ s => emitZeros z s) =
        .raise .outputStage 0#32 t ∧ HeldFrame s t := by
    intro x l z w hw g1 g2 h
    subst hw
    obtain ⟨t, e, f⟩ := encNormalize_overflows h g1 (by omega)
    have hl : (narrowTo x l s).length.toNat = l := u32_toNat_of_lt (by omega)
    unfold encNormalize at e
    rw [if_pos (by rw [hl]; exact g2)] at e
    refine ⟨t, ?_, f⟩
    rw [addBase_noCarry x s h.2.1]
    simp only [Res.bind_ok]
    change (encRenorm (narrowTo x l s)).bind _ = _
    rw [e]
    rfl
  unfold flushInterval AC_MIN_LENGTH
  by_cases h : 2 * 0x01000000 < s.length.toNat
  · rw [if_pos h]
    have h := h1 (by omega)
    rw [show 2 ^ 24 = 0x01000000 from rfl, show 2 ^ 23 = 0x00800000 from rfl] at h
    exact key 0x01000000 0x00800000 3 0x00800000#32 rfl (by omega) (by omega) h
  · rw [if_neg h]
    have h := h2 (by omega)
    rw [show 2 ^ 23 = 0x00800000 from rfl, show 2 ^ 15 = 0x00008000 from rfl] at h
    exact key 0x00800000 0x00008000 2 0x00008000#32 rfl (by omega) (by omega) h

end Sys2Proof.Machine
end

