-- ==== Sys2Proof/Laws/Decoder.lean ====
section
/-! SUPPORT. The decoder's procedures on a model (41_decoder.md R152, R153, R158) and its direct bits and priming. -/

namespace Sys2Proof.Machine

/-! ## The symbol search (R158) -/

/-- The search stops at the first upper bound above the scaled value, or past the last. -/
theorem searchFrom_spec (l v : Nat) (ds : List Word) (s : Nat) :
    s ≤ searchFrom l v ds s ∧ searchFrom l v ds s ≤ s + ds.length ∧
    (∀ i, i < searchFrom l v ds s - s → (ds.getD i 0#32).toNat * l ≤ v) ∧
    (searchFrom l v ds s < s + ds.length → v < (ds.getD (searchFrom l v ds s - s) 0#32).toNat * l) := by
  induction ds generalizing s with
  | nil => simp [searchFrom]
  | cons d ds ih =>
    unfold searchFrom
    by_cases h : v < d.toNat * l
    · simp [h]
    · simp only [h, if_false, List.length_cons]
      obtain ⟨a, b, c, e⟩ := ih (s + 1)
      refine ⟨by omega, by omega, ?_, ?_⟩
      · intro i hi
        cases i with
        | zero =>
          simp only [List.getD_cons_zero]
          omega
        | succ i =>
          simp only [List.getD_cons_succ]
          exact c i (by omega)
      · intro hlt
        have h1 := e (by omega)
        obtain ⟨k, hk⟩ : ∃ k, searchFrom l v ds (s + 1) - s = k + 1 := ⟨searchFrom l v ds (s + 1) - (s + 1), by omega⟩
        rw [hk, List.getD_cons_succ]
        have h2 : searchFrom l v ds (s + 1) - (s + 1) = k := by omega
        rwa [h2] at h1

/-- The symbol found belongs to the alphabet, and the value lies in its sub-interval, whose last upper end is not checked. -/
theorem symbolSearch_spec (m : SymModel) (hm : m.wf) (len v : Nat) :
    symbolSearch m (len >>> 15) v < m.nsym ∧ symLow m (symbolSearch m (len >>> 15) v) len ≤ v ∧
    (symbolSearch m (len >>> 15) v + 1 < m.nsym → v < symHigh m (symbolSearch m (len >>> 15) v) len) := by
  have h2 := hm.1
  have hlen := hm.2.2.2.1
  have h0 := hm.2.2.2.2.2.1
  obtain ⟨-, b, c, e⟩ := searchFrom_spec (len >>> 15) v (m.dist.drop 1) 0
  have hd : ∀ i, (m.dist.drop 1).getD i 0#32 = m.dist.getD (i + 1) 0#32 := fun i => by
    simp [List.getD, Nat.add_comm]
  rw [List.length_drop] at b e
  simp only [hd, Nat.sub_zero, Nat.zero_add] at b c e
  change symbolSearch m (len >>> 15) v ≤ _ at b
  change ∀ i, i < symbolSearch m (len >>> 15) v → _ at c
  change symbolSearch m (len >>> 15) v < _ → v < (m.dist.getD (symbolSearch m (len >>> 15) v + 1) 0#32).toNat * _ at e
  generalize symbolSearch m (len >>> 15) v = r at b c e
  refine ⟨by omega, ?_, ?_⟩
  · unfold symLow
    cases r with
    | zero =>
      have hz : m.dist.getD 0 0#32 = 0#32 := by simp [List.getD, h0]
      rw [hz]
      simp
    | succ i => exact c i (by omega)
  · intro h
    unfold symHigh
    rw [if_neg (by omega)]
    exact e (by omega)

/-- The sub-interval that holds the value is found, whichever it is. -/
theorem symbolSearch_eq (m : SymModel) (hm : m.wf) (len v sym : Nat) (hs : sym < m.nsym) (h1 : symLow m sym len ≤ v)
    (h2 : sym + 1 = m.nsym ∨ v < symHigh m sym len) : symbolSearch m (len >>> 15) v = sym := by
  obtain ⟨a, b, c⟩ := symbolSearch_spec m hm len v
  generalize symbolSearch m (len >>> 15) v = r at a b c
  have mono : ∀ i j, i < j → j < m.nsym → symHigh m i len ≤ symLow m j len := by
    intro i j hij hj
    unfold symHigh symLow
    rw [if_neg (by omega)]
    apply Nat.mul_le_mul_right
    rcases Nat.lt_or_ge (i + 1) j with h | h
    · exact Nat.le_of_lt (dist_lt m hm _ _ h hj)
    · have : i + 1 = j := by omega
      rw [this]
  rcases Nat.lt_trichotomy r sym with h | h | h
  · have h3 := c (by omega)
    have h4 := mono r sym h hs
    omega
  · exact h
  · rcases h2 with h2 | h2
    · omega
    · have h4 := mono sym r h a
      omega

/-! ## Decoding on a model -/

/-- What a decoding operation leaves for the next one. -/
def DecRun (s t : State) : Prop := DecFrame s t ∧ 2 ^ 24 ≤ t.length.toNat

theorem DecRun.trans {s t u : State} (h1 : DecRun s t) (h2 : DecRun t u) : DecRun s u := ⟨h1.1.trans h2.1, h2.2⟩

/-- The two bad ends of a decoding operation: BIN ran out, or a direct value is outside its bits. -/
def DecBad (s : State) (c : Cause) (t : State) : Prop :=
  DecFrame s t ∧ (c = .streamExhausted ∨ c = .streamCorruption)

theorem DecBad.mono {s t u : State} {c : Cause} (h1 : DecFrame s t) (h2 : DecBad t c u) : DecBad s c u :=
  ⟨h1.trans h2.1, h2.2⟩

/-- DecBit (R152). -/
theorem readBit_spec (m : BitModel) (hm : m.wf) (s : State) (hl : 2 ^ 24 ≤ s.length.toNat) :
    (renormCount (bitPart m (foundBit m s) s.length.toNat).2 ≤ s.bin.length ∧
      ∃ t, readBit m s = .ok (foundBit m s, bmObserve (foundBit m s) m) t ∧ DecRun s t ∧
        DecodedTo (s.value.toNat - (bitPart m (foundBit m s) s.length.toNat).1)
          (bitPart m (foundBit m s) s.length.toNat).2 (renormCount (bitPart m (foundBit m s) s.length.toNat).2) s t) ∨
    (s.bin.length < renormCount (bitPart m (foundBit m s) s.length.toNat).2 ∧
      ∃ t, readBit m s = .raise .streamExhausted 0#32 t ∧ t.bin = [] ∧ DecFrame s t) := by
  have hL := s.length.isLt
  have hV := s.value.isLt
  obtain ⟨b1, b2, b3, b4⟩ := bitPart_bounds m hm (foundBit m s) _ hl
  have hx : bitSplit m s = bitPoint m s.length.toNat := rfl
  have key : decBitNarrow m s = (foundBit m s,
      (s.setValue (u32 (s.value.toNat - (bitPart m (foundBit m s) s.length.toNat).1))).setLength
        (u32 (bitPart m (foundBit m s) s.length.toNat).2)) := by
    unfold decBitNarrow foundBit bitPart
    simp only [hx]
    by_cases h : bitPoint m s.length.toNat ≤ s.value.toNat
    · simp [h]
    · simp [h, State.setLength, State.setValue]
  unfold readBit
  rw [key]
  simp only
  rcases decNormalize_narrowed (s.value.toNat - (bitPart m (foundBit m s) s.length.toNat).1)
    (bitPart m (foundBit m s) s.length.toNat).2 s _ b1 (by omega) (by omega) rfl with ⟨k, t, e, d⟩ | ⟨k, t, e, d⟩
  · refine .inl ⟨k, t, ?_, ⟨d.frame, d.room b1 (by omega)⟩, d⟩
    rw [e]
    rfl
  · refine .inr ⟨k, t, ?_, d⟩
    rw [e]
    rfl

/-- DecSym (R153). -/
theorem readSym_spec (m : SymModel) (hm : m.wf) (s : State) (hl : 2 ^ 24 ≤ s.length.toNat) :
    ∃ sym, sym = symbolSearch m (symUnit s) s.value.toNat ∧ sym < m.nsym ∧
    ((renormCount (symHigh m sym s.length.toNat - symLow m sym s.length.toNat) ≤ s.bin.length ∧
      ∃ t, readSym m s = .ok (sym, smObserve sym m) t ∧ DecRun s t ∧
        DecodedTo (s.value.toNat - symLow m sym s.length.toNat)
          (symHigh m sym s.length.toNat - symLow m sym s.length.toNat)
          (renormCount (symHigh m sym s.length.toNat - symLow m sym s.length.toNat)) s t) ∨
    (s.bin.length < renormCount (symHigh m sym s.length.toNat - symLow m sym s.length.toNat) ∧
      ∃ t, readSym m s = .raise .streamExhausted 0#32 t ∧ t.bin = [] ∧ DecFrame s t)) := by
  have hL := s.length.isLt
  have hV := s.value.isLt
  obtain ⟨a, b, c⟩ := symbolSearch_spec m hm s.length.toNat s.value.toNat
  refine ⟨_, rfl, a, ?_⟩
  have hsym : symbolSearch m (symUnit s) s.value.toNat = symbolSearch m (s.length.toNat >>> 15) s.value.toNat := rfl
  unfold readSym
  rw [hsym]
  generalize symbolSearch m (s.length.toNat >>> 15) s.value.toNat = sym at a b c
  obtain ⟨b1, b2⟩ := sym_bounds m hm sym _ a hl
  have hx : (m.dist.getD sym 0#32).toNat * symUnit s = symLow m sym s.length.toNat := rfl
  simp only [lookup_dist_ok m hm sym s a, Res.bind_ok, symUpper_ok m hm sym s a, hx]
  rcases decNormalize_narrowed (s.value.toNat - symLow m sym s.length.toNat)
    (symHigh m sym s.length.toNat - symLow m sym s.length.toNat) s _ (by omega) (by omega) (by omega) rfl with
    ⟨k, t, e, d⟩ | ⟨k, t, e, d⟩
  · refine .inl ⟨k, t, ?_, ⟨d.frame, d.room (by omega) (by omega)⟩, d⟩
    rw [e]
    rfl
  · refine .inr ⟨k, t, ?_, d⟩
    rw [e]
    rfl

/-- The shifted width of a legal digit is not zero. -/
theorem shiftRight_pos (len m : Nat) (hl : 2 ^ 24 ≤ len) (hm : m ≤ 19) : 1 ≤ len >>> m ∧ len >>> m ≤ len := by
  rw [Nat.shiftRight_eq_div_pow]
  have : 2 ^ m ≤ 2 ^ 24 := Nat.pow_le_pow_right (by omega) (by omega)
  exact ⟨(Nat.one_le_div_iff (by positivity)).mpr (by omega), Nat.div_le_self _ _⟩

/-- A flat digit, in the terms of a run. -/
theorem decDirectStep_run (n : Nat) (s : State) (hl : 2 ^ 24 ≤ s.length.toNat) (hn : n ≤ 19) :
    (∃ q t, decDirectStep n s = .ok q t ∧ q < 2 ^ n ∧ DecRun s t) ∨
    (∃ c w t, decDirectStep n s = .raise c w t ∧ DecBad s c t) := by
  have hL := s.length.isLt
  obtain ⟨h1, h2⟩ := shiftRight_pos _ n hl hn
  rcases decDirectStep_spec n s h1 with ⟨-, t, d, e⟩ | ⟨-, t, e, -, f⟩
  · by_cases hq : s.value.toNat / (s.length.toNat >>> n) < 2 ^ n
    · rw [if_pos hq] at e
      exact .inl ⟨_, t, e, hq, d.frame, d.room h1 (by omega)⟩
    · rw [if_neg hq] at e
      exact .inr ⟨_, _, t, e, d.frame, .inr rfl⟩
  · exact .inr ⟨_, _, t, e, f, .inl rfl⟩

/-- Direct bits (R154): a value of `n` bits, or a bad end. -/
theorem decDirect_run (n : Nat) (s : State) (hl : 2 ^ 24 ≤ s.length.toNat) (hn : n ≤ 32) :
    (∃ v t, decDirect n s = .ok v t ∧ v < 2 ^ n ∧ DecRun s t) ∨
    (∃ c w t, decDirect n s = .raise c w t ∧ DecBad s c t) := by
  unfold decDirect DIRECT_SPLIT
  by_cases h : 19 < n
  · rw [if_pos h]
    rcases decDirectStep_run 16 s hl (by omega) with ⟨lo, t, e, hlo, r⟩ | ⟨c, w, t, e, f⟩
    · rw [e]
      simp only [Res.bind_ok]
      rcases decDirectStep_run (n - 16) t r.2 (by omega) with ⟨hi, u, e2, hhi, r2⟩ | ⟨c, w, u, e2, f⟩
      · rw [e2]
        refine .inl ⟨hi <<< 16 ||| lo, u, rfl, ?_, r.trans r2⟩
        apply Nat.or_lt_two_pow
        · rw [Nat.shiftLeft_eq]
          have h3 : 2 ^ n = 2 ^ (n - 16) * 2 ^ 16 := by rw [← Nat.pow_add, Nat.sub_add_cancel (by omega)]
          rw [h3]
          exact Nat.mul_lt_mul_of_pos_right hhi (by norm_num)
        · exact Nat.lt_of_lt_of_le hlo (Nat.pow_le_pow_right (by omega) (by omega))
      · rw [e2]
        exact .inr ⟨c, w, u, rfl, f.mono r.1⟩
    · rw [e]
      exact .inr ⟨c, w, t, rfl, f⟩
  · rw [if_neg h]
    exact decDirectStep_run n s hl (by omega)

/-- Priming (R151): the next `n` bytes of BIN, or StreamExhausted. -/
theorem primeBytes_spec (n : Nat) (w : Word) (s : State) :
    (n ≤ s.bin.length ∧ primeBytes n w s = .ok (shiftIn w (s.bin.take n)) (s.setBin (s.bin.drop n))) ∨
    (s.bin.length < n ∧ primeBytes n w s = .raise .streamExhausted 0#32 (s.setBin [])) := by
  induction n generalizing w s with
  | zero => exact .inl ⟨Nat.zero_le _, by simp [primeBytes, shiftIn, State.setBin]⟩
  | succ n ih =>
    unfold primeBytes
    cases hb : s.bin with
    | nil =>
      refine .inr ⟨by simp, ?_⟩
      have hs : s.setBin [] = s := by rw [← hb]; rfl
      simp [binRead, hb, hs]
    | cons b rest =>
      have e : binRead s = .ok b (s.setBin rest) := by simp [binRead, hb]
      rw [e]
      simp only [Res.bind_ok]
      rcases ih (w <<< 8 ||| b.setWidth 32) (s.setBin rest) with ⟨k, r⟩ | ⟨k, r⟩
      · refine .inl ⟨by simpa using k, ?_⟩
        rw [r]
        simp [shiftIn, State.setBin]
      · refine .inr ⟨by simpa using k, ?_⟩
        rw [r]
        rfl

/-! ## The same, as functions of the state (Sys2Proof/Safety.lean, `consume`) -/

theorem DecodedTo.eq_consume {v l : Nat} {s t : State} (h : DecodedTo v l (renormCount l) s t) : t = consume v l s := by
  have h2 := h.2.1
  have hl : t.length = u32 (l * 256 ^ renormCount l) := by
    rw [← h2, u32_toNat]
  rw [h.2.2.2, h.1, hl, h.2.2.1]
  rfl

theorem consume_length {v l : Nat} {s : State} (h1 : 1 ≤ l) (h2 : l < 2 ^ 32) : 2 ^ 24 ≤ (consume v l s).length.toNat := by
  have h := renormCount_spec l h1 h2
  show _ ≤ (u32 (l * 256 ^ renormCount l)).toNat
  rw [u32_toNat_of_lt h.2]
  exact h.1

theorem readBit_ok (m : BitModel) (hm : m.wf) (s : State) (hl : 2 ^ 24 ≤ s.length.toNat) (h : s.hasBit m (foundBit m s)) :
    readBit m s = .ok (foundBit m s, bmObserve (foundBit m s) m) (consumeBit m (foundBit m s) s) := by
  rcases readBit_spec m hm s hl with ⟨-, t, e, -, d⟩ | ⟨k, -⟩
  · rw [e, d.eq_consume]
    rfl
  · exact absurd h (Nat.not_le.mpr k)

theorem readSym_ok (m : SymModel) (hm : m.wf) (s : State) (hl : 2 ^ 24 ≤ s.length.toNat) (sym : Nat) (h : s.hasSym m sym) :
    readSym m s = .ok (sym, smObserve sym m) (consumeSym m sym s) := by
  obtain ⟨h1, h2, h3, h4⟩ := h
  obtain ⟨sym', e, -, r⟩ := readSym_spec m hm s hl
  have he : sym' = sym := by
    rw [e]
    exact symbolSearch_eq m hm _ _ sym h1 h2 h3
  rw [he] at r
  rcases r with ⟨-, t, et, -, d⟩ | ⟨k, -⟩
  · rw [et, d.eq_consume]
    rfl
  · exact absurd h4 (Nat.not_le.mpr k)

theorem consumeSym_length (m : SymModel) (hm : m.wf) (s : State) (hl : 2 ^ 24 ≤ s.length.toNat) (sym : Nat)
    (hs : sym < m.nsym) : 2 ^ 24 ≤ (consumeSym m sym s).length.toNat := by
  have hL := s.length.isLt
  have h := sym_bounds m hm sym _ hs hl
  exact consume_length (by omega) (by omega)

theorem consumeDigit_length (n : Nat) (s : State) (hl : 2 ^ 24 ≤ s.length.toNat) (hn : n ≤ 19) :
    2 ^ 24 ≤ (consumeDigit n s).length.toNat := by
  have hL := s.length.isLt
  have h := shiftRight_pos _ n hl hn
  exact consume_length h.1 (by omega)

theorem decDirectStep_ok (n q : Nat) (s : State) (hl : 2 ^ 24 ≤ s.length.toNat) (hn : n ≤ 19) (h : s.hasDigit n q) :
    decDirectStep n s = .ok q (consumeDigit n s) := by
  obtain ⟨h1, h2, h3⟩ := h
  rcases decDirectStep_spec n s (shiftRight_pos _ n hl hn).1 with ⟨-, t, d, e⟩ | ⟨k, -⟩
  · rw [e, ← h1, if_pos h2, d.eq_consume]
    rfl
  · exact absurd h3 (Nat.not_le.mpr k)

theorem decDirect_ok (n v : Nat) (s : State) (hl : 2 ^ 24 ≤ s.length.toNat) (hn : n ≤ 32) (h : s.hasDirect n v) :
    decDirect n s = .ok v (consumeDirect n s) := by
  unfold decDirect consumeDirect DIRECT_SPLIT
  by_cases hs : 19 < n
  · obtain ⟨h1, h2⟩ := h.2 hs
    rw [if_pos hs, if_neg (by omega), decDirectStep_ok 16 _ s hl (by omega) h1]
    simp only [Res.bind_ok]
    rw [decDirectStep_ok (n - 16) _ _ (consumeDigit_length 16 s hl (by omega)) (by omega) h2]
    simp only [Res.bind_ok]
    have hv : (v / 2 ^ 16) <<< 16 ||| v % 2 ^ 16 = v := by
      rw [Nat.shiftLeft_eq, Nat.mul_comm, ← Nat.two_pow_add_eq_or_of_lt (Nat.mod_lt _ (by norm_num))]
      exact Nat.div_add_mod v (2 ^ 16)
    rw [hv]
  · rw [if_neg hs, if_pos (by omega)]
    exact decDirectStep_ok n v s hl (by omega) (h.1 (by omega))

/-! ## Bad ends in numbers (R154, R156, R157) -/

theorem readBit_lacks (m : BitModel) (hm : m.wf) (s : State) (hl : 2 ^ 24 ≤ s.length.toNat) (h : ¬s.hasBit m (foundBit m s)) :
    ∃ t, readBit m s = .raise .streamExhausted 0#32 t ∧ t.bin = [] ∧ DecFrame s t := by
  rcases readBit_spec m hm s hl with ⟨k, -⟩ | ⟨-, r⟩
  · exact absurd k h
  · exact r

theorem readSym_lacks (m : SymModel) (hm : m.wf) (s : State) (hl : 2 ^ 24 ≤ s.length.toNat) (sym : Nat) (h : s.lacksSym m sym) :
    ∃ t, readSym m s = .raise .streamExhausted 0#32 t ∧ t.bin = [] ∧ DecFrame s t := by
  obtain ⟨h1, h2, h3, h4⟩ := h
  obtain ⟨sym', e, -, r⟩ := readSym_spec m hm s hl
  have he : sym' = sym := by
    rw [e]
    exact symbolSearch_eq m hm _ _ sym h1 h2 h3
  subst he
  rcases r with ⟨k, -⟩ | ⟨-, r⟩
  · exact absurd k h4
  · exact r

theorem decDirectStep_lacks (n : Nat) (s : State) (hl : 2 ^ 24 ≤ s.length.toNat) (hn : n ≤ 19)
    (h : ¬s.hasBytesFor (s.length.toNat >>> n)) :
    ∃ t, decDirectStep n s = .raise .streamExhausted 0#32 t ∧ t.bin = [] ∧ DecFrame s t := by
  rcases decDirectStep_spec n s (shiftRight_pos _ n hl hn).1 with ⟨k, -⟩ | ⟨-, r⟩
  · exact absurd k h
  · exact r

theorem decDirectStep_bad (n q : Nat) (s : State) (hl : 2 ^ 24 ≤ s.length.toNat) (hn : n ≤ 19) (h : s.badDigit n q) :
    decDirectStep n s = .raise .streamCorruption (u32 q) (consumeDigit n s) := by
  obtain ⟨h1, h2, h3⟩ := h
  rcases decDirectStep_spec n s (shiftRight_pos _ n hl hn).1 with ⟨-, t, d, e⟩ | ⟨k, -⟩
  · rw [e, ← h1, if_neg (by omega), d.eq_consume]
    rfl
  · exact absurd h3 (by show ¬_ ≤ _; omega)

theorem consume_frame (v l : Nat) (s : State) : DecFrame s (consume v l s) := ⟨List.drop_suffix _ _, rfl⟩

theorem decDirect_lacks (n : Nat) (s : State) (hl : 2 ^ 24 ≤ s.length.toNat) (hn : n ≤ 32) (h : s.lacksDirect n) :
    ∃ t, decDirect n s = .raise .streamExhausted 0#32 t ∧ t.bin = [] ∧ DecFrame s t := by
  unfold decDirect DIRECT_SPLIT
  rcases h with ⟨h1, h⟩ | ⟨h1, h⟩ | ⟨h1, hd, h⟩
  · rw [if_neg (by omega)]
    exact decDirectStep_lacks n s hl h1 h
  · rw [if_pos h1]
    obtain ⟨t, e, r⟩ := decDirectStep_lacks 16 s hl (by omega) h
    exact ⟨t, by rw [e]; rfl, r⟩
  · rw [if_pos h1, decDirectStep_ok 16 _ s hl (by omega) hd]
    obtain ⟨t, e, b, f⟩ := decDirectStep_lacks (n - 16) _ (consumeDigit_length 16 s hl (by omega)) (by omega) h
    exact ⟨t, by simp only [Res.bind_ok, e, Res.bind_raise], b, (consume_frame _ _ s).trans f⟩

theorem decDirect_bad (n q : Nat) (rest : List Byte) (s : State) (hl : 2 ^ 24 ≤ s.length.toNat) (hn : n ≤ 32)
    (h : s.badDirect n q rest) :
    ∃ t, decDirect n s = .raise .streamCorruption (u32 q) t ∧ t.bin = rest ∧ DecFrame s t := by
  unfold decDirect DIRECT_SPLIT
  rcases h with ⟨h1, h, rfl⟩ | ⟨h1, h, rfl⟩
  · rw [if_neg (by omega)]
    exact ⟨_, decDirectStep_bad n q s hl h1 h, rfl, consume_frame _ _ s⟩
  · rw [if_pos h1, decDirectStep_bad 16 q s hl (by omega) h]
    exact ⟨_, rfl, rfl, consume_frame _ _ s⟩

/-- Shifting bytes in keeps a value below the width it was below. -/
theorem shiftIn_lt (bs : List Byte) (v : Word) (l : Nat) (hv : v.toNat < l) (hl : l * 256 ^ bs.length ≤ 2 ^ 32) :
    (shiftIn v bs).toNat < l * 256 ^ bs.length := by
  induction bs generalizing v l with
  | nil => simpa [shiftIn] using hv
  | cons b bs ih =>
    have hb := b.isLt
    have hpos : 1 ≤ 256 ^ bs.length := Nat.one_le_pow _ _ (by omega)
    have hpow : l * 256 ^ (b :: bs).length = l * 256 * 256 ^ bs.length := by rw [List.length_cons, Nat.pow_succ]; ring
    have h256 : l * 256 ≤ l * 256 * 256 ^ bs.length := Nat.le_mul_of_pos_right _ hpos
    have hn : (v <<< 8 ||| b.setWidth 32).toNat = v.toNat * 256 + b.toNat := by
      rw [BitVec.toNat_or, BitVec.toNat_shiftLeft, BitVec.toNat_setWidth, Nat.shiftLeft_eq, Nat.mod_eq_of_lt (by omega),
        Nat.mod_eq_of_lt (by omega), Nat.mul_comm, ← Nat.two_pow_add_eq_or_of_lt hb]
    rw [hpow] at hl ⊢
    exact ih (v <<< 8 ||| b.setWidth 32) (l * 256) (by omega) hl

/-- A second digit after a good 16-bit first one is in range: LENGTH is a multiple of 2^16, so the division is exact (R154, R157). -/
theorem second_digit_lt (n : Nat) (s : State) (hl : 2 ^ 24 ≤ s.length.toNat) (h1 : 16 ≤ n) (h2 : n ≤ 32)
    (hb : s.hasBytesFor (s.length.toNat >>> 16)) :
    (consumeDigit 16 s).value.toNat / ((consumeDigit 16 s).length.toNat >>> (n - 16)) < 2 ^ (n - 16) := by
  have hL := s.length.isLt
  have hw : 2 ^ 8 ≤ s.length.toNat >>> 16 ∧ s.length.toNat >>> 16 < 2 ^ 16 := by
    rw [Nat.shiftRight_eq_div_pow]
    omega
  have hr : renormCount (s.length.toNat >>> 16) = 2 := by
    generalize s.length.toNat >>> 16 = w at *
    unfold renormCount
    split_ifs <;> omega
  have hlen : (consumeDigit 16 s).length.toNat = s.length.toNat >>> 16 <<< 16 := by
    show (u32 _).toNat = _
    rw [hr, u32_toNat_of_lt (by omega), Nat.shiftLeft_eq]
    norm_num
  have hval : (consumeDigit 16 s).value.toNat < s.length.toNat >>> 16 <<< 16 := by
    have hm := Nat.mod_lt s.value.toNat (show 0 < s.length.toNat >>> 16 by omega)
    have ht : (s.bin.take 2).length = 2 := by
      rw [List.length_take]
      have : renormCount (s.length.toNat >>> 16) ≤ s.bin.length := hb
      omega
    have h := shiftIn_lt (s.bin.take 2) (u32 (s.value.toNat % (s.length.toNat >>> 16))) (s.length.toNat >>> 16)
      (by rw [u32_toNat_of_lt (by omega)]; exact hm) (by rw [ht]; omega)
    rw [ht] at h
    show (shiftIn _ (s.bin.take (renormCount _))).toNat < _
    rw [hr, Nat.shiftLeft_eq]
    exact h
  rw [hlen]
  obtain ⟨m, rfl⟩ : ∃ m, n = 16 + m := ⟨n - 16, by omega⟩
  rw [Nat.add_sub_cancel_left]
  have hsplit : s.length.toNat >>> 16 <<< 16 >>> m = (s.length.toNat >>> 16) * 2 ^ (16 - m) := by
    rw [Nat.shiftLeft_eq, Nat.shiftRight_eq_div_pow, show (2 : Nat) ^ 16 = 2 ^ (16 - m) * 2 ^ m by rw [← Nat.pow_add]; congr 1; omega,
      ← Nat.mul_assoc, Nat.mul_div_cancel _ (by positivity)]
  rw [hsplit, Nat.div_lt_iff_lt_mul (Nat.mul_pos (by omega) (by positivity)), Nat.mul_comm, Nat.mul_assoc, ← Nat.pow_add,
    show 16 - m + m = 16 by omega]
  rw [Nat.shiftLeft_eq] at hval
  exact hval

end Sys2Proof.Machine
end

