-- ==== Sys2Proof/Laws/IntegerCompressor.lean ====
section
/-! SUPPORT. The integer-compressor units (43_integer_compressor.md): configuration and initial state, residuals, the private
models, and what WriteCorrector and ReadCorrector keep. -/

namespace Sys2Proof.Machine

/-! ## Lists -/

theorem forall_mem_modify {α : Type} {P : α → Prop} (l : List α) (i : Nat) (f : α → α) (h : ∀ x ∈ l, P x)
    (hf : ∀ x, P x → P (f x)) : ∀ x ∈ l.modify i f, P x := by
  induction l generalizing i with
  | nil => simp
  | cons a l ih =>
    cases i with
    | zero =>
      intro x hx
      rw [List.modify_zero_cons] at hx
      rcases List.mem_cons.mp hx with rfl | hx
      · exact hf _ (h a (by simp))
      · exact h x (by simp [hx])
    | succ i =>
      intro x hx
      rw [List.modify_succ_cons] at hx
      rcases List.mem_cons.mp hx with rfl | hx
      · exact h _ (by simp)
      · exact ih i (fun y hy => h y (by simp [hy])) x hx

theorem forall_mem_set {α : Type} {P : α → Prop} (l : List α) (i : Nat) (a : α) (h : ∀ x ∈ l, P x) (ha : P a) :
    ∀ x ∈ l.set i a, P x := fun x hx => by
  rcases List.mem_or_eq_of_mem_set hx with hx | rfl
  · exact h x hx
  · exact ha

/-! ## Configuration (R201, R202) -/

theorem IcUnit.legal.corr {u : IcUnit} (h : u.legal) : u.corrBits = u.bits := by
  obtain ⟨-, h2, -, -, -, -, -, -, h3⟩ := h
  have h4 : u.corrBits = if u.bits < 32 then u.bits else 32 := congrArg IcUnit.corrBits h3
  rw [h4]
  split <;> omega

theorem configuredUnit_legal (bits bitsHigh bins contexts : Nat) (h1 : 1 ≤ bits ∧ bits ≤ 32)
    (h2 : 1 ≤ bitsHigh ∧ bitsHigh ≤ 11) (h3 : 1 ≤ bins ∧ bins ≤ 33) (h4 : 1 ≤ contexts ∧ contexts ≤ 65536) :
    (configuredUnit bits bitsHigh bins contexts).legal :=
  ⟨h1.1, h1.2, h2.1, h2.2, h3.1, h3.2, h4.1, h4.2, rfl⟩

theorem two_pow_min_bounds (i bh : Nat) (h1 : 1 ≤ bh) (h2 : bh ≤ 11) : 2 ≤ 2 ^ min (i + 1) bh ∧ 2 ^ min (i + 1) bh ≤ 2048 := by
  have a : 2 ^ 1 ≤ 2 ^ min (i + 1) bh := Nat.pow_le_pow_right (by omega) (by omega)
  have b : 2 ^ min (i + 1) bh ≤ 2 ^ 11 := Nat.pow_le_pow_right (by omega) (by omega)
  exact ⟨a, b⟩

theorem initialAdaptive_wf (u : IcUnit) (h : u.legal) : (initialAdaptive u).wf u := by
  have hc := h.corr
  obtain ⟨h1, h2, h3, h4, h5, h6, h7, h8, -⟩ := h
  have hsm := smUniform_wf (u.corrBits + 1) (by omega) (by omega)
  refine ⟨Nat.zero_le _, by simp [initialAdaptive], ?_, by simp [initialAdaptive], ?_, bmInitial_wf, ?_, ?_⟩
  · intro e he
    rw [(List.mem_replicate.mp he).2]
    decide
  · intro row hrow
    rw [(List.mem_replicate.mp hrow).2]
    refine ⟨by simp, fun m hm => ?_⟩
    rw [(List.mem_replicate.mp hm).2]
    exact hsm
  · show ((List.range u.corrBits).map fun i => smUniform (2 ^ min (i + 1) u.bitsHigh)).map SymModel.nsym = _
    rw [List.map_map]
    apply List.map_congr_left
    intro i _
    have hb := two_pow_min_bounds i u.bitsHigh h3 h4
    exact (smUniform_wf _ hb.1 hb.2).2
  · intro m hm
    obtain ⟨i, -, rfl⟩ := List.mem_map.mp hm
    have hb := two_pow_min_bounds i u.bitsHigh h3 h4
    exact (smUniform_wf _ hb.1 hb.2).1

/-! ## Residuals (R203, R208, R210) -/

theorem bitlen_le_iff (v n : Nat) : bitlen v ≤ n ↔ v < 2 ^ n := by
  unfold bitlen
  split
  · rename_i h
    subst h
    simp
  · rename_i h
    rw [Nat.succ_le_iff, Nat.log2_lt h]

theorem s32_range (v : Int) : -(2 ^ 31) ≤ s32 v ∧ s32 v < 2 ^ 31 := by
  unfold s32
  have h1 := BitVec.le_toInt (BitVec.ofInt 32 v)
  have h2 := BitVec.toInt_lt (x := BitVec.ofInt 32 v)
  simp only [Nat.add_one_sub_one] at h1 h2
  exact ⟨by simpa using h1, by simpa using h2⟩

theorem foldedResidual_range (u : IcUnit) (p a : Word) : -(2 ^ 31) ≤ foldedResidual u p a ∧ foldedResidual u p a < 2 ^ 31 := by
  unfold foldedResidual foldResidual
  split
  · exact s32_range _
  · split
    · exact s32_range _
    · exact s32_range _

/-- The magnitude that gives the class of a residual in the range of a 32-bit integer. -/
theorem classMagnitude_eq (corr : Int) (h1 : -(2 ^ 31) ≤ corr) (h2 : corr < 2 ^ 31) :
    (corr ≤ 0 → (classMagnitude corr : Int) = -corr) ∧ (0 < corr → (classMagnitude corr : Int) = corr - 1) := by
  unfold classMagnitude u32OfInt
  constructor
  · intro h
    rw [if_pos h, BitVec.toNat_ofInt]
    omega
  · intro h
    rw [if_neg (by omega), BitVec.toNat_ofInt]
    omega

theorem two_pow_pred (k : Nat) (h : 1 ≤ k) : 2 ^ k = 2 * 2 ^ (k - 1) := by
  obtain ⟨j, rfl⟩ := Nat.exists_eq_add_of_le h
  rw [Nat.add_sub_cancel_left, Nat.pow_add]

/-- A residual of class `k >= 1` has a position inside the class, from which it is restored (R208, R209). -/
theorem classPosition_spec (k : Nat) (corr : Int) (h1 : -(2 ^ 31) ≤ corr) (h2 : corr < 2 ^ 31) (hk : residualClass corr = k)
    (hpos : 1 ≤ k) : classPosition k corr < 2 ^ k ∧ positionResidual k (classPosition k corr) = corr := by
  obtain ⟨a, b⟩ := classMagnitude_eq corr h1 h2
  have hp := two_pow_pred k hpos
  have hlt := (bitlen_le_iff (classMagnitude corr) k).mp (by unfold residualClass at hk; omega)
  have hge : ¬classMagnitude corr < 2 ^ (k - 1) := fun h => by
    have h3 := (bitlen_le_iff (classMagnitude corr) (k - 1)).mpr h
    unfold residualClass at hk
    omega
  have hcast : ((2 : Int) ^ k) = 2 * ((2 ^ (k - 1) : Nat) : Int) := by
    rw [show ((2 : Int) ^ k) = ((2 ^ k : Nat) : Int) by push_cast; rfl, hp]
    push_cast
    rfl
  have hone : 1 ≤ 2 ^ (k - 1) := Nat.one_le_two_pow
  unfold classPosition positionResidual
  rw [hcast]
  generalize 2 ^ (k - 1) = h at *
  rw [hp]
  by_cases hneg : corr < 0
  · have ha := a (by omega)
    simp only [hneg, if_true]
    constructor
    · omega
    · rw [if_neg (by omega)]
      omega
  · by_cases hz : corr = 0
    · have ha := a (by omega)
      omega
    · have hb := b (by omega)
      simp only [hneg, if_false]
      constructor
      · omega
      · rw [if_pos (by omega)]
        omega

/-- Class 0 is the residuals 0 and 1. -/
theorem residualClass_zero (corr : Int) (h1 : -(2 ^ 31) ≤ corr) (h2 : corr < 2 ^ 31) (h : residualClass corr = 0) :
    corr = 0 ∨ corr = 1 := by
  obtain ⟨a, b⟩ := classMagnitude_eq corr h1 h2
  have hlt := (bitlen_le_iff (classMagnitude corr) 0).mp (by unfold residualClass at h; omega)
  rw [Nat.pow_zero] at hlt
  by_cases hc : corr ≤ 0
  · have := a hc
    omega
  · have := b (by omega)
    omega

/-- The residual at a position of a class below 32 is small. -/
theorem positionResidual_range (k t : Nat) (ht : t < 2 ^ k) (h1 : 1 ≤ k) : (positionResidual k t).natAbs ≤ 2 ^ k := by
  have hcast : ((2 : Int) ^ k) = ((2 ^ k : Nat) : Int) := by push_cast; rfl
  unfold positionResidual
  rw [hcast]
  generalize 2 ^ k = h at *
  split <;> omega

/-! ## The error estimate (R206, R207) -/

theorem historyBin_lt (u : IcUnit) (h : u.legal) (e : BitVec 34) : historyBin u e < u.bins := by
  have := h.2.2.2.2.1
  unfold historyBin
  omega

theorem decayed_le (e : BitVec 34) (corr : Int) (he : e.toNat ≤ 2 ^ 33) (hc : corr.natAbs ≤ 2 ^ 31) :
    (decayed e corr).toNat ≤ 2 ^ 33 := by
  unfold decayed IC_DECAY_SHIFT
  rw [BitVec.toNat_ofNat, Nat.shiftRight_eq_div_pow]
  omega

theorem errUpdate_wf (ctx : Nat) (corr : Int) (a : IcAdaptive) (u : IcUnit) (h : a.wf u) (hc : corr.natAbs ≤ 2 ^ 31) :
    (errUpdate ctx corr a).wf u := by
  obtain ⟨h1, h2, h3, h4⟩ := h
  refine ⟨h1, by simp [errUpdate, h2], ?_, h4⟩
  exact forall_mem_modify a.err ctx _ h3 fun e he => decayed_le e corr he hc

/-! ## Residuals in numbers (R203, R204, R208, R210) -/

theorem s32_mod (v : Int) : s32 v = (v + 2 ^ 31) % 2 ^ 32 - 2 ^ 31 := by
  unfold s32
  rw [BitVec.toInt_ofInt]
  simp only [Int.bmod]
  omega

theorem asI32_mod (w : Word) : asI32 w % 2 ^ 32 = w.toNat := by
  unfold asI32
  rw [BitVec.toInt_eq_toNat_cond]
  have := w.isLt
  split <;> omega

theorem asI32_range (w : Word) : -(2 ^ 31) ≤ asI32 w ∧ asI32 w < 2 ^ 31 := by
  unfold asI32
  rw [BitVec.toInt_eq_toNat_cond]
  have := w.isLt
  split <;> omega

/-- The derived fields of a legal unit below 32 bits (10_state.md R41). -/
theorem IcUnit.legal.fields {u : IcUnit} (h : u.legal) (hb : u.bits < 32) :
    u.corrRange.toNat = 2 ^ u.bits ∧ asI32 u.corrMin = -(2 ^ (u.bits - 1)) ∧ asI32 u.corrMax = 2 ^ (u.bits - 1) - 1 := by
  obtain ⟨h1, -, -, -, -, -, -, -, h3⟩ := h
  have r := congrArg IcUnit.corrRange h3
  have mn := congrArg IcUnit.corrMin h3
  have mx := congrArg IcUnit.corrMax h3
  simp only [configuredUnit, if_pos hb] at r mn mx
  rw [r, mn, mx]
  generalize u.bits = b at *
  refine ⟨?_, ?_, ?_⟩ <;> interval_cases b <;> rfl

/-- The derived fields of a legal unit of 32 bits (10_state.md R41). -/
theorem IcUnit.legal.fields32 {u : IcUnit} (h : u.legal) (hb : u.bits = 32) :
    u.corrRange.toNat = 0 ∧ asI32 u.corrMin = -(2 ^ 31) ∧ asI32 u.corrMax = 2 ^ 31 - 1 := by
  obtain ⟨-, -, -, -, -, -, -, -, h3⟩ := h
  have r := congrArg IcUnit.corrRange h3
  have mn := congrArg IcUnit.corrMin h3
  have mx := congrArg IcUnit.corrMax h3
  simp only [configuredUnit, hb, Nat.lt_irrefl, if_false] at r mn mx
  rw [r, mn, mx]
  exact ⟨rfl, rfl, rfl⟩

theorem int_two_pow (n : Nat) : (2 : Int) ^ n = ((2 ^ n : Nat) : Int) := by
  push_cast
  rfl

/-- The residual of the meaning is the residual in numbers. -/
theorem foldedResidual_eq (u : IcUnit) (hu : u.legal) (p r : Word) : foldedResidual u p r = wrappedResidual u.bits p r := by
  have hd : s32 (asI32 r - asI32 p) = asI32 (r - p) := by
    have h1 := asI32_mod r
    have h2 := asI32_mod p
    have h3 := asI32_mod (r - p)
    have h4 := asI32_range (r - p)
    have h5 : ((r - p).toNat : Int) = ((r.toNat : Int) - p.toNat) % 2 ^ 32 := by
      rw [BitVec.toNat_sub]
      have := p.isLt
      push_cast
      omega
    rw [s32_mod]
    omega
  have hr := asI32_range (r - p)
  unfold foldedResidual foldResidual wrappedResidual
  rw [hd]
  change _ = (if asI32 (r - p) < _ then asI32 (r - p) + _ else if _ ≤ asI32 (r - p) then asI32 (r - p) - _ else asI32 (r - p))
  generalize asI32 (r - p) = d at *
  rcases Nat.lt_or_ge u.bits 32 with hb | hb
  · obtain ⟨f1, f2, f3⟩ := hu.fields hb
    have hp := two_pow_pred u.bits hu.1
    have hle : 2 ^ u.bits ≤ 2 ^ 31 := Nat.pow_le_pow_right (by omega) (by omega)
    rw [f1, f2, f3]
    simp only [s32_mod, int_two_pow u.bits, int_two_pow (u.bits - 1)]
    generalize 2 ^ u.bits = R at *
    generalize 2 ^ (u.bits - 1) = H at *
    split_ifs <;> omega
  · have hb32 : u.bits = 32 := by have := hu.2.1; omega
    obtain ⟨f1, f2, f3⟩ := hu.fields32 hb32
    rw [f1, f2, f3, hb32]
    norm_num at hr ⊢
    split_ifs <;> omega

/-- The class of the meaning is the class in numbers. -/
theorem inClass_iff (corr : Int) (k : Nat) (h1 : -(2 ^ 31) ≤ corr) (h2 : corr < 2 ^ 31) :
    InClass corr k ↔ residualClass corr = k := by
  obtain ⟨a, b⟩ := classMagnitude_eq corr h1 h2
  have hc : (if corr ≤ 0 then -corr else corr - 1) = (classMagnitude corr : Int) := by
    split_ifs with h
    · exact (a h).symm
    · exact (b (by omega)).symm
  have h3 := bitlen_le_iff (classMagnitude corr)
  unfold InClass residualClass
  simp only [hc]
  generalize classMagnitude corr = c at *
  by_cases hk : k = 0
  · have := h3 0
    rw [Nat.pow_zero] at this
    rw [if_pos hk]
    omega
  · have e1 := h3 k
    have e2 := h3 (k - 1)
    rw [if_neg hk, int_two_pow, int_two_pow]
    omega

theorem classPosition_eq (k : Nat) (corr : Int) : classPosition k corr = positionIn k corr := by
  unfold classPosition positionIn
  congr 1
  split_ifs <;> omega

/-- Class 0 holds the residuals 0 and 1 (R203). -/
theorem inClass_zero {corr : Int} (h : InClass corr 0) : corr = 0 ∨ corr = 1 := by
  simp only [InClass, if_true] at h
  omega

theorem zeroClassBit_eq (corr : Int) (h : corr = 0 ∨ corr = 1) : BitVec.ofInt 1 corr = zeroClassBit corr := by
  rcases h with rfl | rfl <;> rfl

/-- The value restored by the meaning is the value in numbers. -/
theorem restored_eq (u : IcUnit) (hu : u.legal) (p : Word) (corr : Int) : restored u p corr = unwrapped u.bits p corr := by
  have hs : s32 (asI32 p + corr) = asI32 (p + BitVec.ofInt 32 corr) := by
    have h1 := asI32_mod p
    have h3 := asI32_mod (p + BitVec.ofInt 32 corr)
    have h4 := asI32_range (p + BitVec.ofInt 32 corr)
    rw [BitVec.toNat_add, BitVec.toNat_ofInt] at h3
    rw [s32_mod]
    omega
  have hr := asI32_range (p + BitVec.ofInt 32 corr)
  have hofs : ∀ v : Int, u32OfInt (s32 v) = BitVec.ofInt 32 v := fun v => by
    unfold u32OfInt s32
    exact BitVec.ofInt_toInt
  unfold restored unwrapped
  simp only [hs, hofs]
  change _ = BitVec.ofInt 32 (if asI32 (p + _) < 0 then asI32 (p + _) + _ else if _ ≤ asI32 (p + _) then asI32 (p + _) - _ else asI32 (p + _))
  generalize asI32 (p + BitVec.ofInt 32 corr) = v at *
  have hv : 0 ≤ v → (u32OfInt v).toNat = v := fun h => by
    unfold u32OfInt
    rw [BitVec.toNat_ofInt]
    omega
  by_cases hneg : v < 0
  · rw [if_pos hneg, if_pos hneg]
    rcases Nat.lt_or_ge u.bits 32 with hb | hb
    · rw [(hu.fields hb).1, int_two_pow]
    · have hb32 : u.bits = 32 := by have := hu.2.1; omega
      rw [(hu.fields32 hb32).1, hb32]
      apply BitVec.eq_of_toNat_eq
      simp only [BitVec.toNat_ofInt]
      omega
  · have hv' := hv (by omega)
    rw [if_neg hneg, if_neg hneg]
    rcases Nat.lt_or_ge u.bits 32 with hb | hb
    · rw [(hu.fields hb).1, int_two_pow]
      have hc : 2 ^ u.bits ≤ (u32OfInt v).toNat ↔ ((2 ^ u.bits : Nat) : Int) ≤ v := by omega
      by_cases h : 2 ^ u.bits ≤ (u32OfInt v).toNat
      · rw [if_pos h, if_pos (hc.mp h)]
      · rw [if_neg h, if_neg fun g => h (hc.mpr g)]
        rfl
    · have hb32 : u.bits = 32 := by have := hu.2.1; omega
      rw [(hu.fields32 hb32).1, if_pos (Nat.zero_le _), hb32, if_neg (by norm_num at hr ⊢; omega)]
      norm_num

/-! ## The private models (R42) -/

theorem lookupMb_ok (u : IcUnit) (a : IcAdaptive) (ha : a.wf u) (ctx bin : Nat) (hc : ctx < u.contexts) (hb : bin < u.bins)
    (s : State) : ∃ row m, a.mb[ctx]? = some row ∧ row[bin]? = some m ∧ lookupMb a ctx bin s = .ok m s ∧ m.wf ∧
      m.nsym = u.corrBits + 1 := by
  obtain ⟨-, -, -, h4, h5, -⟩ := ha
  have hrow : a.mb[ctx]? = some a.mb[ctx] := List.getElem?_eq_getElem (by omega)
  have h6 := h5 a.mb[ctx] (List.getElem_mem _)
  have hm : a.mb[ctx][bin]? = some a.mb[ctx][bin] := List.getElem?_eq_getElem (by omega)
  have h7 := h6.2 a.mb[ctx][bin] (List.getElem_mem _)
  refine ⟨_, _, hrow, hm, ?_, h7⟩
  unfold lookupMb
  rw [lookup_of_getElem? hrow]
  simp only [Res.bind_ok]
  exact lookup_of_getElem? hm s

theorem putMb_wf (u : IcUnit) (a : IcAdaptive) (ha : a.wf u) (ctx bin : Nat) (m : SymModel) (hm : m.wf)
    (hn : m.nsym = u.corrBits + 1) : (putMb ctx bin m a).wf u := by
  obtain ⟨h1, h2, h3, h4, h5, h6⟩ := ha
  refine ⟨h1, h2, h3, by simp [putMb, h4], ?_, h6⟩
  refine forall_mem_modify a.mb ctx _ h5 fun row hr => ⟨by simp [hr.1], ?_⟩
  exact forall_mem_set row bin m hr.2 ⟨hm, hn⟩

theorem mc_get (u : IcUnit) (a : IcAdaptive) (ha : a.wf u) (k : Nat) (h1 : 1 ≤ k) (hk : k ≤ u.corrBits) :
    ∃ m, a.mc[k - 1]? = some m ∧ m.wf ∧ m.nsym = 2 ^ min k u.bitsHigh := by
  obtain ⟨-, -, -, -, -, -, h7, h8⟩ := ha
  have hlen : a.mc.length = u.corrBits := by
    have := congrArg List.length h7
    simpa using this
  have hget : a.mc[k - 1]? = some (a.mc[k - 1]'(by omega)) := List.getElem?_eq_getElem (by omega)
  refine ⟨_, hget, h8 _ (List.getElem_mem _), ?_⟩
  have h9 : (a.mc.map SymModel.nsym)[k - 1]? = ((List.range u.corrBits).map fun i => 2 ^ min (i + 1) u.bitsHigh)[k - 1]? := by
    rw [h7]
  rw [List.getElem?_map, hget, List.getElem?_map, List.getElem?_range (by omega)] at h9
  simp only [Option.map_some, Option.some.injEq] at h9
  rw [h9, Nat.sub_add_cancel h1]

theorem putMc_wf (u : IcUnit) (a : IcAdaptive) (ha : a.wf u) (k : Nat) (m m' : SymModel) (hg : a.mc[k - 1]? = some m')
    (hm : m.wf) (hn : m.nsym = m'.nsym) : (putMc k m a).wf u := by
  obtain ⟨h1, h2, h3, h4, h5, h6, h7, h8⟩ := ha
  refine ⟨h1, h2, h3, h4, h5, h6, ?_, forall_mem_set a.mc (k - 1) m h8 hm⟩
  show (a.mc.set (k - 1) m).map SymModel.nsym = _
  rw [List.map_set, hn, ← h7]
  apply List.ext_getElem?
  intro j
  by_cases hj : k - 1 = j
  · subst hj
    rw [List.getElem?_set]
    simp only [if_true, List.length_map]
    split
    · rw [List.getElem?_map, hg]
      rfl
    · rename_i hlt
      rw [List.getElem?_eq_none (by simpa using hlt)]
  · rw [List.getElem?_set_ne hj]

theorem putMc0_wf (u : IcUnit) (a : IcAdaptive) (ha : a.wf u) (m : BitModel) (hm : m.wf) : IcAdaptive.wf { a with mc0 := m } u := by
  obtain ⟨h1, h2, h3, h4, h5, h6, h7, h8⟩ := ha
  exact ⟨h1, h2, h3, h4, h5, hm, h7, h8⟩

theorem setK_wf (u : IcUnit) (a : IcAdaptive) (ha : a.wf u) (k : Nat) (hk : k ≤ u.corrBits) : IcAdaptive.wf { a with k := k } u := by
  obtain ⟨-, h2⟩ := ha
  exact ⟨hk, h2⟩

/-! ## WriteCorrector (R208) -/

/-- The symbol that carries the high bits of a position fits its model. -/
theorem highBits_lt (t k bh : Nat) (ht : t < 2 ^ k) (hk : bh < k) : t >>> (k - bh) < 2 ^ min k bh := by
  rw [Nat.shiftRight_eq_div_pow, Nat.div_lt_iff_lt_mul (by positivity), ← Nat.pow_add, Nat.min_eq_right (by omega)]
  rwa [Nat.add_sub_cancel' (by omega)]

/-- The remainder of a residual keeps the unit well formed (R208). -/
theorem writeRemainder_run (u : IcUnit) (hu : u.legal) (a : IcAdaptive) (ha : a.wf u) (corr : Int) (k : Nat)
    (h1 : -(2 ^ 31) ≤ corr) (h2 : corr < 2 ^ 31) (hk : residualClass corr = k) (hkc : k ≤ u.corrBits) (s : State)
    (hs : EncReady s) :
    (∃ a' t, writeRemainder u corr k a s = .ok a' t ∧ a'.wf u ∧ EncRun 9 s t) ∨
    (∃ t, writeRemainder u corr k a s = .raise .outputStage 0#32 t ∧ EncFull 9 s t) := by
  unfold writeRemainder
  by_cases h0 : k = 0
  · simp only [h0, if_true]
    rcases codeBit_spec a.mc0 ha.2.2.2.2.2.1 (BitVec.ofInt 1 corr) s hs with ⟨t, e, r, -⟩ | ⟨t, e, f⟩
    · rw [e]
      exact .inl ⟨_, t, rfl, putMc0_wf u a ha _ (bmObserve_wf _ _ ha.2.2.2.2.2.1), r.mono (by omega)⟩
    · rw [e]
      exact .inr ⟨t, rfl, f.mono (by omega)⟩
  · simp only [h0, if_false]
    by_cases h32 : k < 32
    · simp only [h32, if_true]
      have hp := (classPosition_spec k corr h1 h2 hk (by omega)).1
      obtain ⟨m, hg, hm, hn⟩ := mc_get u a ha k (by omega) hkc
      unfold lookupMc
      rw [lookup_of_getElem? hg]
      simp only [Res.bind_ok]
      by_cases hb : k ≤ u.bitsHigh
      · simp only [hb, if_true]
        have hy : classPosition k corr < m.nsym := by rw [hn, Nat.min_eq_left hb]; exact hp
        obtain ⟨w1, w2⟩ := smObserve_wf _ m hm hy
        rcases codeSym_spec m hm _ hy s hs with ⟨t, e, r, -⟩ | ⟨t, e, f⟩
        · rw [e]
          exact .inl ⟨_, t, rfl, putMc_wf u a ha k _ m hg w1 w2, r.mono (by omega)⟩
        · rw [e]
          exact .inr ⟨t, rfl, f.mono (by omega)⟩
      · simp only [hb, if_false]
        have hy : classPosition k corr >>> (k - u.bitsHigh) < m.nsym := by rw [hn]; exact highBits_lt _ _ _ hp (by omega)
        obtain ⟨w1, w2⟩ := smObserve_wf _ m hm hy
        rcases codeSym_spec m hm _ hy s hs with ⟨t, e, r, -⟩ | ⟨t, e, f⟩
        · rw [e]
          simp only [Res.bind_ok]
          obtain ⟨r1, r2, r3⟩ := r.ready
          rcases encDirect_spec (k - u.bitsHigh) (classPosition k corr % 2 ^ (k - u.bitsHigh)) t r1 r2 r3 (by omega)
            (Nat.mod_lt _ (by positivity)) with ⟨v, ev, v1, v2, v3, v4, v5, -⟩ | ⟨v, ev, fv⟩
          · rw [ev]
            exact .inl ⟨_, v, rfl, putMc_wf u a ha k _ m hg w1 w2, r.trans ⟨v4, v1, v2, v3, v5⟩⟩
          · rw [ev]
            exact .inr ⟨v, rfl, r.full fv⟩
        · rw [e]
          exact .inr ⟨t, rfl, f.mono (by omega)⟩
    · simp only [h32, if_false]
      obtain ⟨r1, r2, r3⟩ := hs
      exact .inl ⟨a, s, rfl, ha, EncFrame.refl s, r1, r2, r3, by omega⟩

/-- The whole of IC_COMPRESS after its checks keeps the unit well formed (R203, R208). -/
theorem compress_run (u : IcUnit) (hu : u.legal) (a : IcAdaptive) (ha : a.wf u) (ctx : Nat) (hc : ctx < u.contexts)
    (corr : Int) (h1 : -(2 ^ 31) ≤ corr) (h2 : corr < 2 ^ 31) (hk : residualClass corr ≤ u.corrBits) (s : State)
    (hs : EncReady s) :
    (∃ a' t, compress u a ctx corr s = .ok a' t ∧ a'.wf u ∧ EncRun 12 s t) ∨
    (∃ t, compress u a ctx corr s = .raise .outputStage 0#32 t ∧ EncFull 12 s t) := by
  unfold compress
  have he : a.err[ctx]? = some (a.err[ctx]'(by have := ha.2.1; omega)) := List.getElem?_eq_getElem _
  rw [lookup_of_getElem? he]
  simp only [Res.bind_ok]
  have ha1 : IcAdaptive.wf { a with k := residualClass corr } u := setK_wf u a ha _ hk
  obtain ⟨row, m, -, -, hl, hm, hn⟩ := lookupMb_ok u _ ha1 ctx (historyBin u (a.err[ctx]'(by have := ha.2.1; omega))) hc
    (historyBin_lt u hu _) s
  have hy : residualClass corr < m.nsym := by omega
  obtain ⟨w1, w2⟩ := smObserve_wf _ m hm hy
  unfold writeCorrector
  rw [hl]
  simp only [Res.bind_ok]
  rcases codeSym_spec m hm _ hy s hs with ⟨t, e, r, -⟩ | ⟨t, e, f⟩
  · rw [e]
    simp only [Res.bind_ok]
    have ha2 := putMb_wf u _ ha1 ctx (historyBin u (a.err[ctx]'(by have := ha.2.1; omega))) _ w1 (by omega)
    rcases writeRemainder_run u hu _ ha2 corr _ h1 h2 rfl hk t r.ready with ⟨a', v, ev, w, rv⟩ | ⟨v, ev, fv⟩
    · rw [ev]
      exact .inl ⟨_, v, rfl, errUpdate_wf ctx corr a' u w (by omega), r.trans rv⟩
    · rw [ev]
      exact .inr ⟨v, rfl, r.full fv⟩
  · rw [e]
    exact .inr ⟨t, rfl, f.mono (by omega)⟩

/-! ## ReadCorrector (R209) -/

theorem IcUnit.legal.corrMin_abs (u : IcUnit) : (asI32 u.corrMin).natAbs ≤ 2 ^ 31 := by
  have h1 := BitVec.le_toInt u.corrMin
  have h2 := BitVec.toInt_lt (x := u.corrMin)
  unfold asI32
  simp only [Nat.add_one_sub_one] at h1 h2
  omega

/-- The remainder read back keeps the unit well formed, and the residual is small (R209). -/
theorem readRemainder_run (u : IcUnit) (hu : u.legal) (a : IcAdaptive) (ha : a.wf u) (k : Nat) (hkc : k ≤ u.corrBits)
    (s : State) (hl : 2 ^ 24 ≤ s.length.toNat) :
    (∃ c a' t, readRemainder u k a s = .ok (c, a') t ∧ a'.wf u ∧ c.natAbs ≤ 2 ^ 31 ∧
      c.natAbs ≤ 2 ^ u.corrBits ∧ DecRun s t) ∨
    (∃ c w t, readRemainder u k a s = .raise c w t ∧ DecBad s c t) := by
  unfold readRemainder
  by_cases h0 : k = 0
  · simp only [h0, if_true]
    have hm := ha.2.2.2.2.2.1
    rcases readBit_spec a.mc0 hm s hl with ⟨-, t, e, r, -⟩ | ⟨-, t, e, -, f⟩
    · rw [e]
      have h1 : ((((foundBit a.mc0 s).toNat : Nat) : Int)).natAbs ≤ 1 := by
        have := (foundBit a.mc0 s).isLt
        omega
      exact .inl ⟨_, _, t, rfl, putMc0_wf u a ha _ (bmObserve_wf _ _ hm), Nat.le_trans h1 (by norm_num),
        Nat.le_trans h1 Nat.one_le_two_pow, r⟩
    · rw [e]
      exact .inr ⟨_, _, t, rfl, f, .inl rfl⟩
  · simp only [h0, if_false]
    by_cases h32 : k < 32
    · simp only [h32, if_true]
      have hp1 : 2 ^ k ≤ 2 ^ 31 := Nat.pow_le_pow_right (by omega) (by omega)
      have hp2 : 2 ^ k ≤ 2 ^ u.corrBits := Nat.pow_le_pow_right (by omega) hkc
      obtain ⟨m, hg, hm, hn⟩ := mc_get u a ha k (by omega) hkc
      unfold lookupMc
      rw [lookup_of_getElem? hg]
      simp only [Res.bind_ok]
      obtain ⟨sym, -, hy, hr⟩ := readSym_spec m hm s hl
      obtain ⟨w1, w2⟩ := smObserve_wf sym m hm hy
      rcases hr with ⟨-, t, e, r, -⟩ | ⟨-, t, e, -, f⟩
      · rw [e]
        simp only [Res.bind_ok]
        by_cases hb : k ≤ u.bitsHigh
        · simp only [hb, if_true]
          rw [hn, Nat.min_eq_left hb] at hy
          have hr := positionResidual_range k sym hy (by omega)
          exact .inl ⟨_, _, t, rfl, putMc_wf u a ha k _ m hg w1 w2, Nat.le_trans hr hp1, Nat.le_trans hr hp2, r⟩
        · simp only [hb, if_false]
          rw [hn, Nat.min_eq_right (by omega)] at hy
          rcases decDirect_run (k - u.bitsHigh) t r.2 (by omega) with ⟨d, v, ev, hd, rv⟩ | ⟨c, w, v, ev, fv⟩
          · rw [ev]
            have hlt : sym <<< (k - u.bitsHigh) ||| d < 2 ^ k := by
              apply Nat.or_lt_two_pow
              · rw [Nat.shiftLeft_eq]
                have h3 : 2 ^ k = 2 ^ u.bitsHigh * 2 ^ (k - u.bitsHigh) := by
                  rw [← Nat.pow_add, Nat.add_sub_cancel' (by omega)]
                rw [h3]
                exact Nat.mul_lt_mul_of_pos_right hy (by positivity)
              · exact Nat.lt_of_lt_of_le hd (Nat.pow_le_pow_right (by omega) (by omega))
            have hr := positionResidual_range k _ hlt (by omega)
            exact .inl ⟨_, _, v, rfl, putMc_wf u a ha k _ m hg w1 w2, Nat.le_trans hr hp1, Nat.le_trans hr hp2,
              r.trans rv⟩
          · rw [ev]
            exact .inr ⟨c, w, v, rfl, fv.mono r.1⟩
      · rw [e]
        exact .inr ⟨_, _, t, rfl, f, .inl rfl⟩
    · simp only [h32, if_false]
      have h1 := IcUnit.legal.corrMin_abs u
      exact .inl ⟨_, a, s, rfl, ha, h1, Nat.le_trans h1 (Nat.pow_le_pow_right (by omega) (by omega)), DecFrame.refl s, hl⟩

/-- The whole of IC_DECOMPRESS after its checks keeps the unit well formed (R204, R209). -/
theorem decompress_run (u : IcUnit) (hu : u.legal) (a : IcAdaptive) (ha : a.wf u) (ctx : Nat) (hc : ctx < u.contexts)
    (p : Word) (s : State) (hl : 2 ^ 24 ≤ s.length.toNat) :
    (∃ corr a' t, decompress u a ctx p s = .ok (restored u p corr, a') t ∧ corr.natAbs ≤ 2 ^ u.corrBits ∧ a'.wf u ∧
      DecRun s t) ∨
    (∃ c w t, decompress u a ctx p s = .raise c w t ∧ DecBad s c t) := by
  unfold decompress
  have he : a.err[ctx]? = some (a.err[ctx]'(by have := ha.2.1; omega)) := List.getElem?_eq_getElem _
  rw [lookup_of_getElem? he]
  simp only [Res.bind_ok]
  obtain ⟨row, m, -, -, hm0, hm, hn⟩ := lookupMb_ok u a ha ctx (historyBin u (a.err[ctx]'(by have := ha.2.1; omega))) hc
    (historyBin_lt u hu _) s
  unfold readCorrector
  rw [hm0]
  simp only [Res.bind_ok]
  obtain ⟨sym, -, hy, hr⟩ := readSym_spec m hm s hl
  obtain ⟨w1, w2⟩ := smObserve_wf sym m hm hy
  rcases hr with ⟨-, t, e, r, -⟩ | ⟨-, t, e, -, f⟩
  · rw [e]
    simp only [Res.bind_ok]
    have ha2 := setK_wf u _ (putMb_wf u a ha ctx (historyBin u (a.err[ctx]'(by have := ha.2.1; omega))) _ w1 (by omega)) sym
      (by omega)
    rcases readRemainder_run u hu _ ha2 sym (by omega) t r.2 with ⟨c, a', v, ev, w, hc, hc2, rv⟩ | ⟨c, w, v, ev, fv⟩
    · rw [ev]
      exact .inl ⟨c, _, v, rfl, hc2, errUpdate_wf ctx c a' u w hc, r.trans rv⟩
    · rw [ev]
      exact .inr ⟨c, w, v, rfl, fv.mono r.1⟩
  · rw [e]
    exact .inr ⟨_, _, t, rfl, f, .inl rfl⟩

end Sys2Proof.Machine
end

