-- ==== Sys2Proof/Laws/Commands.lean ====
section
/-! SUPPORT. What each command can do on a state that meets the invariant, said once: it succeeds as `Succeeds` says, or fails as
`Fails` says, and never stops the model. Every whole-machine property follows from this by cases. -/

namespace Sys2Proof.Machine

/-- `t` is the state a successful `i` leaves before its response, `w` the result. -/
def Succeeds (i : Instr) (s : State) (w : Word) (t : State) : Prop :=
  match i with
  | .nop => t = s
  | .reset => t = resetEngine s
  | .rdCsr c => t = s ∧ readCsr c s = some w
  | .encInit => s.mode = .idle ∧
      t = ((((s.setBase 0#32).setLength (u32 AC_MAX_LENGTH)).setStage false s.cache 0#32).setMode .enc)
  | .encDone => s.mode = .enc ∧ ∃ v, EncFrame s v ∧ t = closeEncoder (flushStage v)
  | .encBit bit slot => s.mode = .enc ∧ ∃ m v, slot.toNat < s.capNbm.toNat ∧ s.bm.get slot.toNat = some m ∧ EncRun 3 s v ∧
      t = putBm slot (bmObserve bit m) v
  | .encSym slot y => s.mode = .enc ∧ ∃ m v, slot.toNat < s.capNsm.toNat ∧ s.sm.get slot.toNat = some m ∧
      y.toNat < m.nsym ∧ EncRun 3 s v ∧ t = putSm slot (smObserve y.toNat m) v
  | .encBits _ _ => s.mode = .enc ∧ EncRun 6 s t
  | .decInit => s.mode = .idle ∧ ∃ x, t = (((s.setLength (u32 AC_MAX_LENGTH)).setBin (s.bin.drop 4)).setValue x).setMode .dec
  | .decDone => s.mode = .dec ∧ t = closeDecoder s
  | .decBit slot => s.mode = .dec ∧ ∃ m v bit, slot.toNat < s.capNbm.toNat ∧ s.bm.get slot.toNat = some m ∧ DecRun s v ∧
      t = putBm slot (bmObserve bit m) v
  | .decSym slot => s.mode = .dec ∧ ∃ m v y, slot.toNat < s.capNsm.toNat ∧ s.sm.get slot.toNat = some m ∧ y < m.nsym ∧
      w = u32 y ∧ DecRun s v ∧ t = putSm slot (smObserve y m) v
  | .decBits _ => s.mode = .dec ∧ DecRun s t
  | .bmInit slot => s.mode ≠ .fault ∧ slot.toNat < s.capNbm.toNat ∧ t = putBm slot bmInitial s
  | .smCreate slot n => s.mode ≠ .fault ∧ slot.toNat < s.capNsm.toNat ∧ legalSymbolCount n ∧
      t = putSm slot (smUniform n.toNat) s
  | .smCreateB slot n c => s.mode ≠ .fault ∧ slot.toNat < s.capNsm.toNat ∧ legalSymbolCount n ∧ (∀ x ∈ c, 1 ≤ x.toNat) ∧
      sumCounts c ≤ 32768 ∧ t = putSm slot (smInit n.toNat c) s
  | .smReset slot => s.mode ≠ .fault ∧ ∃ m, slot.toNat < s.capNsm.toNat ∧ s.sm.get slot.toNat = some m ∧
      t = putSm slot (smUniform m.nsym) s
  | .icConfig unit g c => s.mode ≠ .fault ∧ unit.toNat < s.capNic.toNat ∧
      (1 ≤ geometryBits g ∧ geometryBits g ≤ 32) ∧ (1 ≤ geometryBitsHigh g ∧ geometryBitsHigh g ≤ 11) ∧
      (1 ≤ geometryBins g ∧ geometryBins g ≤ 33) ∧ (1 ≤ c.toNat ∧ c.toNat ≤ 65536) ∧
      c.toNat * geometryBins g ≤ s.capIcBank.toNat ∧
      t = putIc unit (configuredUnit (geometryBits g) (geometryBitsHigh g) (geometryBins g) c.toNat) s
  | .icInit unit => s.mode ≠ .fault ∧ ∃ u, unit.toNat < s.capNic.toNat ∧ s.ic.get unit.toNat = some u ∧
      t = putIc unit { u with adaptive := some (initialAdaptive u) } s
  | .icCompress unit _ _ _ => s.mode = .enc ∧ ∃ u a v, unit.toNat < s.capNic.toNat ∧ s.ic.get unit.toNat = some u ∧
      a.wf u ∧ EncRun 12 s v ∧ t = putIc unit { u with adaptive := some a } v
  | .icDecompress unit _ p => s.mode = .dec ∧ ∃ u a v corr, unit.toNat < s.capNic.toNat ∧ s.ic.get unit.toNat = some u ∧
      a.wf u ∧ w = restored u p corr ∧ corr.natAbs ≤ 2 ^ u.corrBits ∧ DecRun s v ∧
      t = putIc unit { u with adaptive := some a } v
  | .icGetK _ => s.mode ≠ .fault ∧ t = s

/-- The state `t` in which a failing `i` raises `c` with `w`: its own before an admission fault, that of its partial execution
otherwise. -/
def Fails (i : Instr) (s : State) (c : Cause) (w : Word) (t : State) : Prop :=
  c ≠ .none ∧ (c = .modeError → accepts i.opcode s.mode = false) ∧ (c = .outputStage → w = 0#32) ∧
  (t = s ∨
    (s.mode = .enc ∧ i.opcode ∈ [.encBit, .encSym, .encBits, .encDone, .icCompress] ∧ EncFrame s t ∧ t.stageWf) ∨
    (s.mode = .dec ∧ i.opcode ∈ [.decBit, .decSym, .decBits, .icDecompress] ∧ DecFrame s t) ∨
    (s.mode = .idle ∧ i = .decInit ∧ DecFrame s t))

/-- What an outcome of `i` on `s` may be. -/
def Runs (i : Instr) (s : State) (o : Host.Outcome State Fault Refusal) : Prop :=
  (∃ w t, o = .next (success w t) ∧ Succeeds i s w t) ∨ (∃ c w t, o = .next (takeFault c w t) ∧ Fails i s c w t)

/-! ## Parts shared by the commands -/

theorem Fails.here {i : Instr} {s : State} {c : Cause} {w : Word} (h0 : c ≠ .none) (h1 : c ≠ .modeError)
    (h2 : c ≠ .outputStage) : Fails i s c w s :=
  ⟨h0, fun h => absurd h h1, fun h => absurd h h2, .inl rfl⟩

theorem Runs.fail {i : Instr} {s : State} {c : Cause} {w : Word} {t : State} (h : Fails i s c w t) :
    Runs i s (Res.raise c w t).finish :=
  .inr ⟨c, w, t, rfl, h⟩

theorem Runs.ok {i : Instr} {s t : State} {w : Word} (h : Succeeds i s w t) : Runs i s (Res.ok w t).finish :=
  .inl ⟨w, t, rfl, h⟩

/-- The mode check of a command. -/
theorem Runs.mode {i : Instr} {s : State} (q : Mode → Prop) [Decidable (q s.mode)] {k : Unit → State → Res Word}
    (hn : ∀ m, ¬q m → accepts i.opcode m = false) (hp : q s.mode → Runs i s (k () s).finish) :
    Runs i s ((check (q s.mode) .modeError i.commandWord s).bind k).finish := by
  by_cases h : q s.mode
  · rw [check_pos h]
    exact hp h
  · rw [check_neg h]
    exact .fail ⟨by simp, fun _ => hn _ h, by simp, .inl rfl⟩

/-- Any other admission check. -/
theorem Runs.checks {i : Instr} {s : State} {p : Prop} [Decidable p] {c : Cause} {w : Word} {k : Unit → State → Res Word}
    (h0 : c ≠ .none) (h1 : c ≠ .modeError) (h2 : c ≠ .outputStage) (hp : p → Runs i s (k () s).finish) :
    Runs i s ((check p c w s).bind k).finish := by
  by_cases h : p
  · rw [check_pos h]
    exact hp h
  · rw [check_neg h]
    exact .fail (.here h0 h1 h2)

theorem Runs.useBm {i : Instr} {s : State} {slot : BitVec 16} {k : BitModel → State → Res Word}
    (hp : ∀ m, slot.toNat < s.capNbm.toNat → s.bm.get slot.toNat = some m → Runs i s (k m s).finish) :
    Runs i s ((Machine.useBm slot s).bind k).finish := by
  rcases useBm_cases slot s with ⟨m, e, h1, h2⟩ | e | e
  · rw [e]
    exact hp m h1 h2
  · rw [e]
    exact .fail (.here (by simp) (by simp) (by simp))
  · rw [e]
    exact .fail (.here (by simp) (by simp) (by simp))

theorem Runs.useSm {i : Instr} {s : State} {slot : BitVec 16} {k : SymModel → State → Res Word}
    (hp : ∀ m, slot.toNat < s.capNsm.toNat → s.sm.get slot.toNat = some m → Runs i s (k m s).finish) :
    Runs i s ((Machine.useSm slot s).bind k).finish := by
  rcases useSm_cases slot s with ⟨m, e, h1, h2⟩ | e | e
  · rw [e]
    exact hp m h1 h2
  · rw [e]
    exact .fail (.here (by simp) (by simp) (by simp))
  · rw [e]
    exact .fail (.here (by simp) (by simp) (by simp))

theorem Runs.useIc {i : Instr} {s : State} {unit : BitVec 8} {k : IcUnit → State → Res Word}
    (hp : ∀ u, unit.toNat < s.capNic.toNat → s.ic.get unit.toNat = some u → Runs i s (k u s).finish) :
    Runs i s ((Machine.useIc unit s).bind k).finish := by
  rcases useIc_cases unit s with ⟨m, e, h1, h2⟩ | e | e
  · rw [e]
    exact hp m h1 h2
  · rw [e]
    exact .fail (.here (by simp) (by simp) (by simp))
  · rw [e]
    exact .fail (.here (by simp) (by simp) (by simp))

theorem Runs.useIcInited {i : Instr} {s : State} {unit : BitVec 8} {k : IcUnit × IcAdaptive → State → Res Word}
    (hp : ∀ u a, unit.toNat < s.capNic.toNat → s.ic.get unit.toNat = some u → u.adaptive = some a →
      Runs i s (k (u, a) s).finish) :
    Runs i s ((Machine.useIcInited unit s).bind k).finish := by
  rcases useIcInited_cases unit s with ⟨u, a, e, h1, h2, h3⟩ | e | e
  · rw [e]
    exact hp u a h1 h2 h3
  · rw [e]
    exact .fail (.here (by simp) (by simp) (by simp))
  · rw [e]
    exact .fail (.here (by simp) (by simp) (by simp))

/-- An encoder procedure that finds the run counter full. -/
theorem Runs.full {i : Instr} {s t : State} {n : Nat} (hm : s.mode = .enc)
    (ho : i.opcode ∈ [.encBit, .encSym, .encBits, .encDone, .icCompress]) (h : EncFull n s t) :
    Runs i s (Res.raise .outputStage 0#32 t).finish :=
  .fail ⟨by simp, by simp, fun _ => rfl, .inr (.inl ⟨hm, ho, h.1, h.2.1⟩)⟩

/-- A decoder procedure that finds the stream exhausted or corrupt. -/
theorem Runs.bad {i : Instr} {s t : State} {c : Cause} {w : Word} (hm : s.mode = .dec)
    (ho : i.opcode ∈ [.decBit, .decSym, .decBits, .icDecompress]) (h : DecBad s c t) :
    Runs i s (Res.raise c w t).finish := by
  refine .fail ⟨?_, ?_, ?_, .inr (.inr (.inl ⟨hm, ho, h.1⟩))⟩ <;> rcases h.2 with h | h <;> simp [h]

/-! ## What the invariant gives a command -/

theorem State.Inv.stageWf {s : State} (h : s.Inv) : s.stageWf := h.2.2.2.2.1

theorem State.Inv.encReady {s : State} (h : s.Inv) (hm : s.mode = .enc) : EncReady s :=
  ⟨h.2.2.2.2.1, h.2.2.2.2.2.2 hm, h.2.2.2.1 (.inl hm)⟩

theorem State.Inv.decReady {s : State} (h : s.Inv) (hm : s.mode = .dec) : 2 ^ 24 ≤ s.length.toNat :=
  h.2.2.2.1 (.inr hm)

theorem State.Inv.bm_wf {s : State} (h : s.Inv) {i : Nat} {m : BitModel} (hm : s.bm.get i = some m) : m.wf :=
  (h.2.1.2.1 _ (Store.mem_of_get _ _ _ hm)).2

theorem State.Inv.sm_wf {s : State} (h : s.Inv) {i : Nat} {m : SymModel} (hm : s.sm.get i = some m) : m.wf :=
  (h.2.1.2.2.2.1 _ (Store.mem_of_get _ _ _ hm)).2

theorem State.Inv.ic_wf {s : State} (h : s.Inv) {i : Nat} {u : IcUnit} (hu : s.ic.get i = some u) :
    u.wf ∧ u.contexts * u.bins ≤ s.capIcBank.toNat :=
  (h.2.1.2.2.2.2.2 _ (Store.mem_of_get _ _ _ hu)).2

theorem find?_badCount_none {c : List Word} (h : c.find? badCount = none) : ∀ x ∈ c, 1 ≤ x.toNat ∧ x.toNat ≤ 32768 := by
  intro x hx
  have h1 := List.find?_eq_none.mp h x hx
  unfold badCount DM_MAX_COUNT at h1
  simp only [Bool.or_eq_true, beq_iff_eq, decide_eq_true_eq, not_or, Nat.not_lt] at h1
  refine ⟨?_, h1.2⟩
  have h2 : x.toNat ≠ 0 := fun h => h1.1 (BitVec.eq_of_toNat_eq h)
  omega

/-! ## Every command -/

theorem run_nop (s : State)  :
    Runs (.nop) s (exec (.nop) s) := by
  exact .inl ⟨0#32, s, rfl, rfl⟩

theorem run_reset (s : State)  :
    Runs (.reset) s (exec (.reset) s) := by
  exact .inl ⟨0#32, resetEngine s, rfl, rfl⟩

theorem run_rdCsr (s : State)  (c : BitVec 8) :
    Runs (.rdCsr c) s (exec (.rdCsr c) s) := by
  show Runs _ s (execRdCsr c s)
  unfold execRdCsr
  cases hc : readCsr c s with
  | some w => exact .ok ⟨rfl, hc⟩
  | none => exact .fail (.here (by simp) (by simp) (by simp))

theorem run_encInit (s : State)  :
    Runs (.encInit) s (exec (.encInit) s) := by
  refine .mode (· = .idle) (fun m h => by cases m <;> first | rfl | exact absurd rfl h) fun hm => ?_
  exact .ok ⟨hm, rfl⟩

theorem run_encDone (s : State) (h : s.Inv) :
    Runs (.encDone) s (exec (.encDone) s) := by
  refine .mode (· = .enc) (fun m h => by cases m <;> first | rfl | exact absurd rfl h) fun hm => ?_
  rcases flushInterval_run s (h.encReady hm) with ⟨t, e, f⟩ | ⟨t, e, f⟩
  · rw [e]
    exact .ok ⟨hm, t, f, rfl⟩
  · rw [e]
    exact .full hm (by simp [Instr.opcode]) f

theorem run_encBit (s : State) (h : s.Inv) (bit : BitVec 1) (slot : BitVec 16) :
    Runs (.encBit bit slot) s (exec (.encBit bit slot) s) := by
  refine .mode (· = .enc) (fun m h => by cases m <;> first | rfl | exact absurd rfl h) fun hm => ?_
  refine .useBm fun m h1 h2 => ?_
  rcases codeBit_spec m (h.bm_wf h2) bit s (h.encReady hm) with ⟨t, e, r, -⟩ | ⟨t, e, f⟩
  · rw [e]
    exact .ok ⟨hm, m, t, h1, h2, r, rfl⟩
  · rw [e]
    exact .full hm (by simp [Instr.opcode]) f

theorem run_encSym (s : State) (h : s.Inv) (slot : BitVec 16) (y : Word) :
    Runs (.encSym slot y) s (exec (.encSym slot y) s) := by
  refine .mode (· = .enc) (fun m h => by cases m <;> first | rfl | exact absurd rfl h) fun hm => ?_
  refine .useSm fun m h1 h2 => ?_
  refine .checks (by simp) (by simp) (by simp) fun hy => ?_
  rcases codeSym_spec m (h.sm_wf h2) y.toNat hy s (h.encReady hm) with ⟨t, e, r, -⟩ | ⟨t, e, f⟩
  · rw [e]
    exact .ok ⟨hm, m, t, h1, h2, hy, r, rfl⟩
  · rw [e]
    exact .full hm (by simp [Instr.opcode]) f

theorem run_encBits (s : State) (h : s.Inv) (n : BitVec 8) (v : Word) :
    Runs (.encBits n v) s (exec (.encBits n v) s) := by
  refine .mode (· = .enc) (fun m h => by cases m <;> first | rfl | exact absurd rfl h) fun hm => ?_
  refine .checks (by simp) (by simp) (by simp) fun hl => ?_
  refine .checks (by simp) (by simp) (by simp) fun hf => ?_
  obtain ⟨r1, r2, r3⟩ := h.encReady hm
  have hn : n.toNat ≤ 32 := hl.2
  have hv : v.toNat < 2 ^ n.toNat := by
    rcases hf with hf | hf
    · rw [show n.toNat = 32 by omega]
      exact v.isLt
    · exact hf
  rcases encDirect_spec n.toNat v.toNat s r1 r2 r3 hn hv with ⟨t, e, t1, t2, t3, t4, t5, -⟩ | ⟨t, e, f⟩
  · rw [e]
    exact .ok ⟨hm, t4, t1, t2, t3, t5⟩
  · rw [e]
    exact .full hm (by simp [Instr.opcode]) f

theorem run_decInit (s : State)  :
    Runs (.decInit) s (exec (.decInit) s) := by
  refine .mode (· = .idle) (fun m h => by cases m <;> first | rfl | exact absurd rfl h) fun hm => ?_
  rcases primeBytes_spec PRIME_BYTES 0#32 (s.setLength (u32 AC_MAX_LENGTH)) with ⟨-, e⟩ | ⟨-, e⟩
  · rw [e]
    exact .ok ⟨hm, _, rfl⟩
  · rw [e]
    exact .fail ⟨by simp, by simp, by simp, .inr (.inr (.inr ⟨hm, rfl, List.nil_suffix, rfl⟩))⟩

theorem run_decDone (s : State)  :
    Runs (.decDone) s (exec (.decDone) s) := by
  refine .mode (· = .dec) (fun m h => by cases m <;> first | rfl | exact absurd rfl h) fun hm => ?_
  exact .ok ⟨hm, rfl⟩

theorem run_decBit (s : State) (h : s.Inv) (slot : BitVec 16) :
    Runs (.decBit slot) s (exec (.decBit slot) s) := by
  refine .mode (· = .dec) (fun m h => by cases m <;> first | rfl | exact absurd rfl h) fun hm => ?_
  refine .useBm fun m h1 h2 => ?_
  rcases readBit_spec m (h.bm_wf h2) s (h.decReady hm) with ⟨-, t, e, r, -⟩ | ⟨-, t, e, -, f⟩
  · rw [e]
    exact .ok ⟨hm, m, t, _, h1, h2, r, rfl⟩
  · rw [e]
    exact .bad hm (by simp [Instr.opcode]) ⟨f, .inl rfl⟩

theorem run_decSym (s : State) (h : s.Inv) (slot : BitVec 16) :
    Runs (.decSym slot) s (exec (.decSym slot) s) := by
  refine .mode (· = .dec) (fun m h => by cases m <;> first | rfl | exact absurd rfl h) fun hm => ?_
  refine .useSm fun m h1 h2 => ?_
  obtain ⟨y, -, hy, hr⟩ := readSym_spec m (h.sm_wf h2) s (h.decReady hm)
  rcases hr with ⟨-, t, e, r, -⟩ | ⟨-, t, e, -, f⟩
  · rw [e]
    exact .ok ⟨hm, m, t, y, h1, h2, hy, rfl, r, rfl⟩
  · rw [e]
    exact .bad hm (by simp [Instr.opcode]) ⟨f, .inl rfl⟩

theorem run_decBits (s : State) (h : s.Inv) (n : BitVec 8) :
    Runs (.decBits n) s (exec (.decBits n) s) := by
  refine .mode (· = .dec) (fun m h => by cases m <;> first | rfl | exact absurd rfl h) fun hm => ?_
  refine .checks (by simp) (by simp) (by simp) fun hl => ?_
  rcases decDirect_run n.toNat s (h.decReady hm) hl.2 with ⟨v, t, e, -, r⟩ | ⟨c, w, t, e, f⟩
  · rw [e]
    exact .ok ⟨hm, r⟩
  · rw [e]
    exact .bad hm (by simp [Instr.opcode]) f

theorem run_bmInit (s : State)  (slot : BitVec 16) :
    Runs (.bmInit slot) s (exec (.bmInit slot) s) := by
  refine .mode (· ≠ .fault) (fun m h => by cases m <;> first | rfl | exact absurd (by simp) h) fun hm => ?_
  refine .checks (by simp) (by simp) (by simp) fun h1 => ?_
  exact .ok ⟨hm, h1, rfl⟩

theorem run_smCreate (s : State)  (slot : BitVec 16) (n : Word) :
    Runs (.smCreate slot n) s (exec (.smCreate slot n) s) := by
  refine .mode (· ≠ .fault) (fun m h => by cases m <;> first | rfl | exact absurd (by simp) h) fun hm => ?_
  refine .checks (by simp) (by simp) (by simp) fun h1 => ?_
  refine .checks (by simp) (by simp) (by simp) fun h2 => ?_
  exact .ok ⟨hm, h1, h2, rfl⟩

theorem run_smCreateB (s : State)  (slot : BitVec 16) (n : Word) (c : List Word) :
    Runs (.smCreateB slot n c) s (exec (.smCreateB slot n c) s) := by
  refine .mode (· ≠ .fault) (fun m h => by cases m <;> first | rfl | exact absurd (by simp) h) fun hm => ?_
  refine .checks (by simp) (by simp) (by simp) fun h1 => ?_
  refine .checks (by simp) (by simp) (by simp) fun h2 => ?_
  unfold checkBias
  cases hb : c.find? badCount with
  | some x => exact .fail (.here (by simp) (by simp) (by simp))
  | none =>
    refine .checks (by simp) (by simp) (by simp) fun h3 => ?_
    exact .ok ⟨hm, h1, h2, fun x hx => (find?_badCount_none hb x hx).1, h3, rfl⟩

theorem run_smReset (s : State)  (slot : BitVec 16) :
    Runs (.smReset slot) s (exec (.smReset slot) s) := by
  refine .mode (· ≠ .fault) (fun m h => by cases m <;> first | rfl | exact absurd (by simp) h) fun hm => ?_
  refine .useSm fun m h1 h2 => ?_
  exact .ok ⟨hm, m, h1, h2, rfl⟩

theorem run_icConfig (s : State)  (unit : BitVec 8) (g c : Word) :
    Runs (.icConfig unit g c) s (exec (.icConfig unit g c) s) := by
  refine .mode (· ≠ .fault) (fun m h => by cases m <;> first | rfl | exact absurd (by simp) h) fun hm => ?_
  refine .checks (by simp) (by simp) (by simp) fun h1 => ?_
  unfold checkGeometry
  rw [Res.bind_assoc]
  refine .checks (by simp) (by simp) (by simp) fun h2 => ?_
  rw [Res.bind_assoc]
  refine .checks (by simp) (by simp) (by simp) fun h3 => ?_
  rw [Res.bind_assoc]
  refine .checks (by simp) (by simp) (by simp) fun h4 => ?_
  rw [Res.bind_assoc]
  refine .checks (by simp) (by simp) (by simp) fun h5 => ?_
  rw [Res.bind_assoc]
  refine .checks (by simp) (by simp) (by simp) fun h6 => ?_
  refine .checks (by simp) (by simp) (by simp) fun h7 => ?_
  exact .ok ⟨hm, h1, h3, h4, h5, h6, h7, rfl⟩

theorem run_icInit (s : State)  (unit : BitVec 8) :
    Runs (.icInit unit) s (exec (.icInit unit) s) := by
  refine .mode (· ≠ .fault) (fun m h => by cases m <;> first | rfl | exact absurd (by simp) h) fun hm => ?_
  refine .useIc fun u h1 h2 => ?_
  exact .ok ⟨hm, u, h1, h2, rfl⟩

theorem run_icCompress (s : State) (h : s.Inv) (unit : BitVec 8) (ctx : BitVec 16) (p r : Word) :
    Runs (.icCompress unit ctx p r) s (exec (.icCompress unit ctx p r) s) := by
  refine .mode (· = .enc) (fun m h => by cases m <;> first | rfl | exact absurd rfl h) fun hm => ?_
  refine .useIcInited fun u a h1 h2 h3 => ?_
  refine .checks (by simp) (by simp) (by simp) fun h4 => ?_
  refine .checks (by simp) (by simp) (by simp) fun h5 => ?_
  obtain ⟨⟨hl, ha⟩, -⟩ := h.ic_wf h2
  obtain ⟨b1, b2⟩ := foldedResidual_range u p r
  rcases compress_run u hl a (ha a h3) ctx.toNat h4 _ b1 b2 h5 s (h.encReady hm) with ⟨a', t, e, w, q⟩ | ⟨t, e, f⟩
  · simp only
    rw [e]
    exact .ok ⟨hm, u, a', t, h1, h2, w, q, rfl⟩
  · simp only
    rw [e]
    exact .full hm (by simp [Instr.opcode]) f

theorem run_icDecompress (s : State) (h : s.Inv) (unit : BitVec 8) (ctx : BitVec 16) (p : Word) :
    Runs (.icDecompress unit ctx p) s (exec (.icDecompress unit ctx p) s) := by
  refine .mode (· = .dec) (fun m h => by cases m <;> first | rfl | exact absurd rfl h) fun hm => ?_
  refine .useIcInited fun u a h1 h2 h3 => ?_
  refine .checks (by simp) (by simp) (by simp) fun h4 => ?_
  obtain ⟨⟨hl, ha⟩, -⟩ := h.ic_wf h2
  rcases decompress_run u hl a (ha a h3) ctx.toNat h4 p s (h.decReady hm) with ⟨corr, a', t, e, hc, w, q⟩ | ⟨c, w, t, e, f⟩
  · simp only
    rw [e]
    exact .ok ⟨hm, u, a', t, corr, h1, h2, w, rfl, hc, q, rfl⟩
  · simp only
    rw [e]
    exact .bad hm (by simp [Instr.opcode]) f

theorem run_icGetK (s : State)  (unit : BitVec 8) :
    Runs (.icGetK unit) s (exec (.icGetK unit) s) := by
  refine .mode (· ≠ .fault) (fun m h => by cases m <;> first | rfl | exact absurd (by simp) h) fun hm => ?_
  refine .useIcInited fun u a h1 h2 h3 => ?_
  exact .ok ⟨hm, rfl⟩

/-- Every command on a state that meets the invariant succeeds or fails, and never stops the model. -/
theorem exec_runs (i : Instr) (s : State) (h : s.Inv) : Runs i s (exec i s) := by
  cases i with
  | nop => exact run_nop s
  | reset => exact run_reset s
  | rdCsr c => exact run_rdCsr s c
  | encInit => exact run_encInit s
  | encDone => exact run_encDone s h
  | encBit bit slot => exact run_encBit s h bit slot
  | encSym slot y => exact run_encSym s h slot y
  | encBits n v => exact run_encBits s h n v
  | decInit => exact run_decInit s
  | decDone => exact run_decDone s
  | decBit slot => exact run_decBit s h slot
  | decSym slot => exact run_decSym s h slot
  | decBits n => exact run_decBits s h n
  | bmInit slot => exact run_bmInit s slot
  | smCreate slot n => exact run_smCreate s slot n
  | smCreateB slot n c => exact run_smCreateB s slot n c
  | smReset slot => exact run_smReset s slot
  | icConfig unit g c => exact run_icConfig s unit g c
  | icInit unit => exact run_icInit s unit
  | icCompress unit ctx p r => exact run_icCompress s h unit ctx p r
  | icDecompress unit ctx p => exact run_icDecompress s h unit ctx p
  | icGetK unit => exact run_icGetK s unit

/-! ## Where IC_COMPRESS and IC_DECOMPRESS end badly (R203, R204, R208, R209) -/

/-- What the invariant says of the class model a residual is coded with. -/
theorem State.ClassModel.spec {s : State} {unit : BitVec 8} {ctx : BitVec 16} {u : IcUnit} {a : IcAdaptive} {m : SymModel}
    (hc : s.ClassModel unit ctx u a m) (h : s.Inv) : u.legal ∧ a.wf u ∧ m.wf ∧ m.nsym = u.corrBits + 1 := by
  obtain ⟨-, h2, h3, h4, e, row, -, h6, h7⟩ := hc
  have hu := (h.ic_wf h2).1
  have ha := hu.2 a (by rw [h3]; rfl)
  obtain ⟨row', m', q1, q2, -, q4, q5⟩ := lookupMb_ok u a ha ctx.toNat (historyBin u e) h4 (historyBin_lt u hu.1 e) s
  obtain rfl : row' = row := by simpa [q1] using h6
  obtain rfl : m' = m := by simpa [q2] using h7
  exact ⟨hu.1, ha, q4, q5⟩

/-- IC_DECOMPRESS raises what its class symbol and its remainder raise, whichever MB and K they meet. -/
theorem icDecompress_raise {s : State} {unit : BitVec 8} {ctx : BitVec 16} {u : IcUnit} {a : IcAdaptive} {m : SymModel}
    (hc : s.ClassModel unit ctx u a m) (hm : s.mode = .dec) (p : Word) {c : Cause} {w : Word} {t : State}
    (hr : ∀ f : Nat × SymModel → IcAdaptive, (∀ r, (f r).mc = a.mc ∧ (f r).mc0 = a.mc0) →
      ((readSym m s).bind fun r s => readRemainder u r.1 (f r) s) = .raise c w t) :
    exec (.icDecompress unit ctx p) s = .next (takeFault c w t) := by
  obtain ⟨h1, h2, h3, h4, e, row, h5, h6, h7⟩ := hc
  have hl : lookupMb a ctx.toNat (historyBin u e) s = .ok m s := by
    simp only [lookupMb, lookup_of_getElem? h6, Res.bind_ok, lookup_of_getElem? h7]
  simp only [exec, execIcDecompress, check_pos hm, Res.bind_ok, useIcInited_ok _ _ _ _ h1 h2 h3, check_pos h4, decompress,
    lookup_of_getElem? h5, readCorrector, hl]
  have := hr (fun r => { putMb ctx.toNat (historyBin u e) r.2 a with k := r.1 }) fun _ => ⟨rfl, rfl⟩
  dsimp only at this
  rw [this]
  rfl

/-- IC_COMPRESS raises what its class symbol and its remainder raise, whichever MB and K they meet. -/
theorem icCompress_raise {s : State} {unit : BitVec 8} {ctx : BitVec 16} {u : IcUnit} {a : IcAdaptive} {m : SymModel}
    (hc : s.ClassModel unit ctx u a m) (h : s.Inv) (hm : s.mode = .enc) (p r : Word) (k : Nat)
    (hk : InClass (wrappedResidual u.bits p r) k) (hb : k ≤ u.corrBits) {c : Cause} {w : Word} {t : State}
    (hr : ∀ f : SymModel → IcAdaptive, (∀ x, (f x).mc = a.mc ∧ (f x).mc0 = a.mc0) →
      ((codeSym m k s).bind fun x s => writeRemainder u (wrappedResidual u.bits p r) k (f x) s) = .raise c w t) :
    exec (.icCompress unit ctx p r) s = .next (takeFault c w t) := by
  have hu := (hc.spec h).1
  obtain ⟨h1, h2, h3, h4, e, row, h5, h6, h7⟩ := hc
  have hf := foldedResidual_eq u hu p r
  have hrange := foldedResidual_range u p r
  rw [hf] at hrange
  have hcl := (inClass_iff _ k hrange.1 hrange.2).mp hk
  have hl : lookupMb { a with k := k } ctx.toNat (historyBin u e) s = .ok m s := by
    simp only [lookupMb, lookup_of_getElem? h6, Res.bind_ok, lookup_of_getElem? h7]
  simp only [exec, execIcCompress, check_pos hm, Res.bind_ok, useIcInited_ok _ _ _ _ h1 h2 h3, check_pos h4, compress, hf, hcl,
    check_pos hb, lookup_of_getElem? h5, writeCorrector, hl]
  have := hr (fun x => putMb ctx.toNat (historyBin u e) x { a with k := k }) fun _ => ⟨rfl, rfl⟩
  rw [this]
  rfl

end Sys2Proof.Machine
end

