-- ==== Sys2Proof/Laws/Encoding.lean ====
section
/-! SUPPORT. The encoding tables (30_encoding.md R91 to R95): the fields of word 0 are read back as they were packed, and every
row of the opcode map is found by its own code. -/

namespace Sys2Proof

theorem Opcode.ofCode_code (o : Opcode) : Opcode.ofCode o.code = some o := by cases o <;> decide

theorem Opcode.code_of_ofCode {c : BitVec 8} {o : Opcode} (h : Opcode.ofCode c = some o) : o.code = c := by
  simpa using List.find?_some h

/-- Two rows of R94 never share a code. -/
theorem Opcode.code_injective {o p : Opcode} (h : o.code = p.code) : o = p := by
  have h1 := ofCode_code o
  rw [h, ofCode_code p] at h1
  exact (Option.some.inj h1).symm

theorem packFields_toNat (c a : BitVec 8) (b : BitVec 16) :
    (packFields c a b).toNat = c.toNat * 2 ^ 24 + a.toNat * 2 ^ 16 + b.toNat := by
  have hb := b.isLt
  have ha := a.isLt
  have hc := c.isLt
  unfold packFields
  rw [BitVec.toNat_append, BitVec.toNat_append, ← Nat.shiftLeft_add_eq_or_of_lt ha, ← Nat.shiftLeft_add_eq_or_of_lt hb]
  simp only [Nat.shiftLeft_eq]
  omega

@[simp] theorem fieldOpc_packFields (c a : BitVec 8) (b : BitVec 16) : fieldOpc (packFields c a b) = c := by
  have hb := b.isLt
  have ha := a.isLt
  have hc := c.isLt
  apply BitVec.eq_of_toNat_eq
  unfold fieldOpc
  rw [BitVec.extractLsb'_toNat, packFields_toNat, Nat.shiftRight_eq_div_pow]
  omega

@[simp] theorem fieldA_packFields (c a : BitVec 8) (b : BitVec 16) : fieldA (packFields c a b) = a := by
  have hb := b.isLt
  have ha := a.isLt
  have hc := c.isLt
  apply BitVec.eq_of_toNat_eq
  unfold fieldA
  rw [BitVec.extractLsb'_toNat, packFields_toNat, Nat.shiftRight_eq_div_pow]
  omega

@[simp] theorem fieldB_packFields (c a : BitVec 8) (b : BitVec 16) : fieldB (packFields c a b) = b := by
  have hb := b.isLt
  have ha := a.isLt
  have hc := c.isLt
  apply BitVec.eq_of_toNat_eq
  unfold fieldB
  rw [BitVec.extractLsb'_toNat, packFields_toNat, Nat.shiftRight_eq_div_pow]
  omega

/-- A word is its three fields. -/
theorem packFields_fields (w : Word) : packFields (fieldOpc w) (fieldA w) (fieldB w) = w := by
  have hw := w.isLt
  apply BitVec.eq_of_toNat_eq
  rw [packFields_toNat]
  unfold fieldOpc fieldA fieldB
  simp only [BitVec.extractLsb'_toNat, Nat.shiftRight_eq_div_pow]
  omega

theorem packFields_and (c d a e : BitVec 8) (b f : BitVec 16) :
    packFields c a b &&& packFields d e f = packFields (c &&& d) (a &&& e) (b &&& f) := by
  unfold packFields
  rw [BitVec.and_append, BitVec.and_append]

theorem fieldOpc_commandWord (i : Instr) : fieldOpc i.commandWord = i.opcode.code := fieldOpc_packFields _ _ _

theorem fieldA_commandWord (i : Instr) : fieldA i.commandWord = i.encodeA := fieldA_packFields _ _ _

theorem fieldB_commandWord (i : Instr) : fieldB i.commandWord = i.encodeB := fieldB_packFields _ _ _

/-- A command word and a mask meet only where its A and its B field meet the mask's. -/
theorem Instr.commandWord_and (i : Instr) (e : BitVec 8) (f : BitVec 16) (ha : i.encodeA &&& e = 0#8) (hb : i.encodeB &&& f = 0#16) :
    i.commandWord &&& packFields 0#8 e f = 0#32 := by
  unfold commandWord
  rw [packFields_and, ha, hb, BitVec.and_zero]
  rfl

theorem setWidth_bit_and (bit : BitVec 1) : bit.setWidth 8 &&& 0xFE#8 = 0#8 := by revert bit; decide

end Sys2Proof
end

