-- ==== Sys2Proof/Laws/PerInstr.lean ====
section
/-! SUPPORT. The family PacketShape, one lemma per constructor: the packet of a well-formed instruction has the length R92 gives
its opcode, and a command word whose must-be-zero bits are zero (30_encoding.md R92, R95). -/

namespace Sys2Proof.Laws.PacketShape

/-- The shape of an instruction's packet. -/
def Statement (i : Instr) : Prop :=
  i.wellFormed = true →
    (encode i).length = 1 + operandCount i.opcode (i.operandWords.headD 0#32) ∧
    i.commandWord &&& i.opcode.mustBeZero = 0#32

theorem nop : Statement .nop :=
  fun _ => ⟨rfl, Instr.commandWord_and .nop 0xFF#8 0xFFFF#16 BitVec.zero_and BitVec.zero_and⟩

theorem reset : Statement .reset :=
  fun _ => ⟨rfl, Instr.commandWord_and .reset 0xFF#8 0xFFFF#16 BitVec.zero_and BitVec.zero_and⟩

theorem rdCsr (csr : BitVec 8) : Statement (.rdCsr csr) :=
  fun _ => ⟨rfl, Instr.commandWord_and (.rdCsr csr) 0#8 0xFFFF#16 BitVec.and_zero BitVec.zero_and⟩

theorem encInit : Statement .encInit :=
  fun _ => ⟨rfl, Instr.commandWord_and .encInit 0xFF#8 0xFFFF#16 BitVec.zero_and BitVec.zero_and⟩

theorem encDone : Statement .encDone :=
  fun _ => ⟨rfl, Instr.commandWord_and .encDone 0xFF#8 0xFFFF#16 BitVec.zero_and BitVec.zero_and⟩

theorem encBit (bit : BitVec 1) (slot : BitVec 16) : Statement (.encBit bit slot) :=
  fun _ => ⟨rfl, Instr.commandWord_and (.encBit bit slot) 0xFE#8 0#16 (setWidth_bit_and bit) BitVec.and_zero⟩

theorem encSym (slot : BitVec 16) (symbol : Word) : Statement (.encSym slot symbol) :=
  fun _ => ⟨rfl, Instr.commandWord_and (.encSym slot symbol) 0xFF#8 0#16 BitVec.zero_and BitVec.and_zero⟩

theorem encBits (n : BitVec 8) (value : Word) : Statement (.encBits n value) :=
  fun _ => ⟨rfl, Instr.commandWord_and (.encBits n value) 0#8 0xFFFF#16 BitVec.and_zero BitVec.zero_and⟩

theorem decInit : Statement .decInit :=
  fun _ => ⟨rfl, Instr.commandWord_and .decInit 0xFF#8 0xFFFF#16 BitVec.zero_and BitVec.zero_and⟩

theorem decDone : Statement .decDone :=
  fun _ => ⟨rfl, Instr.commandWord_and .decDone 0xFF#8 0xFFFF#16 BitVec.zero_and BitVec.zero_and⟩

theorem decBit (slot : BitVec 16) : Statement (.decBit slot) :=
  fun _ => ⟨rfl, Instr.commandWord_and (.decBit slot) 0xFF#8 0#16 BitVec.zero_and BitVec.and_zero⟩

theorem decSym (slot : BitVec 16) : Statement (.decSym slot) :=
  fun _ => ⟨rfl, Instr.commandWord_and (.decSym slot) 0xFF#8 0#16 BitVec.zero_and BitVec.and_zero⟩

theorem decBits (n : BitVec 8) : Statement (.decBits n) :=
  fun _ => ⟨rfl, Instr.commandWord_and (.decBits n) 0#8 0xFFFF#16 BitVec.and_zero BitVec.zero_and⟩

theorem bmInit (slot : BitVec 16) : Statement (.bmInit slot) :=
  fun _ => ⟨rfl, Instr.commandWord_and (.bmInit slot) 0xFF#8 0#16 BitVec.zero_and BitVec.and_zero⟩

theorem smCreate (slot : BitVec 16) (nsym : Word) : Statement (.smCreate slot nsym) :=
  fun _ => ⟨rfl, Instr.commandWord_and (.smCreate slot nsym) 0xFF#8 0#16 BitVec.zero_and BitVec.and_zero⟩

theorem smCreateB (slot : BitVec 16) (nsym : Word) (counts : List Word) : Statement (.smCreateB slot nsym counts) := fun h => by
  refine ⟨?_, Instr.commandWord_and (.smCreateB slot nsym counts) 0xFF#8 0#16 (BitVec.zero_and) (BitVec.and_zero)⟩
  have hc : counts.length = smCreateBCounts nsym := by simpa [Instr.wellFormed] using h
  have hb : biasWords nsym = smCreateBCounts nsym := rfl
  show counts.length + 1 + 1 = 1 + (1 + biasWords nsym)
  omega

theorem smReset (slot : BitVec 16) : Statement (.smReset slot) :=
  fun _ => ⟨rfl, Instr.commandWord_and (.smReset slot) 0xFF#8 0#16 BitVec.zero_and BitVec.and_zero⟩

theorem icConfig (unit : BitVec 8) (geometry contexts : Word) : Statement (.icConfig unit geometry contexts) :=
  fun _ => ⟨rfl, Instr.commandWord_and (.icConfig unit geometry contexts) 0#8 0xFFFF#16 BitVec.and_zero BitVec.zero_and⟩

theorem icInit (unit : BitVec 8) : Statement (.icInit unit) :=
  fun _ => ⟨rfl, Instr.commandWord_and (.icInit unit) 0#8 0xFFFF#16 BitVec.and_zero BitVec.zero_and⟩

theorem icCompress (unit : BitVec 8) (ctx : BitVec 16) (predicted actual : Word) : Statement (.icCompress unit ctx predicted actual) :=
  fun _ => ⟨rfl, Instr.commandWord_and (.icCompress unit ctx predicted actual) 0#8 0#16 BitVec.and_zero BitVec.and_zero⟩

theorem icDecompress (unit : BitVec 8) (ctx : BitVec 16) (predicted : Word) : Statement (.icDecompress unit ctx predicted) :=
  fun _ => ⟨rfl, Instr.commandWord_and (.icDecompress unit ctx predicted) 0#8 0#16 BitVec.and_zero BitVec.and_zero⟩

theorem icGetK (unit : BitVec 8) : Statement (.icGetK unit) :=
  fun _ => ⟨rfl, Instr.commandWord_and (.icGetK unit) 0#8 0xFFFF#16 BitVec.and_zero BitVec.zero_and⟩

end Sys2Proof.Laws.PacketShape
end

