-- ==== Sys2Proof/Tests/Slice0.lean ====
section
/-! SUPPORT. The model's own tests: ill-formed terms, words written out from 30_encoding.md, single steps whose results are those
of 95_test_vectors.md (V<n>) or worked by hand from the rule named, and for every statement with hypotheses a state and operands
that meet them. -/

namespace Sys2Proof.Tests

open Machine

/-! ## WellFormed: terms no packet expresses (R92) -/

theorem test_illformed_too_few_counts : (Instr.smCreateB 0#16 3#32 [1#32, 1#32]).wellFormed = false := by decide

theorem test_illformed_too_many_counts : (Instr.smCreateB 0#16 2#32 [1#32, 1#32, 1#32]).wellFormed = false := by decide

/-- A symbol count outside 2 .. 2048 carries no counts. -/
theorem test_illformed_counts_of_illegal_size :
    (Instr.smCreateB 0#16 1#32 [1#32]).wellFormed = false ∧ (Instr.smCreateB 0#16 2049#32 [1#32]).wellFormed = false ∧
    (Instr.smCreateB 0#16 2049#32 []).wellFormed = true := by decide

/-! ## Decoding: words written out from R91 to R96 -/

theorem test_decode_system :
    decode [0x00000000#32] = .instr .nop [] ∧
    decode [0x01000000#32, 0x00000000#32] = .instr .reset [0x00000000#32] ∧
    decode [0x02060000#32] = .instr (.rdCsr 6#8) [] ∧
    decode [0x02FF0000#32] = .instr (.rdCsr 255#8) [] := by decide

theorem test_decode_encoder :
    decode [0x10000000#32] = .instr .encInit [] ∧
    decode [0x11000000#32] = .instr .encDone [] ∧
    decode [0x12010102#32] = .instr (.encBit 1#1 0x0102#16) [] ∧
    decode [0x13000203#32, 7#32] = .instr (.encSym 0x0203#16 7#32) [] ∧
    decode [0x14200000#32, 0xDEADBEEF#32] = .instr (.encBits 32#8 0xDEADBEEF#32) [] := by decide

theorem test_decode_decoder :
    decode [0x20000000#32] = .instr .decInit [] ∧
    decode [0x21000000#32] = .instr .decDone [] ∧
    decode [0x2200FFFE#32] = .instr (.decBit 0xFFFE#16) [] ∧
    decode [0x23000304#32] = .instr (.decSym 0x0304#16) [] ∧
    decode [0x24080000#32] = .instr (.decBits 8#8) [] := by decide

theorem test_decode_models :
    decode [0x30000405#32] = .instr (.bmInit 0x0405#16) [] ∧
    decode [0x31000001#32, 3#32] = .instr (.smCreate 1#16 3#32) [] ∧
    decode [0x32000000#32, 4#32, 1#32, 2#32, 3#32, 10#32, 5#32] = .instr (.smCreateB 0#16 4#32 [1#32, 2#32, 3#32, 10#32]) [5#32] ∧
    decode [0x32000000#32, 1#32, 9#32] = .instr (.smCreateB 0#16 1#32 []) [9#32] ∧
    decode [0x33000506#32] = .instr (.smReset 0x0506#16) [] := by decide

theorem test_decode_integer_compressor :
    decode [0x40010000#32, 0x00040810#32, 1#32] = .instr (.icConfig 1#8 0x00040810#32 1#32) [] ∧
    decode [0x41010000#32] = .instr (.icInit 1#8) [] ∧
    decode [0x42010004#32, 5#32, 6#32] = .instr (.icCompress 1#8 4#16 5#32 6#32) [] ∧
    decode [0x43010004#32, 5#32] = .instr (.icDecompress 1#8 4#16 5#32) [] ∧
    decode [0x44010000#32] = .instr (.icGetK 1#8) [] := by decide

/-- V93, V91 and the two ends of each reserved range of R96. -/
theorem test_decode_rejects :
    decode [0x12020000#32] = .illegal .mustBeZero 0x12020000#32 [] ∧
    decode [0x00010000#32, 1#32] = .illegal .mustBeZero 0x00010000#32 [1#32] ∧
    decode [0x13800000#32, 1#32, 2#32] = .illegal .mustBeZero 0x13800000#32 [2#32] ∧
    ([0x03, 0x0F, 0x15, 0x1F, 0x25, 0x2F, 0x34, 0x3F, 0x45, 0xFF].map fun c : BitVec 8 => Opcode.ofCode c) =
      List.replicate 10 none := by decide

/-- The host's numbering: word 1 above word 0, cut at the packet's length. -/
theorem test_decode_table_word :
    decodeTableWord 64 0x000000A514080000 = some (.encBits 8#8 0xA5#32) ∧
    decodeTableWord 32 0x13000003 = some (.encSym 3#16 0#32) ∧
    decodeTableWord 32 0x05000000 = none ∧ decodeTableWord 32 0x00000001 = none := by decide

/-! ## A small state -/

/-- The adaptive unit IC_CONFIG and IC_INIT leave. -/
def unitOf (bits high bins contexts : Nat) : IcUnit :=
  { configuredUnit bits high bins contexts with adaptive := some (initialAdaptive (configuredUnit bits high bins contexts)) }

/-- A machine in mode `m`: a fresh bit model, a fresh 4-symbol model, an 8-bit unit with the geometry of V83 and two contexts,
a 32-bit unit. -/
def small (m : Mode) (base value length : Word) (bin : List Byte) : State :=
  { State.reset with
    mode := m, base := base, value := value, length := length, bin := bin,
    bm := [(0, bmInitial)], sm := [(0, smUniform 4)], ic := [(0, unitOf 8 4 4 2), (1, unitOf 32 8 1 1)] }

/-- The encoder right after ENC_INIT. -/
def enc : State := small .enc 0#32 0#32 0xFFFFFFFF#32 []

/-- The decoder right after DEC_INIT on the bytes V50 reads. -/
def dec : State := small .dec 0#32 0x95280000#32 0xFFFFFFFF#32 [0#8]

/-- What `f` shows of the next state. -/
def shows {α : Type} (o : Host.Outcome State Fault Refusal) (f : State → α) : Option α :=
  match o with
  | .next t => some (f t)
  | .fault _ => none
  | .refused _ => none

/-- BASE, LENGTH, the bytes on BOUT, the pending bytes. -/
structure Coder where
  base : Word
  length : Word
  bout : List Byte
  pending : List Byte
  deriving DecidableEq, Repr

/-- VALUE, LENGTH, how many bytes are left on BIN, the last response. -/
structure Reader where
  value : Word
  length : Word
  left : Nat
  last : Option Response
  deriving DecidableEq, Repr

/-- MODE, CAUSE, INFO, the last response. -/
structure Report where
  mode : Mode
  cause : Cause
  info : Word
  last : Option Response
  deriving DecidableEq, Repr

def coder (t : State) : Coder := ⟨t.base, t.length, t.bout, t.pending⟩

def reader (t : State) : Reader := ⟨t.value, t.length, t.bin.length, t.rsp.getLast?⟩

def report (t : State) : Report := ⟨t.mode, t.cause, t.info, t.rsp.getLast?⟩

/-! ## System commands -/

/-- R230, in FAULT mode too: only the response. -/
theorem test_nop : exec .nop { enc with mode := .fault } = .next { enc with mode := .fault, rsp := [⟨0#8, 0#32⟩] } := by rfl

/-- V98: RESET in a session with `EE` pending; BOUT keeps `BE`. -/
theorem test_reset :
    shows (exec .reset { enc with bout := [0xBE#8], cacheValid := true, cache := 0xEE#8, ffrun := 3#32 })
      (fun t => (report t, t.bout, t.cacheValid, t.ffrun)) =
    some (⟨.idle, .none, 0#32, some ⟨0#8, 0#32⟩⟩, [0xBE#8], false, 0#32) ∧
    shows (exec .reset enc) (fun t => (t.bm.length, t.sm.length, t.ic.length)) = some (0, 0, 0) :=
  ⟨by decide, by decide⟩

/-- V90 and V91: STATUS, CAUSE, INFO and the capabilities. -/
theorem test_rd_csr :
    ([0#8, 1#8, 2#8, 3#8, 6#8].map fun c =>
      (shows (exec (.rdCsr c) { enc with mode := .fault, cause := .illegalCommand, info := 0x05000000#32 })
        (fun t => t.rsp.getLast?)).join) =
    [some ⟨0#8, 3#32⟩, some ⟨0#8, 1#32⟩, some ⟨0#8, 0x05000000#32⟩, some ⟨0#8, 8#32⟩, some ⟨0#8, 0x400#32⟩] := by decide

/-- V91: RD_CSR 7, outside FAULT mode and inside. -/
theorem test_rd_csr_7 :
    shows (exec (.rdCsr 7#8) enc) report = some ⟨.fault, .illegalCommand, 0x02070000#32, some ⟨1#8, 0#32⟩⟩ ∧
    shows (exec (.rdCsr 7#8) { enc with mode := .fault, cause := .modeError, info := 5#32 }) report =
      some ⟨.fault, .modeError, 5#32, some ⟨1#8, 0#32⟩⟩ := by decide

/-! ## Encoder -/

/-- R121's example. -/
theorem test_enc_init :
    shows (exec .encInit State.reset) (fun t => (coder t, t.mode)) = some (⟨0#32, 0xFFFFFFFF#32, [], []⟩, .enc) := by decide

/-- V10 and V11. -/
theorem test_enc_bit :
    shows (exec (.encBit 1#1 0#16) enc) (fun t => (coder t, t.bm)) =
      some (⟨0x7FFFF000#32, 0x80000FFF#32, [], []⟩, [(0, ⟨1#32, 2#32, 4096#32, 4#32, 3#32⟩)]) ∧
    shows (exec (.encBit 0#1 0#16) enc) (fun t => (coder t, t.bm)) =
      some (⟨0#32, 0x7FFFF000#32, [], []⟩, [(0, ⟨2#32, 2#32, 4096#32, 4#32, 3#32⟩)]) := by decide +kernel

/-- V12, the fourth bit of each run: the model update. -/
theorem test_enc_bit_update :
    shows (exec (.encBit 0#1 0#16) { enc with length := 0x1FFFF000#32, bm := [(0, ⟨4#32, 2#32, 4096#32, 4#32, 1#32⟩)] })
      (fun t => (coder t, t.bm)) =
      some (⟨0#32, 0x0FFFF000#32, [], []⟩, [(0, ⟨5#32, 6#32, 6826#32, 5#32, 5#32⟩)]) ∧
    shows (exec (.encBit 1#1 0#16)
      { enc with base := 0xDFFFF000#32, length := 0x20000FFF#32, bm := [(0, ⟨1#32, 2#32, 4096#32, 4#32, 1#32⟩)] })
      (fun t => (coder t, t.bm)) =
      some (⟨0xEFFFF000#32, 0x10000FFF#32, [], []⟩, [(0, ⟨1#32, 6#32, 1365#32, 5#32, 5#32⟩)]) := by decide +kernel

/-- V20: the last symbol. -/
theorem test_enc_sym :
    shows (exec (.encSym 0#16 3#32) enc) (fun t => (coder t, t.sm.map fun e => (e.2.count, e.2.left))) =
      some (⟨0xBFFFA000#32, 0x40005FFF#32, [], []⟩, [([1#32, 1#32, 1#32, 2#32], 4#32)]) := by decide +kernel

/-- V22: renormalisation and a model update. -/
theorem test_enc_sym_update :
    shows (exec (.encSym 0#16 3#32)
      { enc with base := 0xFEFFA000#32, length := 0x01005FFF#32,
                 sm := [(0, { smUniform 4 with count := [1#32, 1#32, 1#32, 5#32], left := 1#32 })] })
      (fun t => (coder t, t.sm)) =
    some (⟨0xBFA00000#32, 0x405FFF00#32, [], [0xFF#8]⟩,
      [(0, ⟨4, [1#32, 1#32, 1#32, 6#32], [0#32, 3640#32, 7281#32, 10922#32], 9#32, 6#32, 6#32⟩)]) := by decide +kernel

/-- V36: the low half first. V44, second command: a byte 0xFF is counted. -/
theorem test_enc_bits :
    shows (exec (.encBits 32#8 0xDEADBEEF#32) enc) coder =
      some ⟨0x21530000#32, 0xFFFF0000#32, [0xBE#8, 0xEF#8, 0x1F#8], [0xBD#8]⟩ ∧
    shows (exec (.encBits 16#8 0#32) { enc with base := 0x5FFFFFFA#32, length := 0x0FFFFFFF#32 }) coder =
      some ⟨0xFFFA0000#32, 0x0FFF0000#32, [], [0x5F#8, 0xFF#8]⟩ := by decide +kernel

/-- V43, second command: a carry into a pending byte. V95: both range faults. -/
theorem test_enc_bits_carry_and_range :
    shows (exec (.encBits 8#8 0xFF#32)
      { enc with base := 0xFFFF0100#32, length := 0xFFFFFF00#32, cacheValid := true, cache := 0xFE#8 }) coder =
      some ⟨0xFF000100#32, 0xFFFFFF00#32, [0xFF#8], [0xFE#8]⟩ ∧
    shows (exec (.encBits 33#8 0#32) enc) report = some ⟨.fault, .operandRange, 0x21#32, some ⟨5#8, 0#32⟩⟩ ∧
    shows (exec (.encBits 4#8 16#32) enc) report = some ⟨.fault, .operandRange, 0x10#32, some ⟨5#8, 0#32⟩⟩ := by
  decide +kernel

/-- V44: the carry goes through the held 0xFF. V41: the second branch. -/
theorem test_enc_done :
    shows (exec .encDone
      { enc with base := 0xFFFA0000#32, length := 0x0FFF0000#32, cacheValid := true, cache := 0x5F#8, ffrun := 1#32 })
      (fun t => (t.bout, t.mode, t.cacheValid)) = some ([0x60#8, 0#8, 0#8, 0#8, 0#8, 0#8], .idle, false) ∧
    shows (exec .encDone { enc with base := 0xA9FFFFAB#32, length := 0x01FFFFFF#32 }) (fun t => t.bout) =
      some [0xAA#8, 0x7F#8, 0#8, 0#8] := by decide +kernel

/-- V42: an empty session. -/
theorem test_enc_done_empty : shows (exec .encDone enc) (fun t => t.bout) = some [1#8, 0#8, 0#8, 0#8] := by decide +kernel

/-! ## Decoder -/

/-- V50, V63 (a). -/
theorem test_dec_init :
    shows (exec .decInit { State.reset with bin := [0x95#8, 0x28#8, 0#8, 0#8, 0#8] }) (fun t => (reader t, t.mode)) =
      some (⟨0x95280000#32, 0xFFFFFFFF#32, 1, some ⟨0#8, 0#32⟩⟩, .dec) ∧
    shows (exec .decInit { State.reset with bin := [1#8, 2#8, 3#8] }) (fun t => (report t, t.bin)) =
      some (⟨.fault, .streamExhausted, 0#32, some ⟨7#8, 0#32⟩⟩, []) := by decide

/-- V51, V52. -/
theorem test_dec_bit :
    shows (exec (.decBit 0#16) dec) (fun t => (reader t, t.bm)) =
      some (⟨0x15281000#32, 0x80000FFF#32, 1, some ⟨0#8, 1#32⟩⟩, [(0, ⟨1#32, 2#32, 4096#32, 4#32, 3#32⟩)]) ∧
    shows (exec (.decBit 0#16)
      { dec with value := 0x05281000#32, length := 0x10000000#32, bm := [(0, ⟨3#32, 6#32, 4095#32, 5#32, 5#32⟩)] })
      (fun t => (reader t, t.bm)) =
      some (⟨0x05281000#32, 0x07FF8000#32, 1, some ⟨0#8, 0#32⟩⟩, [(0, ⟨4#32, 6#32, 4095#32, 5#32, 4#32⟩)]) := by
  decide +kernel

/-- V60; and by hand from R153: the lowest VALUE of symbol 1, 8192 * 0x1FFFF. -/
theorem test_dec_sym :
    shows (exec (.decSym 0#16) { dec with value := 0xFFC06C00#32 }) reader =
      some ⟨0x3FC0CC00#32, 0x40005FFF#32, 1, some ⟨0#8, 3#32⟩⟩ ∧
    shows (exec (.decSym 0#16) { dec with value := 0x3FFFE000#32 }) reader =
      some ⟨0#32, 0x3FFFE000#32, 1, some ⟨0#8, 1#32⟩⟩ := by decide +kernel

/-- V55 and V62. -/
theorem test_dec_bits :
    shows (exec (.decBits 8#8) { dec with value := 0x05281000#32, length := 0x07FF8000#32 }) reader =
      some ⟨0x00628000#32, 0x07FF8000#32, 0, some ⟨0#8, 0xA5#32⟩⟩ ∧
    shows (exec (.decBits 8#8) { dec with value := 0xFFFFFFFF#32, bin := List.replicate 4 0xFF#8 })
      (fun t => (report t, t.bin.length)) = some (⟨.fault, .streamCorruption, 0x100#32, some ⟨8#8, 0#32⟩⟩, 3) := by
  decide +kernel

/-- V56, the mirror of V36: 32 bits, the low half first. V63 (b): the second read finds no byte. -/
theorem test_dec_bits_wide :
    shows (exec (.decBits 32#8) { dec with value := 0xBEEF1FBD#32, bin := [0x22#8, 0#8, 0#8, 0#8] }) reader =
      some ⟨0x00AD0000#32, 0xFFFF0000#32, 0, some ⟨0#8, 0xDEADBEEF#32⟩⟩ ∧
    shows (exec (.decBits 16#8) { dec with value := 0xFE010000#32 }) (fun t => (report t, t.bin)) =
      some (⟨.fault, .streamExhausted, 0#32, some ⟨7#8, 0#32⟩⟩, []) := by decide +kernel

/-- R155: nothing is read, models stay. -/
theorem test_dec_done :
    shows (exec .decDone dec) (fun t => (report t, t.bin, t.bm)) =
      some (⟨.idle, .none, 0#32, some ⟨0#8, 0#32⟩⟩, [0#8], [(0, bmInitial)]) := by decide

/-! ## Models -/

/-- R171, and V94. -/
theorem test_bm_init :
    shows (exec (.bmInit 2#16) State.reset) (fun t => t.bm) = some [(2, ⟨1#32, 2#32, 4096#32, 4#32, 4#32⟩)] ∧
    shows (exec (.bmInit 8#16) State.reset) report = some ⟨.fault, .indexRange, 8#32, some ⟨3#8, 0#32⟩⟩ := by decide

/-- V71: both runs at the first halving. -/
theorem test_bm_halving :
    bmObserve 0#1 ⟨8194#32, 8132#32, 8000#32, 64#32, 1#32⟩ = ⟨4098#32, 4099#32, 8189#32, 64#32, 64#32⟩ ∧
    bmObserve 1#1 ⟨1#32, 8132#32, 1#32, 64#32, 1#32⟩ = ⟨1#32, 4098#32, 1#32, 64#32, 64#32⟩ := by decide +kernel

/-- V72, n = 3, and V96. -/
theorem test_sm_create :
    shows (exec (.smCreate 1#16 3#32) State.reset) (fun t => t.sm) =
      some [(1, ⟨3, [1#32, 1#32, 1#32], [0#32, 10922#32, 21845#32], 3#32, 4#32, 4#32⟩)] ∧
    shows (exec (.smCreate 0#16 2049#32) State.reset) report = some ⟨.fault, .configError, 0x801#32, some ⟨6#8, 0#32⟩⟩ := by
  decide +kernel

/-- V73, both tables. -/
theorem test_sm_create_b :
    shows (exec (.smCreateB 0#16 4#32 [1#32, 2#32, 3#32, 10#32]) State.reset) (fun t => t.sm) =
      some [(0, ⟨4, [1#32, 2#32, 3#32, 10#32], [0#32, 2048#32, 6144#32, 12288#32], 16#32, 5#32, 5#32⟩)] ∧
    shows (exec (.smCreateB 0#16 3#32 [32766#32, 1#32, 1#32]) State.reset) (fun t => t.sm.map fun e => e.2.dist) =
      some [[0#32, 32766#32, 32767#32]] := by decide +kernel

/-- V96: the sum, and the zero count before it. -/
theorem test_sm_create_b_faults :
    shows (exec (.smCreateB 0#16 3#32 [32766#32, 1#32, 2#32]) State.reset) report =
      some ⟨.fault, .configError, 0x8001#32, some ⟨6#8, 0#32⟩⟩ ∧
    shows (exec (.smCreateB 0#16 3#32 [5#32, 0#32, 2#32]) State.reset) report =
      some ⟨.fault, .configError, 0#32, some ⟨6#8, 0#32⟩⟩ := by decide +kernel

/-- V76; V75: halving at an update. -/
theorem test_sm_reset_and_halving :
    shows (exec (.smReset 0#16) { enc with sm := [(0, ⟨4, [2#32, 2#32, 1#32, 6#32], [], 9#32, 6#32, 4#32⟩)] }) (fun t => t.sm) =
      some [(0, ⟨4, [1#32, 1#32, 1#32, 1#32], [0#32, 8192#32, 16384#32, 24576#32], 4#32, 5#32, 5#32⟩)] ∧
    smObserve 1 ⟨2, [1#32, 32770#32], [0#32, 1#32], 32708#32, 64#32, 1#32⟩ =
      ⟨2, [1#32, 16386#32], [0#32, 1#32], 16387#32, 64#32, 64#32⟩ := by decide +kernel

/-! ## Integer compressor -/

/-- R201's example, and V96's bank fault. -/
theorem test_ic_config :
    shows (exec (.icConfig 0#8 0x00010808#32 2#32) State.reset) (fun t => t.ic) =
      some [(0, ⟨8, 2, 1, 8, 8, 256#32, BitVec.ofInt 32 (-128), 127#32, none⟩)] ∧
    shows (exec (.icConfig 0#8 0x00040810#32 300#32) State.reset) report =
      some ⟨.fault, .configError, 0x4B0#32, some ⟨6#8, 0#32⟩⟩ := by decide +kernel

/-- R202: K, ERR, the sizes of the private models. V97: a unit not configured. -/
theorem test_ic_init :
    ((shows (exec (.icInit 0#8) { State.reset with ic := [(0, configuredUnit 3 2 2 2)] }) fun t =>
      ((t.ic.get 0).bind IcUnit.adaptive).map fun a =>
        (a.k, a.err.map BitVec.toNat, a.mb.map (fun r => r.map SymModel.nsym), a.mc.map SymModel.nsym)).join) =
      some (0, [0, 0], [[4, 4], [4, 4]], [2, 4, 4]) ∧
    shows (exec (.icInit 1#8) State.reset) report = some ⟨.fault, .modelUninit, 1#32, some ⟨4#8, 0#32⟩⟩ :=
  ⟨by decide +kernel, by decide +kernel⟩

/-- V84, first row: class 12 of a 32-bit unit, its high bits by MC[12] and four direct bits. -/
theorem test_ic_compress :
    shows (exec (.icCompress 1#8 0#16 1000#32 5000#32) enc)
      (fun t => (coder t, (t.ic.get 1).bind fun u => u.adaptive.map fun a => (a.k, a.err))) =
    some (⟨0x4C5D0000#32, 0x7C180000#32, [0x64#8], [0xA8#8]⟩, some (12, [4000#34])) := by decide +kernel

/-- V87: a residual above every class, folded once. -/
theorem test_ic_compress_range :
    shows (exec (.icCompress 0#8 0#16 0#32 1000#32) enc) report =
      some ⟨.fault, .operandRange, 0x2E8#32, some ⟨5#8, 0#32⟩⟩ := by decide +kernel

/-- V84's decode, first row. -/
theorem test_ic_decompress :
    shows (exec (.icDecompress 1#8 0#16 1000#32) { dec with value := 0x64A8C4CF#32, bin := [0xAA#8, 0x8D#8, 0#8, 0#8, 0#8] })
      reader = some ⟨0x7872AA8D#32, 0x7C180000#32, 3, some ⟨0#8, 0x1388#32⟩⟩ := by decide +kernel

/-- V61: bytes no encoder wrote, a value folded into range. V94: the context on the decode side. -/
theorem test_ic_decompress_corrupt :
    shows (exec (.icDecompress 0#8 0#16 200#32)
      { dec with value := 0xFFFFFFFF#32, bin := List.replicate 8 0xFF#8, ic := [(0, unitOf 8 8 1 1)] }) reader =
      some ⟨0x1CE3C6FF#32, 0x1CE3C600#32, 7, some ⟨0#8, 0xC8#32⟩⟩ ∧
    shows (exec (.icDecompress 1#8 4#16 0#32) dec) report = some ⟨.fault, .streamCorruption, 4#32, some ⟨8#8, 0#32⟩⟩ := by
  decide +kernel

/-- R205; V97: configured, not initialised. -/
theorem test_ic_get_k :
    shows (exec (.icGetK 0#8) enc) (fun t => t.rsp.getLast?) = some (some ⟨0#8, 0#32⟩) ∧
    shows (exec (.icGetK 0#8) { enc with ic := [(0, configuredUnit 8 8 1 1)] }) report =
      some ⟨.fault, .modelUninit, 0#32, some ⟨4#8, 0#32⟩⟩ := by decide +kernel

/-- V80 (class and position), V81 (folding), V82 (bins and the error estimate). -/
theorem test_ic_arithmetic :
    ([0, 1, -1, 2, -3, 4, 11, 127, -128, -(2 ^ 31)].map residualClass) = [0, 0, 1, 1, 2, 2, 4, 7, 8, 32] ∧
    classPosition 2 (-3) = 0 ∧ classPosition 2 4 = 3 ∧ classPosition 8 (-128) = 127 ∧ classPosition 12 4000 = 3999 ∧
    foldedResidual (configuredUnit 8 4 4 1) 250#32 5#32 = 11 ∧ foldedResidual (configuredUnit 8 4 4 1) 0#32 128#32 = -128 ∧
    restored (configuredUnit 8 4 4 1) 250#32 11 = 5#32 ∧ restored (configuredUnit 8 4 4 1) 0#32 (-128) = 128#32 ∧
    ([0#34, 3#34, 4#34, 8#34, 16#34, 100#34].map (historyBin (configuredUnit 8 4 4 1))) = [0, 0, 1, 2, 3, 3] ∧
    decayed 100#34 30 = 105#34 ∧ decayed 0x200000000#34 (-(2 ^ 31)) = 0x200000000#34 := by decide +kernel

/-! ## Steps -/

/-- V91: a reserved opcode; in FAULT mode a five-word packet is consumed whole and answered (2, 0). V93: must-be-zero before
mode. -/
theorem test_step :
    shows (step { State.reset with cmd := [0x05000000#32, 0#32] }) (fun t => (report t, t.cmd)) =
      some (⟨.fault, .illegalCommand, 0x05000000#32, some ⟨1#8, 0#32⟩⟩, [0#32]) ∧
    shows (step { State.reset with mode := .fault, cause := .illegalCommand, info := 7#32,
                                   cmd := [0x32000000#32, 3#32, 1#32, 1#32, 1#32, 0#32] }) (fun t => (report t, t.cmd)) =
      some (⟨.fault, .illegalCommand, 7#32, some ⟨2#8, 0#32⟩⟩, [0#32]) ∧
    shows (step { State.reset with cmd := [0x12020000#32] }) report =
      some ⟨.fault, .illegalCommand, 0x12020000#32, some ⟨1#8, 0#32⟩⟩ := by decide

/-- V99, V92: the mode before the index; the fetch of the host's table words runs the instruction. -/
theorem test_step_order_and_fetch :
    shows (step { State.reset with cmd := [0x12010009#32] }) report =
      some ⟨.fault, .modeError, 0x12010009#32, some ⟨2#8, 0#32⟩⟩ ∧
    shows (step (State.reset.withFetchWord 32 0x10000000)) (fun t => (t.mode, t.cmd)) = some (.enc, []) := by decide

/-! ## States and operands that meet the hypotheses of the statements -/

theorem unitOf_wf (bits high bins contexts : Nat) (h1 : 1 ≤ bits ∧ bits ≤ 32) (h2 : 1 ≤ high ∧ high ≤ 11)
    (h3 : 1 ≤ bins ∧ bins ≤ 33) (h4 : 1 ≤ contexts ∧ contexts ≤ 65536) : (unitOf bits high bins contexts).wf := by
  have h := configuredUnit_legal bits high bins contexts h1 h2 h3 h4
  refine ⟨h, fun a ha => ?_⟩
  cases ha
  exact initialAdaptive_wf _ h

/-- The small state meets the invariant in every mode but FAULT. -/
theorem small_inv (m : Mode) (value length : Word) (bin : List Byte) (hm : m ≠ .fault) (hl : 2 ^ 24 ≤ length.toNat) :
    (small m 0#32 value length bin).Inv := by
  refine ⟨(by decide : State.reset.capsLegal), ⟨by simp [small, Store.wf], ?_, by simp [small, Store.wf], ?_, ?_, ?_⟩,
    ⟨fun _ => ⟨rfl, rfl⟩, fun h => absurd h hm⟩,
    ⟨fun _ => hl, fun _ => rfl, fun _ => rfl, fun _ _ => ?_⟩⟩
  · intro e he
    rw [List.mem_singleton.mp he]
    exact ⟨(by decide : 0 < State.reset.capNbm.toNat), bmInitial_wf⟩
  · intro e he
    rw [List.mem_singleton.mp he]
    exact ⟨(by decide : 0 < State.reset.capNsm.toNat), (smUniform_wf 4 (by omega) (by omega)).1⟩
  · simp [small, Store.wf]
  · intro e he
    rcases List.mem_cons.mp he with rfl | he
    · exact ⟨(by decide : 0 < State.reset.capNic.toNat), unitOf_wf 8 4 4 2 (by omega) (by omega) (by omega) (by omega),
        (by decide : 2 * 4 ≤ State.reset.capIcBank.toNat)⟩
    · rw [List.mem_singleton.mp he]
      exact ⟨(by decide : 1 < State.reset.capNic.toNat), unitOf_wf 32 8 1 1 (by omega) (by omega) (by omega) (by omega),
        (by decide : 1 * 1 ≤ State.reset.capIcBank.toNat)⟩
  · have := length.isLt
    show 0 + length.toNat ≤ 2 ^ 32
    omega

/-- A next state that shows a value is a next state with that value. -/
theorem next_of_shows {α : Type} {o : Host.Outcome State Fault Refusal} {f : State → α} {a : α} (h : shows o f = some a) :
    ∃ t, o = .next t ∧ f t = a := by
  cases o with
  | next t => exact ⟨t, rfl, Option.some.inj h⟩
  | fault f => cases h
  | refused r => cases h

theorem enc_inv : enc.Inv := small_inv .enc _ _ _ (by decide) (by decide)

theorem dec_inv : dec.Inv := small_inv .dec _ _ _ (by decide) (by decide)

theorem idle_inv : (small .idle 0#32 0#32 0xFFFFFFFF#32 []).Inv := small_inv .idle _ _ _ (by decide) (by decide)

/-- A state in FAULT mode that meets the invariant. -/
theorem fault_inv : (faulted .modeError 0x10000000#32 enc).Inv := by
  obtain ⟨h1, h2, -, h4⟩ := enc_inv
  refine ⟨h1, h2, ⟨fun h => absurd rfl h, fun _ => by decide⟩, ?_⟩
  exact ⟨(fun h => by rcases h with h | h <;> cases h), fun _ => rfl, fun _ => rfl, fun h => by cases h⟩

theorem test_witness_decode_of_encode :
    (Instr.smCreateB 3#16 2#32 [7#32, 9#32]).wellFormed = true ∧ (Instr.smCreateB 3#16 1#32 []).wellFormed = true ∧
    (Instr.encBit 1#1 0xFFFF#16).wellFormed = true := by decide

theorem test_witness_encode_of_decode : decode [0x32000003#32, 2#32, 7#32, 9#32, 0#32] =
    .instr (.smCreateB 3#16 2#32 [7#32, 9#32]) [0#32] := by decide

/-- Both ends of every reserved range. -/
theorem test_witness_reserved_opcode :
    State.reset.mode ≠ .fault ∧
    ∀ w0 ∈ [0x03000000#32, 0x0F000000#32, 0x15000000#32, 0x1F000000#32, 0x25000000#32, 0x2F000000#32, 0x34000000#32,
      0x3F000000#32, 0x45000000#32, 0xFF000000#32],
      (let c := (fieldOpc w0).toNat
       (0x03 ≤ c ∧ c ≤ 0x0F) ∨ (0x15 ≤ c ∧ c ≤ 0x1F) ∨ (0x25 ≤ c ∧ c ≤ 0x2F) ∨ (0x34 ≤ c ∧ c ≤ 0x3F) ∨ 0x45 ≤ c) := by
  refine ⟨by decide, fun w hw => ?_⟩
  simp only [List.mem_cons, List.not_mem_nil, or_false] at hw
  rcases hw with rfl | rfl | rfl | rfl | rfl | rfl | rfl | rfl | rfl | rfl <;> decide

theorem test_witness_must_be_zero :
    State.reset.mode ≠ .fault ∧ fieldOpc 0x32010000#32 = Opcode.smCreateB.code ∧
    0x32010000#32 &&& Opcode.smCreateB.mustBeZero ≠ 0#32 ∧
    [2#32, 7#32, 9#32].length = operandCount .smCreateB (([2#32, 7#32, 9#32] ++ [0#32]).headD 0#32) := by decide

theorem test_witness_step_runs :
    (Instr.encSym 0#16 3#32).wellFormed = true ∧
    ({ enc with cmd := [0x13000000#32, 3#32, 0#32] } : State).cmd = encode (.encSym 0#16 3#32) ++ [0#32] := by decide

theorem test_witness_waits_and_truncated :
    State.reset.cmd = [] ∧ (Instr.icCompress 0#8 0#16 5#32 6#32).wellFormed = true ∧
    ({ enc with cmd := [0x42000000#32, 5#32] } : State).cmd ++ [6#32] = encode (.icCompress 0#8 0#16 5#32 6#32) ∧
    ({ enc with cmd := [0x42000000#32, 5#32] } : State).cmd ≠ [] := by decide

/-- For the statements over every command and every next state. -/
theorem test_witness_exec_next :
    enc.Inv ∧ enc.mode ≠ .fault ∧ (∃ t, exec (.encSym 0#16 3#32) enc = .next t ∧ t.mode = .enc) ∧
    (∃ t, exec (.encSym 9#16 3#32) enc = .next t ∧ t.mode = .fault) ∧
    ∃ t, step { enc with cmd := [0x00000000#32] } = .next t ∧ t.mode = .enc :=
  ⟨enc_inv, by decide, next_of_shows (by decide +kernel), next_of_shows (by decide +kernel), next_of_shows (by decide +kernel)⟩

theorem test_witness_every_command : enc.Inv ∧ (Instr.smCreateB 3#16 2#32 [7#32, 9#32]).wellFormed = true :=
  ⟨enc_inv, by decide⟩

/-- A command that writes BOUT, and commands that take bytes off BIN, outside a session and inside. -/
theorem test_witness_streams :
    (small .idle 0#32 0#32 0xFFFFFFFF#32 [1#8, 0#8, 0#8, 0#8]).Inv ∧
    (∃ t, exec .decInit (small .idle 0#32 0#32 0xFFFFFFFF#32 [1#8, 0#8, 0#8, 0#8]) = .next t ∧ t.bin = []) ∧
    enc.Inv ∧ enc.bout = [] ∧ (∃ t, exec .encDone enc = .next t ∧ t.bout.length = 4) ∧
    dec.Inv ∧ dec.bin = [0#8] ∧ ∃ t, exec (.decBits 8#8) dec = .next t ∧ t.bin = [] :=
  ⟨small_inv .idle _ _ _ (by decide) (by decide), next_of_shows (by decide +kernel), enc_inv, rfl, next_of_shows (by decide +kernel),
    dec_inv, rfl, next_of_shows (by decide +kernel)⟩

/-- A slot of each kind that changes. -/
theorem test_witness_models_change :
    enc.Inv ∧ (∃ t, exec (.bmInit 1#16) enc = .next t ∧ (t.mode, (t.bm.get 1).isSome) = (.enc, true)) ∧ enc.bm.get 1 = none ∧
    (∃ t, exec (.smCreate 1#16 2#32) enc = .next t ∧ (t.mode, (t.sm.get 1).isSome) = (.enc, true)) ∧ enc.sm.get 1 = none ∧
    (∃ t, exec (.icConfig 0#8 0x00010808#32 2#32) enc = .next t ∧
      (t.mode, (t.ic.get 0).map IcUnit.bitsHigh) = (.enc, some 8)) ∧ (enc.ic.get 0).map IcUnit.bitsHigh = some 4 :=
  ⟨enc_inv, next_of_shows (by decide +kernel), rfl, next_of_shows (by decide +kernel), rfl, next_of_shows (by decide +kernel),
    by decide +kernel⟩

theorem test_witness_mode_error :
    enc.Inv ∧ enc.mode ≠ .fault ∧ accepts (Instr.encInit).opcode enc.mode = false ∧
    accepts (Instr.encDone).opcode enc.mode = true ∧ ∃ t, exec .encDone enc = .next t ∧ t.mode = .idle :=
  ⟨enc_inv, by decide, by decide, by decide, next_of_shows (by decide +kernel)⟩

/-- Each clause of FAULT mode: an illegal packet, NOP, RESET, RD_CSR 6 and 7, another command. -/
theorem test_witness_fault_mode :
    (faulted .modeError 0x10000000#32 enc).mode = .fault ∧
    decode [0x00010000#32, 5#32] = .illegal .mustBeZero 0x00010000#32 [5#32] ∧
    decode [0x00000000#32, 5#32] = .instr .nop [5#32] ∧ decode [0x01000000#32, 5#32] = .instr .reset [5#32] ∧
    decode [0x02060000#32, 5#32] = .instr (.rdCsr 6#8) [5#32] ∧ (6#8).toNat ≤ 6 ∧
    decode [0x02070000#32, 5#32] = .instr (.rdCsr 7#8) [5#32] ∧ 6 < (7#8).toNat ∧
    decode [0x10000000#32, 5#32] = .instr .encInit [5#32] ∧ Instr.encInit ≠ .nop ∧ Instr.encInit ≠ .reset ∧
    ∀ c, Instr.encInit ≠ .rdCsr c :=
  ⟨rfl, by decide, by decide, by decide, by decide, by decide, by decide, by decide, by decide, by decide, by decide,
    fun c h => by cases h⟩

theorem test_witness_only_reset :
    (faulted .modeError 0x10000000#32 enc).mode = .fault ∧
    (∃ t, step { faulted .modeError 0x10000000#32 enc with cmd := [0x00000000#32] } = .next t ∧ t.mode = .fault) ∧
    ∃ t, step { faulted .modeError 0x10000000#32 enc with cmd := [0x01000000#32] } = .next t ∧ t.mode = .idle :=
  ⟨rfl, next_of_shows (by decide +kernel), next_of_shows (by decide +kernel)⟩

/-- The lowest index outside each array, and the lowest context outside a unit. -/
theorem test_witness_index_range :
    enc.mode = .enc ∧ dec.mode = .dec ∧ enc.capNbm.toNat ≤ (8#16).toNat ∧ dec.capNsm.toNat ≤ (8#16).toNat ∧
    enc.capNic.toNat ≤ (2#8).toNat ∧ (0#8).toNat < enc.capNic.toNat ∧
    ∃ u, enc.ic.get 0 = some u ∧ u.adaptive ≠ none ∧ u.contexts ≤ (2#16).toNat :=
  ⟨rfl, rfl, by decide, by decide, by decide, by decide, ⟨_, rfl, by simp [unitOf], by decide⟩⟩

theorem test_witness_model_uninit :
    enc.mode = .enc ∧ dec.mode = .dec ∧ (1#16).toNat < enc.capNbm.toNat ∧ enc.bm.get 1 = none ∧ dec.bm.get 1 = none ∧
    (1#16).toNat < enc.capNsm.toNat ∧ enc.sm.get 1 = none ∧ dec.sm.get 1 = none ∧ (1#8).toNat < State.reset.capNic.toNat ∧
    State.reset.ic.get 1 = none ∧
    (({ enc with ic := [(1, configuredUnit 8 8 1 1)] } : State).ic.get 1).bind IcUnit.adaptive = none :=
  ⟨rfl, rfl, by decide, rfl, rfl, by decide, rfl, rfl, by decide, rfl, rfl⟩

/-- Every clause at its boundary; of the residuals of IC_COMPRESS the two nearest to zero in the class above a unit's last. -/
theorem test_witness_operand_range :
    enc.mode = .enc ∧ dec.mode = .dec ∧ (0#16).toNat < enc.capNsm.toNat ∧
    (∃ m, enc.sm.get 0 = some m ∧ m.nsym ≤ (4#32).toNat) ∧ (0#8).toNat = 0 ∧ 32 < (33#8).toNat ∧
    2 ^ (1#8).toNat ≤ (2#32).toNat ∧ 2 ^ (31#8).toNat ≤ (0x80000000#32).toNat ∧ (0#8).toNat < enc.capNic.toNat ∧
    ∃ u, enc.ic.get 0 = some u ∧ u.legal ∧ u.adaptive ≠ none ∧ (1#16).toNat < u.contexts ∧
      InClass (wrappedResidual u.bits 0#32 513#32) 9 ∧ InClass (wrappedResidual u.bits 512#32 0#32) 9 ∧ u.corrBits < 9 :=
  ⟨rfl, rfl, by decide, ⟨_, rfl, by decide⟩, by decide, by decide, by decide, by decide, by decide,
    ⟨_, rfl, (unitOf_wf 8 4 4 2 (by omega) (by omega) (by omega) (by omega)).1, by simp [unitOf], by decide,
      by unfold InClass; decide +kernel, by unfold InClass; decide +kernel, by decide⟩⟩

theorem test_witness_config_error_of_symbol_models :
    enc.mode ≠ .fault ∧ (7#16).toNat < enc.capNsm.toNat ∧ (1#32).toNat < 2 ∧ 2048 < (2049#32).toNat ∧ 2 ≤ (2#32).toNat ∧
    (2048#32).toNat ≤ 2048 ∧ (∀ y ∈ [1#32, 32768#32], 1 ≤ y.toNat ∧ y.toNat ≤ 32768) ∧ (0#32).toNat = 0 ∧
    32768 < (32769#32).toNat ∧ 32768 < ([1#32, 32768#32].map BitVec.toNat).sum :=
  ⟨by decide, by decide, by decide, by decide, by decide, by decide, by simp, by decide, by decide, by decide⟩

/-- Each of the six conditions at a boundary, the earlier ones not met. -/
theorem test_witness_config_error_of_units :
    State.reset.mode ≠ .fault ∧ (1#8).toNat < State.reset.capNic.toNat ∧
    (0x00010848#32).extractLsb' 6 2 ≠ 0#2 ∧
    (((0x00010800#32).extractLsb' 0 6).toNat = 0 ∧ 32 < ((0x00010821#32).extractLsb' 0 6).toNat) ∧
    (((0x00010008#32).extractLsb' 8 6).toNat = 0 ∧ 11 < ((0x00010C08#32).extractLsb' 8 6).toNat) ∧
    (((0x00000808#32).extractLsb' 16 6).toNat = 0 ∧ 33 < ((0x00220808#32).extractLsb' 16 6).toNat) ∧
    ((0#32).toNat = 0 ∧ 65536 < (65537#32).toNat) ∧
    State.reset.capIcBank.toNat < (1025#32).toNat * ((0x00010808#32).extractLsb' 16 6).toNat := by decide +kernel

/-- A decoder whose class symbol is `k`, read without a byte, and the step after it needs one: of `bin`. -/
def short (k : Nat) (bin : List Byte) : State :=
  small .dec 0#32 (BitVec.ofNat 32 (symLow (smUniform 33) k 0x21088000)) 0x21088000#32 bin

/-- The 32-bit unit of `s` codes its next residual with the fresh models: 33 symbols for the class, then that of the class. -/
def freshUnit (s : State) : Prop :=
  ∃ a, s.ClassModel 1#8 0#16 (unitOf 32 8 1 1) a (smUniform 33) ∧ a.mc0 = bmInitial ∧ a.mc[1 - 1]? = some (smUniform 2) ∧
    a.mc[8 - 1]? = some (smUniform 256) ∧ a.mc[9 - 1]? = some (smUniform 256) ∧ a.mc[27 - 1]? = some (smUniform 256) ∧
    a.mc[28 - 1]? = some (smUniform 256) ∧ a.mc[31 - 1]? = some (smUniform 256)

theorem small_freshUnit (m : Mode) (base value length : Word) (bin : List Byte) : freshUnit (small m base value length bin) :=
  ⟨_, ⟨by show 1 < State.reset.capNic.toNat; decide, rfl, rfl, by decide, 0#34, _, rfl, rfl, rfl⟩, rfl, rfl, rfl, rfl, rfl, rfl, rfl⟩

/-- BIN short for each command; in DEC_BITS for the one digit, the first of two and the second. -/
theorem test_witness_stream_exhausted :
    (small .idle 0#32 0#32 0xFFFFFFFF#32 [1#8, 2#8, 3#8]).Inv ∧ [1#8, 2#8, 3#8].length < 4 ∧
    (∀ v bin, (small .dec 0#32 v 0x01000000#32 bin).Inv) ∧
    ¬(small .dec 0#32 0#32 0x01000000#32 []).hasBit bmInitial (foundBit bmInitial (small .dec 0#32 0#32 0x01000000#32 [])) ∧
    (small .dec 0#32 0#32 0x01000000#32 []).lacksSym (smUniform 4) 0 ∧
    (small .dec 0#32 0x00FFFFFF#32 0x01000000#32 []).lacksSym (smUniform 4) 3 ∧
    (small .dec 0#32 0#32 0x01000000#32 []).lacksDirect 1 ∧ (small .dec 0#32 0#32 0x01000000#32 [1#8, 2#8]).lacksDirect 19 ∧
    (small .dec 0#32 0#32 0x01000000#32 [1#8]).lacksDirect 20 ∧ (small .dec 0#32 0#32 0x01000000#32 [1#8, 2#8]).lacksDirect 20 ∧
    (small .dec 0#32 0#32 0xFFFFFFFF#32 [1#8, 2#8, 3#8]).lacksDirect 32 :=
  ⟨small_inv .idle _ _ _ (by decide) (by decide), by decide, fun v bin => small_inv .dec v _ bin (by decide) (by decide),
    by decide +kernel, by decide +kernel, by decide +kernel, by decide +kernel, by decide +kernel, by decide +kernel,
    by decide +kernel, by decide +kernel⟩

/-- BIN short in each read of IC_DECOMPRESS: the class symbol (first and last), the bit of class 0, the symbol of classes 1 and 31,
one direct bit of class 9, and of the 23 of class 31 the first digit and the second. -/
theorem test_witness_ic_stream_exhausted :
    (∀ k bin, (short k bin).Inv ∧ (short k bin).mode = .dec ∧ freshUnit (short k bin)) ∧
    (∀ v, (small .dec 0#32 v 0x01000000#32 []).Inv ∧ freshUnit (small .dec 0#32 v 0x01000000#32 [])) ∧
    (small .dec 0#32 0#32 0x01000000#32 []).lacksSym (smUniform 33) 0 ∧
    (small .dec 0#32 0x00FFFFFF#32 0x01000000#32 []).lacksSym (smUniform 33) 32 ∧
    ((short 0 []).hasSym (smUniform 33) 0 ∧ ¬(consumeSym (smUniform 33) 0 (short 0 [])).hasBit bmInitial
      (foundBit bmInitial (consumeSym (smUniform 33) 0 (short 0 [])))) ∧
    ((short 1 []).hasSym (smUniform 33) 1 ∧ (consumeSym (smUniform 33) 1 (short 1 [])).lacksSym (smUniform 2) 0) ∧
    ((short 31 []).hasSym (smUniform 33) 31 ∧ (consumeSym (smUniform 33) 31 (short 31 [])).lacksSym (smUniform 256) 0) ∧
    ((short 9 [0#8]).hasSym (smUniform 33) 9 ∧ (consumeSym (smUniform 33) 9 (short 9 [0#8])).hasSym (smUniform 256) 0 ∧
      (consumeSym (smUniform 256) 0 (consumeSym (smUniform 33) 9 (short 9 [0#8]))).lacksDirect (9 - 8)) ∧
    ((short 31 [0#8, 0#8]).hasSym (smUniform 33) 31 ∧
      (consumeSym (smUniform 33) 31 (short 31 [0#8, 0#8])).hasSym (smUniform 256) 0 ∧
      (consumeSym (smUniform 256) 0 (consumeSym (smUniform 33) 31 (short 31 [0#8, 0#8]))).lacksDirect (31 - 8)) ∧
    (consumeSym (smUniform 33) 31 (short 31 [0#8, 0#8, 0#8])).hasSym (smUniform 256) 0 ∧
    (consumeSym (smUniform 256) 0 (consumeSym (smUniform 33) 31 (short 31 [0#8, 0#8, 0#8]))).lacksDirect (31 - 8) :=
  ⟨fun k bin => ⟨small_inv .dec _ _ _ (by decide) (by decide), rfl, small_freshUnit _ _ _ _ _⟩,
    fun v => ⟨small_inv .dec _ _ _ (by decide) (by decide), small_freshUnit _ _ _ _ _⟩, by decide +kernel, by decide +kernel,
    by decide +kernel, by decide +kernel, by decide +kernel, by decide +kernel, by decide +kernel, by decide +kernel,
    by decide +kernel⟩

/-- The one digit of 8 and of 19 bits, the first of two of 20 and 32 bits, a context outside a unit, and a good first digit. -/
theorem test_witness_stream_corruption :
    (∀ v l bin, 2 ^ 24 ≤ l.toNat → (small .dec 0#32 v l bin).Inv) ∧
    (small .dec 0#32 0xFFFFFFFF#32 0xFFFFFFFF#32 [7#8, 8#8]).badDirect 8 256 [8#8] ∧
    (small .dec 0#32 0xFFFFFFFF#32 0xFFFFFFFF#32 [7#8, 8#8, 9#8]).badDirect 19 524352 [9#8] ∧
    (small .dec 0#32 0xFFFFFFFF#32 0xFFFFFFFF#32 [7#8, 8#8, 9#8]).badDirect 20 65537 [9#8] ∧
    (small .dec 0#32 0xFFFFFFFF#32 0xFFFFFFFF#32 [7#8, 8#8]).badDirect 32 65537 [] ∧
    (∃ u, dec.ic.get 0 = some u ∧ u.adaptive ≠ none ∧ u.contexts ≤ (2#16).toNat) ∧
    (small .dec 0#32 0xFFFE0001#32 0xFFFFFFFF#32 [0xFF#8, 0xFF#8]).hasDigit 16 65535 :=
  ⟨fun v l bin h => small_inv .dec v l bin (by decide) h, by decide +kernel, by decide +kernel, by decide +kernel,
    by decide +kernel, ⟨_, rfl, by simp [unitOf], by decide⟩, by decide +kernel⟩

/-- The largest VALUE of the symbol 0 of class `k`: its direct bits stand above every digit. -/
def atTop (k : Nat) : State :=
  small .dec 0#32 (BitVec.ofNat 32 (symLow (smUniform 33) k 0xFFFFFFFF + 508287)) 0xFFFFFFFF#32 [0xFF#8, 1#8, 2#8, 3#8, 4#8]

/-- The 19 direct bits of class 27, the 20 of class 28 and the 23 of class 31. -/
theorem test_witness_ic_stream_corruption :
    (∀ k, (atTop k).Inv ∧ (atTop k).mode = .dec ∧ freshUnit (atTop k)) ∧
    ((atTop 27).hasSym (smUniform 33) 27 ∧ (consumeSym (smUniform 33) 27 (atTop 27)).hasSym (smUniform 256) 0 ∧
      (consumeSym (smUniform 256) 0 (consumeSym (smUniform 33) 27 (atTop 27))).badDirect (27 - 8) 524684 [4#8]) ∧
    ((atTop 28).hasSym (smUniform 33) 28 ∧ (consumeSym (smUniform 33) 28 (atTop 28)).hasSym (smUniform 256) 0 ∧
      (consumeSym (smUniform 256) 0 (consumeSym (smUniform 33) 28 (atTop 28))).badDirect (28 - 8) 65552 [3#8, 4#8]) ∧
    ((atTop 31).hasSym (smUniform 33) 31 ∧ (consumeSym (smUniform 33) 31 (atTop 31)).hasSym (smUniform 256) 0 ∧
      (consumeSym (smUniform 256) 0 (consumeSym (smUniform 33) 31 (atTop 31))).badDirect (31 - 8) 65552 [3#8, 4#8]) :=
  ⟨fun k => ⟨small_inv .dec _ _ _ (by decide) (by decide), rfl, small_freshUnit _ _ _ _ _⟩, by decide +kernel, by decide +kernel,
    by decide +kernel⟩

/-- Coding the symbol `y` of `m` overflows the run counter. -/
abbrev overflowsSym (m : SymModel) (y : Nat) (s : State) : Prop :=
  s.overflows (symLow m y s.length.toNat) (symHigh m y s.length.toNat - symLow m y s.length.toNat)

/-- Coding the symbol `y` of `m` hands out bytes 0xFF only, all held. -/
abbrev holdsSym (m : SymModel) (y : Nat) (s : State) : Prop :=
  s.holdsAll (symLow m y s.length.toNat) (symHigh m y s.length.toNat - symLow m y s.length.toNat)

/-- `s` after coding such a symbol. -/
abbrev afterSym (m : SymModel) (y : Nat) (s : State) : State :=
  held (symLow m y s.length.toNat) (symHigh m y s.length.toNat - symLow m y s.length.toNat) s

/-- An encoder with a pending byte and a long run of held 0xFF bytes. -/
def longRun (base length ffrun : Word) : State :=
  { small .enc 0#32 0#32 length [] with base := base, cacheValid := true, cache := 0#8, ffrun := ffrun }

theorem longRun_inv (base length ffrun : Word) (h : 2 ^ 24 ≤ length.toNat) : (longRun base length ffrun).Inv := by
  obtain ⟨h1, h2, h3, -⟩ := small_inv .enc 0#32 length [] (by decide) h
  refine ⟨h1, h2, h3, ⟨fun _ => h, (fun h => by cases h), (fun h => by rcases h with h | h <;> cases h), ?_⟩⟩
  intro _ h
  rcases h with h | h <;> simp [longRun] at h

/-- ENC_BIT of each bit; ENC_SYM of the first and the last symbol; ENC_BITS of 1, 19, 20 bits and of 20 and 32 bits in the second
digit; ENC_DONE on both sides of 2^25. -/
theorem test_witness_run_counter :
    (∀ b l r, 2 ^ 24 ≤ l.toNat → (longRun b l r).Inv ∧ (longRun b l r).mode = .enc) ∧
    (let s := longRun 0xFF000000#32 0x01000000#32 0xFFFFFFFF#32
     s.overflows (bitPart bmInitial 0#1 s.length.toNat).1 (bitPart bmInitial 0#1 s.length.toNat).2 ∧
     s.overflows (bitPart bmInitial 1#1 s.length.toNat).1 (bitPart bmInitial 1#1 s.length.toNat).2 ∧
     overflowsSym (smUniform 4) 0 s ∧ overflowsSym (smUniform 4) 3 s ∧
     s.overflowsDirect 1 1 ∧ s.overflowsDirect 19 0x7FFFF ∧ s.overflowsDirect 20 0xFFFFF ∧
     s.length.toNat ≤ 2 ^ 25 ∧ s.overflows (2 ^ 23) (2 ^ 15)) ∧
    (longRun 0xFF000000#32 0x01000000#32 0xFFFFFFFD#32).overflowsDirect 20 0xFFFF ∧
    (longRun 0xFF000000#32 0x01000000#32 0xFFFFFFFD#32).overflowsDirect 32 0xFFFF ∧
    2 ^ 25 < (longRun 0xFE000000#32 0x02000001#32 0xFFFFFFFF#32).length.toNat ∧
    (longRun 0xFE000000#32 0x02000001#32 0xFFFFFFFF#32).overflows (2 ^ 24) (2 ^ 23) := by
  refine ⟨fun b l r h => ⟨longRun_inv b l r h, rfl⟩, ⟨?_, ?_, ?_, ?_, ?_, ?_, ?_, by decide, ?_⟩, ?_, ?_, by decide, ?_⟩
  · exact ⟨rfl, by decide +kernel, 1, by decide +kernel, by decide, by decide +kernel⟩
  · exact ⟨rfl, by decide +kernel, 1, by decide +kernel, by decide, by decide +kernel⟩
  · exact ⟨rfl, by decide +kernel, 1, by decide +kernel, by decide, by decide +kernel⟩
  · exact ⟨rfl, by decide +kernel, 1, by decide +kernel, by decide, by decide +kernel⟩
  · exact .inl ⟨by decide, rfl, by decide, 1, by decide +kernel, by decide, by decide⟩
  · exact .inl ⟨by decide, rfl, by decide, 1, by decide +kernel, by decide, by decide⟩
  · exact .inr (.inl ⟨by decide, rfl, by decide, 1, by decide +kernel, by decide, by decide⟩)
  · exact ⟨rfl, by decide, 1, by decide +kernel, by decide, by decide⟩
  · exact .inr (.inr ⟨by decide, by decide +kernel, rfl, by decide +kernel, 1, by decide +kernel, by decide +kernel, by decide +kernel⟩)
  · exact .inr (.inr ⟨by decide, by decide +kernel, rfl, by decide +kernel, 1, by decide +kernel, by decide +kernel, by decide +kernel⟩)
  · exact ⟨rfl, by decide, 1, by decide +kernel, by decide, by decide⟩

/-- An encoder that codes the class `k` of a 33-symbol model without a byte, and symbol 0 of the class's model with one byte 0xFF. -/
def longClass (k : Nat) (ffrun : Word) : State :=
  longRun (0xFFFF0000#32 - BitVec.ofNat 32 (symLow (smUniform 33) k 0x21088000)) 0x21088000#32 ffrun

/-- IC_COMPRESS in the class symbol (classes 0, 12 and 32), in the bit of class 0, in the symbol of classes 1 and 8, in the one
direct bit of class 9, and of the 23 direct bits of class 31 in the first digit and in the second. -/
theorem test_witness_ic_run_counter :
    (∀ b l r, 2 ^ 24 ≤ l.toNat → (longRun b l r).Inv ∧ (longRun b l r).mode = .enc ∧ freshUnit (longRun b l r)) ∧
    (InClass (wrappedResidual 32 0#32 1#32) 0 ∧ InClass (wrappedResidual 32 1000#32 5000#32) 12 ∧
      InClass (wrappedResidual 32 0#32 0x80000000#32) 32 ∧ InClass (wrappedResidual 32 0#32 0xFFFFFFFF#32) 1 ∧
      InClass (wrappedResidual 32 0#32 0xFFFFFF01#32) 8 ∧ InClass (wrappedResidual 32 0#32 0xFFFFFE01#32) 9 ∧
      InClass (wrappedResidual 32 0#32 0x80000001#32) 31 ∧ InClass (wrappedResidual 32 0#32 0x80010000#32) 31) ∧
    (let s := longRun 0xFF000000#32 0x01000000#32 0xFFFFFFFF#32
     overflowsSym (smUniform 33) 0 s ∧ overflowsSym (smUniform 33) 12 s ∧ overflowsSym (smUniform 33) 32 s) ∧
    (let s := longRun 0xFF000000#32 0x21088000#32 0xFFFFFFFF#32
     let s1 := afterSym (smUniform 33) 0 s
     holdsSym (smUniform 33) 0 s ∧
     s1.overflows (bitPart bmInitial 1#1 s1.length.toNat).1 (bitPart bmInitial 1#1 s1.length.toNat).2) ∧
    (holdsSym (smUniform 33) 1 (longClass 1 0xFFFFFFFF#32) ∧
      overflowsSym (smUniform 2) 0 (afterSym (smUniform 33) 1 (longClass 1 0xFFFFFFFF#32))) ∧
    (holdsSym (smUniform 33) 8 (longClass 8 0xFFFFFFFF#32) ∧
      overflowsSym (smUniform 256) 0 (afterSym (smUniform 33) 8 (longClass 8 0xFFFFFFFF#32))) ∧
    (let s := longClass 9 0xFFFFFFFE#32
     let s1 := afterSym (smUniform 33) 9 s
     holdsSym (smUniform 33) 9 s ∧ holdsSym (smUniform 256) 0 s1 ∧ (afterSym (smUniform 256) 0 s1).overflowsDirect (9 - 8) 0) ∧
    (let s := longClass 31 0xFFFFFFFE#32
     let s1 := afterSym (smUniform 33) 31 s
     holdsSym (smUniform 33) 31 s ∧ holdsSym (smUniform 256) 0 s1 ∧ (afterSym (smUniform 256) 0 s1).overflowsDirect (31 - 8) 0) ∧
    (let s := longClass 31 0xFFFFFFFC#32
     let s1 := afterSym (smUniform 33) 31 s
     holdsSym (smUniform 33) 31 s ∧ holdsSym (smUniform 256) 0 s1 ∧
     (afterSym (smUniform 256) 0 s1).overflowsDirect (31 - 8) 0xFFFF) := by
  refine ⟨fun b l r h => ⟨longRun_inv b l r h, rfl, small_freshUnit .enc 0#32 0#32 l []⟩, ?_, ⟨?_, ?_, ?_⟩,
    ⟨by decide +kernel, ?_⟩, ⟨by decide +kernel, ?_⟩, ⟨by decide +kernel, ?_⟩, ⟨by decide +kernel, by decide +kernel, ?_⟩, ⟨by decide +kernel, by decide +kernel, ?_⟩,
    ⟨by decide +kernel, by decide +kernel, ?_⟩⟩
  · unfold InClass
    decide +kernel
  · exact ⟨rfl, by decide +kernel, 1, by decide +kernel, by decide, by decide +kernel⟩
  · exact ⟨rfl, by decide +kernel, 1, by decide +kernel, by decide, by decide +kernel⟩
  · exact ⟨rfl, by decide +kernel, 1, by decide +kernel, by decide, by decide +kernel⟩
  · exact ⟨rfl, by decide +kernel, 1, by decide +kernel, by decide +kernel, by decide +kernel⟩
  · exact ⟨rfl, by decide +kernel, 1, by decide +kernel, by decide +kernel, by decide +kernel⟩
  · exact ⟨rfl, by decide +kernel, 1, by decide +kernel, by decide +kernel, by decide +kernel⟩
  · exact .inl ⟨by decide, rfl, by decide +kernel, 1, by decide +kernel, by decide +kernel, by decide +kernel⟩
  · exact .inr (.inl ⟨by decide, rfl, by decide +kernel, 1, by decide +kernel, by decide +kernel, by decide +kernel⟩)
  · exact .inr (.inr ⟨by decide, by decide +kernel, rfl, by decide +kernel, 1, by decide +kernel, by decide +kernel, by decide +kernel⟩)

/-- The position of each residual above: symbol 0, and its direct bits. -/
theorem test_witness_ic_positions :
    zeroClassBit (wrappedResidual 32 0#32 1#32) = 1#1 ∧
    [(1, 0xFFFFFFFF#32), (8, 0xFFFFFF01#32), (9, 0xFFFFFE01#32), (31, 0x80000001#32), (31, 0x80010000#32)].map
      (fun e => positionIn e.1 (wrappedResidual 32 0#32 e.2)) = [0, 0, 0, 0, 0xFFFF] ∧
    [0, 0xFFFF].map (highSymbol (unitOf 32 8 1 1) 31) = [0, 0] := by decide +kernel

theorem test_witness_rd_csr :
    6 < (7#8).toNat ∧ enc.mode ≠ .fault ∧ (faulted .modeError 0x10000000#32 enc).mode = .fault := by decide

theorem test_witness_sessions : State.reset.mode = .idle ∧ enc.mode = .enc ∧ dec.mode = .dec := by decide

/-- ENC_BIT, ENC_SYM (first, middle, last symbol), ENC_BITS (1, 19, 20, 32 bits), ENC_DONE on both sides of 2^25. -/
theorem test_witness_encoding :
    enc.Inv ∧ enc.runRoom ∧ enc.mode = .enc ∧ (0#16).toNat < enc.capNbm.toNat ∧ enc.bm.get (0#16).toNat = some bmInitial ∧
    (0#16).toNat < enc.capNsm.toNat ∧ enc.sm.get (0#16).toNat = some (smUniform 4) ∧ (3#32).toNat < (smUniform 4).nsym ∧
    (1#32).toNat < 2 ^ (1#8).toNat ∧ (0x7FFFF#32).toNat < 2 ^ (19#8).toNat ∧ (0xFFFFF#32).toNat < 2 ^ (20#8).toNat ∧
    (0xFFFFFFFF#32).toNat < 2 ^ (32#8).toNat ∧ 2 ^ 25 < enc.length.toNat ∧
    (small .enc 0#32 0#32 0x02000000#32 []).Inv ∧ (small .enc 0#32 0#32 0x02000000#32 []).length.toNat ≤ 2 ^ 25 ∧
    ∃ t, exec .encDone enc = .next t ∧ t.mode = .idle :=
  ⟨enc_inv, by decide, rfl, by decide, rfl, by decide, rfl, by decide, by decide, by decide, by decide, by decide, by decide,
    small_inv .enc _ _ _ (by decide) (by decide), by decide, next_of_shows (by decide +kernel)⟩

theorem test_witness_dec_init :
    State.reset.mode = .idle ∧ ∃ rest : List Byte, [0x95#8, 0x28#8, 0#8, 0#8] = 0x95#8 :: 0x28#8 :: 0#8 :: 0#8 :: rest :=
  ⟨rfl, [], rfl⟩

/-- DEC_BIT with each answer, DEC_SYM with the first and the last symbol, DEC_BITS with 1, 19, 20, 32 bits. -/
theorem test_witness_decoding :
    dec.Inv ∧ dec.mode = .dec ∧ (0#16).toNat < dec.capNbm.toNat ∧ dec.bm.get (0#16).toNat = some bmInitial ∧
    foundBit bmInitial dec = 1#1 ∧ dec.hasBit bmInitial 1#1 ∧
    (foundBit bmInitial (small .dec 0#32 0#32 0xFFFFFFFF#32 []) = 0#1 ∧
      (small .dec 0#32 0#32 0xFFFFFFFF#32 []).hasBit bmInitial 0#1) ∧
    dec.sm.get (0#16).toNat = some (smUniform 4) ∧ (small .dec 0#32 0#32 0xFFFFFFFF#32 []).hasSym (smUniform 4) 0 ∧
    (small .dec 0#32 0xFFC06C00#32 0xFFFFFFFF#32 []).hasSym (smUniform 4) 3 ∧
    (small .dec 0#32 0x80000000#32 0xFFFFFFFF#32 []).hasDirect 1 1 ∧
    (small .dec 0#32 0xFFF7E100#32 0xFFFFFFFF#32 [0#8, 0#8]).hasDirect 19 0x7FFFF ∧
    (small .dec 0#32 0xBCDDE400#32 0xFFFFFFFF#32 [0#8, 0#8]).hasDirect 20 0xABCDE ∧
    (small .dec 0#32 0xBEEF1FBD#32 0xFFFFFFFF#32 [0x22#8, 0#8, 0#8, 0#8]).hasDirect 32 0xDEADBEEF :=
  ⟨dec_inv, rfl, by decide, rfl, by decide +kernel, by decide +kernel, by decide +kernel, rfl, by decide +kernel,
    by decide +kernel, by decide +kernel, by decide +kernel, by decide +kernel, by decide +kernel⟩

theorem test_witness_dec_sym_succeeds :
    dec.Inv ∧ dec.mode = .dec ∧ dec.sm.get (0#16).toNat = some (smUniform 4) ∧
    ∃ t, exec (.decSym 0#16) dec = .next t ∧ (t.mode, t.rsp) = (.dec, dec.rsp ++ [⟨0#8, 2#32⟩]) :=
  ⟨dec_inv, rfl, rfl, next_of_shows (by decide +kernel)⟩

/-- The encoder `enc` and a decoder with the same LENGTH whose VALUE lies in the part the encoder narrows to. -/
theorem test_witness_mirrors :
    enc.Inv ∧ dec.Inv ∧ enc.runRoom ∧ enc.mode = .enc ∧ dec.mode = .dec ∧ dec.length = enc.length ∧
    dec.bm.get (0#16).toNat = enc.bm.get (0#16).toNat ∧ dec.sm.get (0#16).toNat = enc.sm.get (0#16).toNat ∧
    ((bitPart bmInitial 1#1 enc.length.toNat).1 ≤ dec.value.toNat ∧
      dec.value.toNat < (bitPart bmInitial 1#1 enc.length.toNat).1 + (bitPart bmInitial 1#1 enc.length.toNat).2 ∧
      dec.hasBit bmInitial 1#1) ∧
    (symLow (smUniform 4) 2 enc.length.toNat ≤ dec.value.toNat ∧ dec.value.toNat < symHigh (smUniform 4) 2 enc.length.toNat ∧
      dec.hasBytesFor (symHigh (smUniform 4) 2 enc.length.toNat - symLow (smUniform 4) 2 enc.length.toNat)) ∧
    (0x95 * (enc.length.toNat >>> 8) ≤ dec.value.toNat ∧ dec.value.toNat < (0x95 + 1) * (enc.length.toNat >>> 8) ∧
      dec.hasBytesFor (enc.length.toNat >>> 8)) :=
  ⟨enc_inv, dec_inv, by decide, rfl, rfl, rfl, rfl, rfl, by decide +kernel, by decide +kernel, by decide +kernel⟩

/-- BM_INIT, and each of the three constructions at a boundary. -/
theorem test_witness_constructions :
    enc.mode ≠ .fault ∧ (7#16).toNat < enc.capNbm.toNat ∧ (7#16).toNat < enc.capNsm.toNat ∧ 2 ≤ (2#32).toNat ∧
    (2048#32).toNat ≤ 2048 ∧ ([1#32, 32767#32].length = (2#32).toNat ∧
      (∀ x ∈ [1#32, 32767#32], 1 ≤ x.toNat ∧ x.toNat ≤ 32768) ∧ ([1#32, 32767#32].map BitVec.toNat).sum ≤ 32768) ∧
    enc.sm.get (0#16).toNat = some (smUniform 4) ∧ 2 ≤ (smUniform 4).nsym ∧ (smUniform 4).nsym ≤ 2048 :=
  ⟨by decide, by decide, by decide, by decide, by decide, by simp, rfl, by decide, by decide⟩

/-- The largest and the smallest geometry. -/
theorem test_witness_geometry :
    enc.mode ≠ .fault ∧ (1#8).toNat < enc.capNic.toNat ∧ (31#32).toNat * 33 ≤ enc.capIcBank.toNat ∧
    (1#32).toNat * 1 ≤ enc.capIcBank.toNat := by decide

theorem test_witness_ic_units :
    enc.Inv ∧ enc.mode ≠ .fault ∧ (0#8).toNat < enc.capNic.toNat ∧ enc.ic.get (0#8).toNat = some (unitOf 8 4 4 2) ∧
    (unitOf 8 4 4 2).adaptive = some (initialAdaptive (configuredUnit 8 4 4 2)) :=
  ⟨enc_inv, by decide, by decide, rfl, rfl⟩

/-- The residual's class 0, a class within BITS_HIGH, one above it, and class 32, each with the entries they use. -/
theorem test_witness_ic_compress :
    enc.Inv ∧ enc.runRoom ∧ enc.mode = .enc ∧ enc.ic.get (1#8).toNat = some (unitOf 32 8 1 1) ∧
    InClass (wrappedResidual 32 0#32 1#32) 0 ∧ InClass (wrappedResidual 32 0#32 0xFFFFFF80#32) 8 ∧
    InClass (wrappedResidual 32 1000#32 5000#32) 12 ∧ InClass (wrappedResidual 32 0#32 0x80000000#32) 32 ∧
    (unitOf 32 8 1 1).bits = 32 ∧ (unitOf 32 8 1 1).corrBits = 32 ∧
    ∃ a row m, (unitOf 32 8 1 1).adaptive = some a ∧ a.err[(0#16).toNat]? = some 0#34 ∧ a.mb[(0#16).toNat]? = some row ∧
      row[historyBin (unitOf 32 8 1 1) 0#34]? = some m :=
  ⟨enc_inv, by decide, rfl, rfl, by unfold InClass; decide +kernel, by unfold InClass; decide +kernel,
    by unfold InClass; decide +kernel, by unfold InClass; decide +kernel, rfl, rfl, ⟨_, _, _, rfl, rfl, rfl, rfl⟩⟩

/-- A decoder whose VALUE stands at the lower end of class `k` of the fresh 33-symbol model, with bytes enough. -/
def atClass (k : Nat) : State :=
  small .dec 0#32 (BitVec.ofNat 32 (symLow (smUniform 33) k 0xFFFFFFFF)) 0xFFFFFFFF#32 (List.replicate 16 0#8)

theorem atClass_inv (k : Nat) : (atClass k).Inv := small_inv .dec _ _ _ (by decide) (by decide)

theorem test_witness_ic_decompress :
    (∀ k, (atClass k).Inv ∧ (atClass k).mode = .dec ∧ (atClass k).ic.get (1#8).toNat = some (unitOf 32 8 1 1)) ∧
    (∃ a row, (unitOf 32 8 1 1).adaptive = some a ∧ a.err[(0#16).toNat]? = some 0#34 ∧ a.mb[(0#16).toNat]? = some row ∧
      row[historyBin (unitOf 32 8 1 1) 0#34]? = some (smUniform 33) ∧ a.mc0 = bmInitial ∧ a.mc[8 - 1]? = some (smUniform 256) ∧
      a.mc[12 - 1]? = some (smUniform 256)) ∧
    ((atClass 0).hasSym (smUniform 33) 0 ∧
      (consumeSym (smUniform 33) 0 (atClass 0)).hasBit bmInitial
        (foundBit bmInitial (consumeSym (smUniform 33) 0 (atClass 0)))) ∧
    ((atClass 8).hasSym (smUniform 33) 8 ∧ (consumeSym (smUniform 33) 8 (atClass 8)).hasSym (smUniform 256) 0) ∧
    ((atClass 12).hasSym (smUniform 33) 12 ∧ (consumeSym (smUniform 33) 12 (atClass 12)).hasSym (smUniform 256) 0 ∧
      (consumeSym (smUniform 256) 0 (consumeSym (smUniform 33) 12 (atClass 12))).hasDirect (12 - 8) 0) ∧
    (atClass 32).hasSym (smUniform 33) 32 :=
  ⟨fun k => ⟨atClass_inv k, rfl, rfl⟩, ⟨_, _, rfl, rfl, rfl, rfl, rfl, rfl, rfl⟩, by decide +kernel, by decide +kernel,
    by decide +kernel, by decide +kernel⟩

/-- Bins at the ends of their ranges. -/
theorem test_witness_history_bin :
    1 ≤ (unitOf 8 4 4 2).bins ∧ (3#34).toNat / 4 = 0 ∧ 2 ^ 0 ≤ (4#34).toNat / 4 ∧ (7#34).toNat / 4 < 2 ^ 1 ∧
    2 ^ 31 ≤ (0x200000000#34).toNat / 4 ∧ (0x200000000#34).toNat / 4 < 2 ^ 32 := by decide

theorem test_witness_unit_values :
    (unitOf 8 4 4 2).legal ∧ (255#32).toNat < 2 ^ (unitOf 8 4 4 2).bits ∧ (0#32).toNat < 2 ^ (unitOf 8 4 4 2).bits ∧
    (unitOf 32 8 1 1).legal ∧ (0xFFFFFFFF#32).toNat < 2 ^ (unitOf 32 8 1 1).bits :=
  ⟨(unitOf_wf 8 4 4 2 (by omega) (by omega) (by omega) (by omega)).1, by decide, by decide,
    (unitOf_wf 32 8 1 1 (by omega) (by omega) (by omega) (by omega)).1, by decide⟩

theorem test_witness_answers_in_range :
    (atClass 0).Inv ∧ (atClass 0).mode = .dec ∧ (5#32).toNat < 2 ^ (unitOf 32 8 1 1).bits ∧
    ∃ t, exec (.icDecompress 1#8 0#16 5#32) (atClass 0) = .next t ∧
      (t.mode, t.rsp) = (.dec, (atClass 0).rsp ++ [⟨0#8, 5#32⟩]) :=
  ⟨atClass_inv 0, rfl, by decide, next_of_shows (by decide +kernel)⟩

end Sys2Proof.Tests
end

section

namespace Sys2Proof.Machine

/-! ## The capability registers (10_state.md R31) -/

/-- The four capability registers together: CAP_NBM, CAP_NSM, CAP_NIC and CAP_ICBANK. -/
def State.caps (s : State) : Word × Word × Word × Word := (s.capNbm, s.capNsm, s.capNic, s.capIcBank)

theorem State.caps_eq_iff (s t : State) :
    t.caps = s.caps ↔
      t.capNbm = s.capNbm ∧ t.capNsm = s.capNsm ∧ t.capNic = s.capNic ∧ t.capIcBank = s.capIcBank := by
  simp [State.caps]

@[simp] theorem State.setCmd_caps (ws : List Word) (s : State) : (s.setCmd ws).caps = s.caps := rfl

@[simp] theorem success_caps (w : Word) (s : State) : (success w s).caps = s.caps := rfl

@[simp] theorem takeFault_caps (c : Cause) (w : Word) (s : State) : (takeFault c w s).caps = s.caps := by
  by_cases h : s.mode = .fault
  · rw [takeFault_stay c w s h]
    rfl
  · rw [takeFault_enter c w s h]
    rfl

@[simp] theorem resetEngine_caps (s : State) : (resetEngine s).caps = s.caps := rfl

@[simp] theorem putBm_caps (i : BitVec 16) (m : BitModel) (s : State) : (putBm i m s).caps = s.caps := rfl

@[simp] theorem putSm_caps (j : BitVec 16) (m : SymModel) (s : State) : (putSm j m s).caps = s.caps := rfl

@[simp] theorem putIc_caps (u : BitVec 8) (m : IcUnit) (s : State) : (putIc u m s).caps = s.caps := rfl

@[simp] theorem flushStage_caps (s : State) : (flushStage s).caps = s.caps := by
  unfold flushStage
  split <;> rfl

@[simp] theorem closeEncoder_caps (s : State) : (closeEncoder s).caps = s.caps := rfl

@[simp] theorem closeDecoder_caps (s : State) : (closeDecoder s).caps = s.caps := rfl

theorem EncFrame.caps {s t : State} (h : EncFrame s t) : t.caps = s.caps := by
  rw [h.2]
  rfl

theorem DecFrame.caps {s t : State} (h : DecFrame s t) : t.caps = s.caps := by
  rw [h.2]
  rfl

theorem EncRun.caps {n : Nat} {s t : State} (h : EncRun n s t) : t.caps = s.caps := h.1.caps

theorem DecRun.caps {s t : State} (h : DecRun s t) : t.caps = s.caps := h.1.caps

theorem Succeeds.caps {i : Instr} {s t : State} {w : Word} (h : Succeeds i s w t) : t.caps = s.caps := by
  cases i with
  | nop =>
    obtain rfl := h
    rfl
  | reset =>
    obtain rfl := h
    simp
  | rdCsr c =>
    obtain ⟨rfl, -⟩ := h
    rfl
  | encInit =>
    obtain ⟨-, rfl⟩ := h
    rfl
  | encDone =>
    obtain ⟨-, v, hv, rfl⟩ := h
    simpa using hv.caps
  | encBit bit slot =>
    obtain ⟨-, m, v, -, -, hv, rfl⟩ := h
    simpa using hv.caps
  | encSym slot y =>
    obtain ⟨-, m, v, -, -, -, hv, rfl⟩ := h
    simpa using hv.caps
  | encBits n v => exact h.2.caps
  | decInit =>
    obtain ⟨-, x, rfl⟩ := h
    rfl
  | decDone =>
    obtain ⟨-, rfl⟩ := h
    simp
  | decBit slot =>
    obtain ⟨-, m, v, bit, -, -, hv, rfl⟩ := h
    simpa using hv.caps
  | decSym slot =>
    obtain ⟨-, m, v, y, -, -, -, -, hv, rfl⟩ := h
    simpa using hv.caps
  | decBits n => exact h.2.caps
  | bmInit slot =>
    obtain ⟨-, -, rfl⟩ := h
    simp
  | smCreate slot n =>
    obtain ⟨-, -, -, rfl⟩ := h
    simp
  | smCreateB slot n c =>
    obtain ⟨-, -, -, -, -, rfl⟩ := h
    simp
  | smReset slot =>
    obtain ⟨-, m, -, -, rfl⟩ := h
    simp
  | icConfig unit g c =>
    obtain ⟨-, -, -, -, -, -, -, rfl⟩ := h
    simp
  | icInit unit =>
    obtain ⟨-, u, -, -, rfl⟩ := h
    simp
  | icCompress unit ctx p r =>
    obtain ⟨-, u, a, v, -, -, -, hv, rfl⟩ := h
    simpa using hv.caps
  | icDecompress unit ctx p =>
    obtain ⟨-, u, a, v, corr, -, -, -, -, -, hv, rfl⟩ := h
    simpa using hv.caps
  | icGetK unit =>
    obtain ⟨-, rfl⟩ := h
    rfl

theorem Fails.caps {i : Instr} {s t : State} {c : Cause} {w : Word} (h : Fails i s c w t) : t.caps = s.caps := by
  obtain ⟨-, -, -, rfl | ⟨-, -, hv, -⟩ | ⟨-, -, hv⟩ | ⟨-, -, hv⟩⟩ := h
  · rfl
  · exact hv.caps
  · exact hv.caps
  · exact hv.caps

theorem exec_caps {i : Instr} {s t : State} (h : s.Inv) (he : exec i s = .next t) : t.caps = s.caps := by
  rcases exec_runs i s h with ⟨w, v, e, hv⟩ | ⟨c, w, v, e, hv⟩
  · obtain rfl : success w v = t := by simpa [e] using he
    exact hv.caps
  · obtain rfl : takeFault c w v = t := by simpa [e] using he
    rw [takeFault_caps, hv.caps]

/-- The inversion of `step`: the engine waited, took the fault of an illegal packet, or executed an instruction (R27, R241, R260). -/
theorem step_cases {s t : State} (h : step s = .next t) :
    (decode s.cmd = .idle ∧ t = s) ∨
    (∃ r w rest, decode s.cmd = .illegal r w rest ∧ t = takeFault .illegalCommand w (s.setCmd rest)) ∨
    (∃ i rest, decode s.cmd = .instr i rest ∧ exec i (s.setCmd rest) = .next t) := by
  unfold step at h
  cases hd : decode s.cmd with
  | idle => exact .inl ⟨rfl, by simpa [hd] using h.symm⟩
  | truncated => simp [hd] at h
  | illegal r w rest => exact .inr (.inl ⟨r, w, rest, rfl, by simpa [hd] using h.symm⟩)
  | instr i rest => exact .inr (.inr ⟨i, rest, rfl, by simpa [hd] using h⟩)

/-- The invariant does not speak of CMD. -/
theorem State.Inv.setCmd {s : State} (h : s.Inv) (ws : List Word) : (s.setCmd ws).Inv := h

theorem step_caps {s t : State} (h : s.Inv) (hs : step s = .next t) : t.caps = s.caps := by
  rcases step_cases hs with ⟨-, rfl⟩ | ⟨r, w, rest, -, rfl⟩ | ⟨i, rest, -, he⟩
  · rfl
  · rw [takeFault_caps, State.setCmd_caps]
  · calc
      t.caps = (s.setCmd rest).caps := exec_caps (s := s.setCmd rest) (h.setCmd rest) he
      _ = s.caps := State.setCmd_caps rest s

/-- RD_CSR of a register that exists answers its value and changes nothing (R232). -/
theorem exec_rdCsr_of_readCsr {c : BitVec 8} {s : State} {w : Word} (h : readCsr c s = some w) :
    exec (.rdCsr c) s = .next (success w s) := by
  show execRdCsr c s = _
  simp [execRdCsr, h]

/-- Settles O14: the reads are those of R232, and no command writes the four registers, by cases on how it can end. -/
theorem capabilityRegistersAreConstant : Obligations.CapabilityRegistersAreConstant := by
  unfold Obligations.CapabilityRegistersAreConstant
  refine ⟨fun s => ⟨?_, ?_, ?_, ?_⟩, fun s t h hs => (State.caps_eq_iff s t).mp (step_caps h hs)⟩
  all_goals exact exec_rdCsr_of_readCsr rfl

end Sys2Proof.Machine

end

section

namespace Sys2Proof.Machine

/-! ## How a command ends in a fault it raises before any effect (60_exceptions.md R254) -/

theorem Res.bind_of_raise {α β : Type} {r : Res α} {k : α → State → Res β} {c : Cause} {w : Word} {t : State}
    (h : r = .raise c w t) : r.bind k = .raise c w t := by
  rw [h, Res.bind_raise]

theorem Res.bind_raise_of_ok {α β : Type} {r : Res α} {k : α → State → Res β} {a : α} {c : Cause} {w : Word} {s t : State}
    (h : r = .ok a s) (hk : k a s = .raise c w t) : r.bind k = .raise c w t := by
  rw [h, Res.bind_ok, hk]

/-- A command whose mode check fails takes that check's fault, in every mode. -/
theorem finish_of_check_neg {p : Prop} [Decidable p] {c : Cause} {w : Word} {s : State} {k : Unit → State → Res Word}
    (h : ¬p) : ((check p c w s).bind k).finish = .next (takeFault c w s) := by
  rw [check_neg h, Res.bind_raise, Res.finish_raise]

/-- A command that passes its mode check outside FAULT mode and then raises has the fault as its whole effect (R250). -/
theorem finish_of_raise {p : Prop} [Decidable p] {c₀ c : Cause} {w₀ w : Word} {s : State} {k : Unit → State → Res Word}
    (hf : s.mode ≠ .fault) (h : p) (hk : k () s = .raise c w s) :
    ((check p c₀ w₀ s).bind k).finish = .next (faulted c w s) := by
  rw [check_pos h, Res.bind_ok, hk, Res.finish_raise, takeFault_enter c w s hf]

/-- The same where the command's first part after the mode check is what raises. -/
theorem finish_of_first_raise {α : Type} {p : Prop} [Decidable p] {c₀ c : Cause} {w₀ w : Word} {s : State}
    {r : State → Res α} {k : α → State → Res Word} (hf : s.mode ≠ .fault) (h : p) (hr : r s = .raise c w s) :
    ((check p c₀ w₀ s).bind fun _ s => (r s).bind k).finish = .next (faulted c w s) :=
  finish_of_raise hf h (Res.bind_of_raise hr)

theorem mode_ne_fault_of_enc {s : State} (h : s.mode = .enc) : s.mode ≠ .fault := by simp [h]

theorem mode_ne_fault_of_dec {s : State} (h : s.mode = .dec) : s.mode ≠ .fault := by simp [h]

/-! ## The table of modes (R242) -/

/-- The mode check comes first: a command its mode does not accept takes ModeError with INFO = word 0, in every mode. -/
theorem exec_of_not_accepts {i : Instr} {s : State} (h : accepts i.opcode s.mode = false) :
    exec i s = .next (takeFault .modeError i.commandWord s) := by
  cases i with
  | nop | reset | rdCsr _ => simp [Instr.opcode, accepts] at h
  | _ => exact finish_of_check_neg (by simpa [Instr.opcode, accepts] using h)

/-- The FAULT column of the table. -/
theorem accepts_fault_of_ne {i : Instr} (h1 : i ≠ .nop) (h2 : i ≠ .reset) (h3 : ∀ c, i ≠ .rdCsr c) :
    accepts i.opcode .fault = false := by
  cases i with
  | nop => exact absurd rfl h1
  | reset => exact absurd rfl h2
  | rdCsr c => exact absurd rfl (h3 c)
  | _ => rfl

/-! ## Who writes CAUSE (10_state.md R30) -/

theorem EncFrame.cause {s t : State} (h : EncFrame s t) : t.cause = s.cause := by rw [h.2]

theorem DecFrame.cause {s t : State} (h : DecFrame s t) : t.cause = s.cause := by rw [h.2]

theorem EncRun.cause {n : Nat} {s t : State} (h : EncRun n s t) : t.cause = s.cause := h.1.cause

theorem DecRun.cause {s t : State} (h : DecRun s t) : t.cause = s.cause := h.1.cause

theorem flushStage_cause (s : State) : (flushStage s).cause = s.cause := by
  unfold flushStage
  split <;> rfl

/-- A command that succeeds leaves CAUSE as it was, but for RESET, which clears it (R231). -/
theorem Succeeds.cause {i : Instr} {s t : State} {w : Word} (h : Succeeds i s w t) :
    t.cause = s.cause ∨ t.cause = .none := by
  cases i with
  | reset =>
    obtain rfl := h
    exact .inr rfl
  | nop =>
    obtain rfl := h
    exact .inl rfl
  | rdCsr _ =>
    obtain ⟨rfl, -⟩ := h
    exact .inl rfl
  | encInit | decDone | icGetK _ =>
    obtain ⟨-, rfl⟩ := h
    exact .inl rfl
  | decInit | bmInit _ =>
    obtain ⟨-, -, rfl⟩ := h
    exact .inl rfl
  | encDone =>
    obtain ⟨-, v, hv, rfl⟩ := h
    exact .inl ((flushStage_cause v).trans hv.cause)
  | encBit _ _ =>
    obtain ⟨-, -, v, -, -, hv, rfl⟩ := h
    exact .inl hv.cause
  | encSym _ _ | decBit _ =>
    obtain ⟨-, -, v, -, -, -, hv, rfl⟩ := h
    exact .inl hv.cause
  | encBits _ _ | decBits _ => exact .inl h.2.cause
  | decSym _ =>
    obtain ⟨-, -, v, -, -, -, -, -, hv, rfl⟩ := h
    exact .inl hv.cause
  | smCreate _ _ =>
    obtain ⟨-, -, -, rfl⟩ := h
    exact .inl rfl
  | smCreateB _ _ _ =>
    obtain ⟨-, -, -, -, -, rfl⟩ := h
    exact .inl rfl
  | smReset _ | icInit _ =>
    obtain ⟨-, -, -, -, rfl⟩ := h
    exact .inl rfl
  | icConfig _ _ _ =>
    obtain ⟨-, -, -, -, -, -, -, rfl⟩ := h
    exact .inl rfl
  | icCompress _ _ _ _ =>
    obtain ⟨-, -, -, v, -, -, -, hv, rfl⟩ := h
    exact .inl hv.cause
  | icDecompress _ _ _ =>
    obtain ⟨-, -, -, v, -, -, -, -, -, -, hv, rfl⟩ := h
    exact .inl hv.cause

/-- The state in which a command raises still has the CAUSE it started with. -/
theorem Fails.cause {i : Instr} {s t : State} {c : Cause} {w : Word} (h : Fails i s c w t) : t.cause = s.cause := by
  obtain ⟨-, -, -, rfl | ⟨-, -, hv, -⟩ | ⟨-, -, hv⟩ | ⟨-, -, hv⟩⟩ := h
  · rfl
  · exact hv.cause
  · exact hv.cause
  · exact hv.cause

theorem takeFault_cause (c : Cause) (w : Word) (s : State) :
    (takeFault c w s).cause = c ∨ (takeFault c w s).cause = s.cause := by
  by_cases h : s.mode = .fault
  · exact .inr (by rw [takeFault_stay c w s h])
  · exact .inl (by rw [takeFault_enter c w s h, faulted])

/-- ModeError is raised by the mode check alone. -/
theorem exec_cause_ne_modeError {i : Instr} {s t : State} (h : s.Inv) (hc : s.cause = .none)
    (ha : accepts i.opcode s.mode = true) (he : exec i s = .next t) : t.cause ≠ .modeError := by
  rcases exec_runs i s h with ⟨w, v, e, hv⟩ | ⟨c, w, v, e, hv⟩
  · obtain rfl : success w v = t := by simpa [e] using he
    have hn : v.cause = .none := hv.cause.elim (·.trans hc) id
    simp [success, hn]
  · obtain rfl : takeFault c w v = t := by simpa [e] using he
    rcases takeFault_cause c w v with ht | ht
    · rw [ht]
      intro hm
      simp [hv.2.1 hm] at ha
    · simp [ht, hv.cause, hc]

/-- Settles O18: the mode check is the first thing a command does, and no later part of it raises ModeError. -/
theorem modeErrorFollowsTheTable : Obligations.ModeErrorFollowsTheTable := by
  unfold Obligations.ModeErrorFollowsTheTable
  intro i s h hf
  refine ⟨fun ha => ?_, fun ha t he => ?_⟩
  · rw [exec_of_not_accepts ha, takeFault_enter _ _ _ hf]
  · have hc : s.cause = .none := (h.2.2.1.1 hf).1
    exact exec_cause_ne_modeError h hc ha he

/-! ## FAULT mode (R256) -/

theorem step_of_illegal {s : State} {why : Illegal} {w0 : Word} {rest : List Word}
    (h : decode s.cmd = .illegal why w0 rest) : step s = .next (takeFault .illegalCommand w0 (s.setCmd rest)) := by
  simp [step, h]

theorem step_of_instr {s : State} {i : Instr} {rest : List Word} (h : decode s.cmd = .instr i rest) :
    step s = exec i (s.setCmd rest) := by
  simp [step, h]

/-- In FAULT mode a fault is one more response, after the packet is taken off CMD. -/
theorem takeFault_setCmd_stay {s : State} (h : s.mode = .fault) (c : Cause) (w : Word) (rest : List Word) :
    takeFault c w (s.setCmd rest) = { s with cmd := rest, rsp := s.rsp ++ [⟨c.code, 0#32⟩] } :=
  takeFault_stay c w (s.setCmd rest) h

/-- Registers 0 to 6 exist (10_state.md R29 to R31). -/
theorem exists_readCsr {c : BitVec 8} (h : c.toNat ≤ 6) (s : State) : ∃ w, readCsr c s = some w := by
  unfold readCsr
  interval_cases c.toNat <;> exact ⟨_, rfl⟩

/-- Registers 7 to 255 do not exist (10_state.md R32). -/
theorem readCsr_eq_none {c : BitVec 8} (h : 6 < c.toNat) (s : State) : readCsr c s = none := by
  unfold readCsr
  split
  case h_8 => rfl
  all_goals omega

/-- RD_CSR of a register that does not exist takes IllegalCommand (44_system.md R232). -/
theorem exec_rdCsr_of_lt {c : BitVec 8} (h : 6 < c.toNat) (s : State) :
    exec (.rdCsr c) s = .next (takeFault .illegalCommand (Instr.rdCsr c).commandWord s) := by
  show execRdCsr c s = _
  rw [execRdCsr, readCsr_eq_none h, Res.finish_raise]

/-- Settles O19: each case is the command's own ending, and a fault in FAULT mode is a response only. -/
theorem faultModeKeepsTheFirstFault : Obligations.FaultModeKeepsTheFirstFault := by
  unfold Obligations.FaultModeKeepsTheFirstFault
  intro s rest hf
  refine ⟨fun why w0 hd => ?_, fun i hd => ⟨?_, ?_, ?_, ?_, ?_⟩⟩
  · rw [step_of_illegal hd, takeFault_setCmd_stay hf]
    rfl
  · rintro rfl
    exact step_of_instr hd
  · rintro rfl
    exact ⟨step_of_instr hd, _, step_of_instr hd, rfl, rfl, rfl, rfl, rfl⟩
  · rintro c rfl hc
    obtain ⟨w, hw⟩ := exists_readCsr hc s
    exact ⟨w, hw, (step_of_instr hd).trans (exec_rdCsr_of_readCsr hw)⟩
  · rintro c rfl hc
    rw [step_of_instr hd, exec_rdCsr_of_lt hc, takeFault_setCmd_stay hf]
    rfl
  · intro h1 h2 h3
    have ha : accepts i.opcode (s.setCmd rest).mode = false := by
      rw [State.setCmd_mode, hf]
      exact accepts_fault_of_ne h1 h2 h3
    rw [step_of_instr hd, exec_of_not_accepts ha, takeFault_setCmd_stay hf]
    rfl

/-! ## IndexRange (R243) -/

theorem useBm_of_le {i : BitVec 16} {s : State} (h : s.capNbm.toNat ≤ i.toNat) :
    useBm i s = .raise .indexRange (indexWord i) s :=
  Res.bind_of_raise (check_neg h.not_gt _ _ _)

theorem useSm_of_le {j : BitVec 16} {s : State} (h : s.capNsm.toNat ≤ j.toNat) :
    useSm j s = .raise .indexRange (indexWord j) s :=
  Res.bind_of_raise (check_neg h.not_gt _ _ _)

theorem useIc_of_le {u : BitVec 8} {s : State} (h : s.capNic.toNat ≤ u.toNat) :
    useIc u s = .raise .indexRange (smallWord u) s :=
  Res.bind_of_raise (check_neg h.not_gt _ _ _)

theorem useIcInited_of_le {u : BitVec 8} {s : State} (h : s.capNic.toNat ≤ u.toNat) :
    useIcInited u s = .raise .indexRange (smallWord u) s :=
  Res.bind_of_raise (useIc_of_le h)

/-- Settles O21: the index check is the first after the mode check; the context's comes once the unit is found. -/
theorem indexRangeFaults : Obligations.IndexRangeFaults := by
  unfold Obligations.IndexRangeFaults
  intro s hf
  refine ⟨fun slot h => ?_, fun slot h => ?_, fun unit h => ?_, ?_⟩
  · have hb := useBm_of_le h
    exact ⟨finish_of_first_raise hf hf (check_neg h.not_gt _ _ _),
      fun hm _ => finish_of_first_raise hf hm hb, fun hm => finish_of_first_raise hf hm hb⟩
  · have hs := useSm_of_le h
    have hc := check_neg h.not_gt .indexRange (indexWord slot) s
    exact ⟨fun _ => finish_of_first_raise hf hf hc, fun _ _ => finish_of_first_raise hf hf hc,
      finish_of_first_raise hf hf hs, fun hm _ => finish_of_first_raise hf hm hs, fun hm => finish_of_first_raise hf hm hs⟩
  · have hu := useIcInited_of_le h
    exact ⟨fun _ _ => finish_of_first_raise hf hf (check_neg h.not_gt _ _ _),
      finish_of_first_raise hf hf (useIc_of_le h), finish_of_first_raise hf hf hu,
      fun hm _ _ _ => finish_of_first_raise hf hm hu, fun hm _ _ => finish_of_first_raise hf hm hu⟩
  · intro unit ctx u hm hu hget ha hctx p a
    obtain ⟨ad, had⟩ := Option.ne_none_iff_exists'.mp ha
    exact finish_of_raise hf hm (Res.bind_raise_of_ok (useIcInited_ok unit s u ad hu hget had)
      (Res.bind_of_raise (check_neg hctx.not_gt _ _ _)))

/-! ## ModelUninit (R244) -/

theorem useBm_of_get_none {i : BitVec 16} {s : State} (hi : i.toNat < s.capNbm.toNat) (h : s.bm.get i.toNat = none) :
    useBm i s = .raise .modelUninit (indexWord i) s := by
  rw [useBm, check_pos hi, Res.bind_ok, h]

theorem useSm_of_get_none {j : BitVec 16} {s : State} (hj : j.toNat < s.capNsm.toNat) (h : s.sm.get j.toNat = none) :
    useSm j s = .raise .modelUninit (indexWord j) s := by
  rw [useSm, check_pos hj, Res.bind_ok, h]

theorem useIc_of_get_none {u : BitVec 8} {s : State} (hu : u.toNat < s.capNic.toNat) (h : s.ic.get u.toNat = none) :
    useIc u s = .raise .modelUninit (smallWord u) s := by
  rw [useIc, check_pos hu, Res.bind_ok, h]

/-- A unit without adaptive state: not configured, or configured and not initialised. -/
theorem useIcInited_of_adaptive_none {u : BitVec 8} {s : State} (hu : u.toNat < s.capNic.toNat)
    (h : (s.ic.get u.toNat).bind IcUnit.adaptive = none) : useIcInited u s = .raise .modelUninit (smallWord u) s := by
  cases hg : s.ic.get u.toNat with
  | none => exact Res.bind_of_raise (useIc_of_get_none hu hg)
  | some m =>
    have hm : m.adaptive = none := by simpa [hg] using h
    exact Res.bind_raise_of_ok (useIc_ok u s m hu hg) (by rw [hm])

/-- Settles O22: with the index in range, the look-up of the slot or unit is what raises. -/
theorem modelUninitFaults : Obligations.ModelUninitFaults := by
  unfold Obligations.ModelUninitFaults
  intro s hf
  refine ⟨fun slot hi h => ?_, fun slot hi h => ?_, fun unit hi => ⟨fun h => ?_, fun h => ?_⟩⟩
  · have hb := useBm_of_get_none hi h
    exact ⟨fun hm _ => finish_of_first_raise hf hm hb, fun hm => finish_of_first_raise hf hm hb⟩
  · have hs := useSm_of_get_none hi h
    exact ⟨finish_of_first_raise hf hf hs, fun hm _ => finish_of_first_raise hf hm hs,
      fun hm => finish_of_first_raise hf hm hs⟩
  · exact finish_of_first_raise hf hf (useIc_of_get_none hi h)
  · have hu := useIcInited_of_adaptive_none hi h
    exact ⟨finish_of_first_raise hf hf hu, fun hm _ _ _ => finish_of_first_raise hf hm hu,
      fun hm _ _ => finish_of_first_raise hf hm hu⟩

/-! ## OperandRange (R245) -/

theorem not_legalBitCount {n : BitVec 8} (h : n.toNat = 0 ∨ 32 < n.toNat) : ¬legalBitCount n := by
  unfold legalBitCount DIRECT_MAX
  omega

theorem not_fitsBits {n : BitVec 8} {v : Word} (hn : n.toNat < 32) (hv : 2 ^ n.toNat ≤ v.toNat) : ¬fitsBits n v := by
  rintro (h | h) <;> omega

/-- The class the meaning computes is the one the residual is in (43_integer_compressor.md R203). -/
theorem residualClass_foldedResidual {u : IcUnit} (hu : u.legal) {p r : Word} {k : Nat}
    (h : InClass (wrappedResidual u.bits p r) k) : residualClass (foldedResidual u p r) = k := by
  obtain ⟨hlo, hhi⟩ := foldedResidual_range u p r
  rw [← foldedResidual_eq u hu p r] at h
  exact (inClass_iff _ k hlo hhi).mp h

/-- Settles O23: each operand check is reached, and its condition is the negation of the rule's. -/
theorem operandRangeFaults : Obligations.OperandRangeFaults := by
  unfold Obligations.OperandRangeFaults
  intro s
  refine ⟨?_, fun n hn => ⟨fun hm v => ?_, fun hm => ?_⟩, ?_, ?_⟩
  · intro hm slot y m hslot hget hy
    exact finish_of_raise (mode_ne_fault_of_enc hm) hm
      (Res.bind_raise_of_ok (useSm_ok slot s m hslot hget) (Res.bind_of_raise (check_neg hy.not_gt _ _ _)))
  · exact finish_of_first_raise (mode_ne_fault_of_enc hm) hm (check_neg (not_legalBitCount hn) _ _ _)
  · exact finish_of_first_raise (mode_ne_fault_of_dec hm) hm (check_neg (not_legalBitCount hn) _ _ _)
  · intro hm n v h1 h2 hv
    have hl : legalBitCount n := ⟨h1, h2.le⟩
    exact finish_of_raise (mode_ne_fault_of_enc hm) hm
      (Res.bind_raise_of_ok (check_pos hl _ _ _) (Res.bind_of_raise (check_neg (not_fitsBits h2 hv) _ _ _)))
  · intro hm unit ctx p r u k hunit hget hu ha hctx hk hb
    obtain ⟨ad, had⟩ := Option.ne_none_iff_exists'.mp ha
    have hclass : ¬residualClass (foldedResidual u p r) ≤ u.corrBits := by
      rw [residualClass_foldedResidual hu hk]
      exact hb.not_ge
    rw [← foldedResidual_eq u hu p r]
    exact finish_of_raise (mode_ne_fault_of_enc hm) hm
      (Res.bind_raise_of_ok (useIcInited_ok unit s u ad hunit hget had)
        (Res.bind_raise_of_ok (check_pos hctx _ _ _) (Res.bind_of_raise (check_neg hclass _ _ _))))

end Sys2Proof.Machine

end

section

namespace Sys2Proof

/-! ## Cutting a packet off the word stream (30_encoding.md R90 to R96) -/

/-- A length that word 1 does not add to is the length whatever stands in its place (R92). -/
theorem operandCount_eq_zero {o : Opcode} {w v : Word} (h : operandCount o w = 0) : operandCount o v = 0 := by
  unfold operandCount at h ⊢
  cases hf : o.format <;> simp [hf] at h ⊢

/-- The length of a packet depends on its own words, not on what follows (R92). -/
theorem operandCount_append {o : Opcode} {ops : List Word} (rest : List Word)
    (h : ops.length = operandCount o (ops.headD 0#32)) : ops.length = operandCount o ((ops ++ rest).headD 0#32) := by
  cases ops with
  | nil => exact (operandCount_eq_zero h.symm).symm
  | cons w ws => exact h

/-- The words a packet's length takes in include the one the length depends on (R92). -/
theorem operandCount_take (o : Opcode) (r : List Word) :
    operandCount o (r.headD 0#32) = operandCount o ((r.take (operandCount o (r.headD 0#32))).headD 0#32) := by
  cases hc : operandCount o (r.headD 0#32) with
  | zero => exact (operandCount_eq_zero hc).symm
  | succ n => cases r <;> exact hc.symm

theorem decode_of_ofCode_none {w0 : Word} (rest : List Word) (h : Opcode.ofCode (fieldOpc w0) = none) :
    decode (w0 :: rest) = .illegal .reservedOpcode w0 rest := by
  simp [decode, h]

section Packet

variable {o : Opcode} {w0 : Word} {ops rest : List Word}

/-- What the decoder does once it knows the opcode: the packet's length comes first, then the must-be-zero bits. -/
theorem decode_of_ofCode (ho : Opcode.ofCode (fieldOpc w0) = some o) (r : List Word) :
    decode (w0 :: r) =
      if r.length < operandCount o (r.headD 0#32) then .truncated
      else if w0 &&& o.mustBeZero ≠ 0#32 then .illegal .mustBeZero w0 (r.drop (operandCount o (r.headD 0#32)))
      else .instr (build o w0 (r.take (operandCount o (r.headD 0#32)))) (r.drop (operandCount o (r.headD 0#32))) := by
  simp only [decode, ho]

theorem decode_packet (ho : Opcode.ofCode (fieldOpc w0) = some o)
    (hn : ops.length = operandCount o ((ops ++ rest).headD 0#32)) (hz : w0 &&& o.mustBeZero = 0#32) :
    decode (w0 :: (ops ++ rest)) = .instr (build o w0 ops) rest := by
  rw [decode_of_ofCode ho, ← hn]
  simp [hz]

theorem decode_packet_mustBeZero (ho : Opcode.ofCode (fieldOpc w0) = some o)
    (hn : ops.length = operandCount o ((ops ++ rest).headD 0#32)) (hz : w0 &&& o.mustBeZero ≠ 0#32) :
    decode (w0 :: (ops ++ rest)) = .illegal .mustBeZero w0 rest := by
  rw [decode_of_ofCode ho, ← hn]
  simp [hz]

theorem decode_truncated (ho : Opcode.ofCode (fieldOpc w0) = some o)
    (hn : ops.length < operandCount o (ops.headD 0#32)) : decode (w0 :: ops) = .truncated := by
  rw [decode_of_ofCode ho, if_pos hn]

end Packet

/-- What decodes to an instruction is a packet of its opcode without a stray bit, and what follows it. -/
theorem decode_eq_instr {ws rest : List Word} {i : Instr} (h : decode ws = .instr i rest) :
    ∃ o w0 ops, ws = w0 :: (ops ++ rest) ∧ fieldOpc w0 = o.code ∧ w0 &&& o.mustBeZero = 0#32 ∧
      ops.length = operandCount o (ops.headD 0#32) ∧ i = build o w0 ops := by
  cases ws with
  | nil => simp [decode] at h
  | cons w0 r =>
    cases ho : Opcode.ofCode (fieldOpc w0) with
    | none => simp [decode, ho] at h
    | some o =>
      rw [decode_of_ofCode ho] at h
      split at h
      case isTrue => cases h
      case isFalse hn =>
        split at h
        case isTrue => cases h
        case isFalse hz =>
          cases h
          refine ⟨o, w0, r.take (operandCount o (r.headD 0#32)), ?_, (Opcode.code_of_ofCode ho).symm, not_not.mp hz, ?_, rfl⟩
          · rw [List.take_append_drop]
          · rw [List.length_take, Nat.min_eq_left (Nat.not_lt.mp hn)]
            exact operandCount_take o r

/-! ## The packet of an instruction (R93, R94) -/

theorem packetShape (i : Instr) : Laws.PacketShape.Statement i := by
  cases i with
  | nop => exact Laws.PacketShape.nop
  | reset => exact Laws.PacketShape.reset
  | rdCsr csr => exact Laws.PacketShape.rdCsr csr
  | encInit => exact Laws.PacketShape.encInit
  | encDone => exact Laws.PacketShape.encDone
  | encBit bit slot => exact Laws.PacketShape.encBit bit slot
  | encSym slot symbol => exact Laws.PacketShape.encSym slot symbol
  | encBits n value => exact Laws.PacketShape.encBits n value
  | decInit => exact Laws.PacketShape.decInit
  | decDone => exact Laws.PacketShape.decDone
  | decBit slot => exact Laws.PacketShape.decBit slot
  | decSym slot => exact Laws.PacketShape.decSym slot
  | decBits n => exact Laws.PacketShape.decBits n
  | bmInit slot => exact Laws.PacketShape.bmInit slot
  | smCreate slot nsym => exact Laws.PacketShape.smCreate slot nsym
  | smCreateB slot nsym counts => exact Laws.PacketShape.smCreateB slot nsym counts
  | smReset slot => exact Laws.PacketShape.smReset slot
  | icConfig unit geometry contexts => exact Laws.PacketShape.icConfig unit geometry contexts
  | icInit unit => exact Laws.PacketShape.icInit unit
  | icCompress unit ctx predicted actual => exact Laws.PacketShape.icCompress unit ctx predicted actual
  | icDecompress unit ctx predicted => exact Laws.PacketShape.icDecompress unit ctx predicted
  | icGetK unit => exact Laws.PacketShape.icGetK unit

theorem length_operandWords {i : Instr} (h : i.wellFormed = true) :
    i.operandWords.length = operandCount i.opcode (i.operandWords.headD 0#32) := by
  have hlen := (packetShape i h).1
  rw [encode, List.length_cons] at hlen
  omega

theorem ofCode_commandWord (i : Instr) : Opcode.ofCode (fieldOpc i.commandWord) = some i.opcode := by
  rw [fieldOpc_commandWord, Opcode.ofCode_code]

theorem extractLsb'_setWidth_bit (bit : BitVec 1) : (bit.setWidth 8).extractLsb' 0 1 = bit := by
  revert bit
  decide

/-- An instruction is rebuilt from its own packet: each operand is read from the field it was put in. -/
theorem build_encode (i : Instr) : build i.opcode i.commandWord i.operandWords = i := by
  have ha := fieldA_commandWord i
  have hb := fieldB_commandWord i
  cases i with
  | encBit bit slot =>
    simp only [Instr.opcode, build, ha, hb, Instr.encodeA, Instr.encodeB, extractLsb'_setWidth_bit]
  | _ => simp [Instr.opcode, build, ha, hb, Instr.encodeA, Instr.encodeB, Instr.operandWords]

/-- Settles O2: the packet of an instruction has its opcode's length and no stray bit, and is read back field by field. -/
theorem decodeOfEncode : Obligations.DecodeOfEncode := by
  unfold Obligations.DecodeOfEncode
  intro i rest h
  have hlen := operandCount_append rest (length_operandWords h)
  calc
    decode (encode i ++ rest) = .instr (build i.opcode i.commandWord i.operandWords) rest :=
      decode_packet (ofCode_commandWord i) hlen (packetShape i h).2
    _ = .instr i rest := by rw [build_encode]

/-! ## The instruction of a packet (R94, R95) -/

theorem fieldA_and (v w : Word) : fieldA (v &&& w) = fieldA v &&& fieldA w := BitVec.extractLsb'_and

theorem fieldB_and (v w : Word) : fieldB (v &&& w) = fieldB v &&& fieldB w := BitVec.extractLsb'_and

/-- A bit field whose upper seven bits must be zero is its lowest bit (ENC_BIT, R95). -/
theorem setWidth_extractLsb'_bit {a : BitVec 8} (h : a &&& 0xFE#8 = 0#8) : (a.extractLsb' 0 1).setWidth 8 = a := by
  revert a
  decide

theorem opcode_build (o : Opcode) (w0 : Word) (ops : List Word) : (build o w0 ops).opcode = o := by
  cases o <;> rfl

/-- The A field an instruction is packed with is the one it was built from: where the row shows 0, its bits must be zero. -/
theorem encodeA_build {o : Opcode} {w0 : Word} (ops : List Word) (h : fieldA w0 &&& fieldA o.mustBeZero = 0#8) :
    (build o w0 ops).encodeA = fieldA w0 := by
  have hmask : fieldA w0 &&& 0xFF#8 = fieldA w0 := BitVec.and_allOnes
  cases o with
  | encBit => exact setWidth_extractLsb'_bit h
  | rdCsr | encBits | decBits | icConfig | icInit | icCompress | icDecompress | icGetK => rfl
  | _ => exact (hmask.symm.trans h).symm

theorem encodeB_build {o : Opcode} {w0 : Word} (ops : List Word) (h : fieldB w0 &&& fieldB o.mustBeZero = 0#16) :
    (build o w0 ops).encodeB = fieldB w0 := by
  have hmask : fieldB w0 &&& 0xFFFF#16 = fieldB w0 := BitVec.and_allOnes
  cases o with
  | encBit | encSym | decBit | decSym | bmInit | smCreate | smCreateB | smReset | icCompress | icDecompress => rfl
  | _ => exact (hmask.symm.trans h).symm

theorem commandWord_build {o : Opcode} {w0 : Word} (ops : List Word) (ho : fieldOpc w0 = o.code)
    (hz : w0 &&& o.mustBeZero = 0#32) : (build o w0 ops).commandWord = w0 := by
  have ha : fieldA w0 &&& fieldA o.mustBeZero = 0#8 := by rw [← fieldA_and, hz]; rfl
  have hb : fieldB w0 &&& fieldB o.mustBeZero = 0#16 := by rw [← fieldB_and, hz]; rfl
  rw [Instr.commandWord, opcode_build, encodeA_build ops ha, encodeB_build ops hb, ← ho, packFields_fields]

/-- The operand words of an opcode's length are all used, and SM_CREATE_B's table has the length of its count. -/
theorem operandWords_build {o : Opcode} (w0 : Word) {ops : List Word} (h : ops.length = operandCount o (ops.headD 0#32)) :
    (build o w0 ops).operandWords = ops ∧ (build o w0 ops).wellFormed = true := by
  cases o with
  | smCreateB =>
    cases ops with
    | nil =>
      have hlen : 0 = 1 + biasWords 0#32 := h
      omega
    | cons w ws =>
      have hlen : ws.length + 1 = 1 + smCreateBCounts w := h
      refine ⟨rfl, beq_iff_eq.mpr ?_⟩
      change ws.length = smCreateBCounts w
      omega
  | encSym | encBits | smCreate | icDecompress =>
    obtain ⟨w, rfl⟩ := List.length_eq_one_iff.mp h
    exact ⟨rfl, rfl⟩
  | icConfig | icCompress =>
    obtain ⟨v, w, rfl⟩ := List.length_eq_two.mp h
    exact ⟨rfl, rfl⟩
  | _ =>
    obtain rfl := List.eq_nil_of_length_eq_zero h
    exact ⟨rfl, rfl⟩

/-- Settles O3: a packet's command word and operand words are those of the instruction it was read as. -/
theorem encodeOfDecode : Obligations.EncodeOfDecode := by
  unfold Obligations.EncodeOfDecode
  intro i ws rest h
  obtain ⟨o, w0, ops, rfl, ho, hz, hn, rfl⟩ := decode_eq_instr h
  obtain ⟨hops, hwf⟩ := operandWords_build w0 hn
  exact ⟨hwf, by rw [encode, commandWord_build ops ho hz, hops, List.cons_append]⟩

end Sys2Proof

namespace Sys2Proof.Machine

/-! ## Illegal and cut-off packets, steps (10_state.md R27, 30_encoding.md R95, R96) -/

/-- The reserved OPC values are those of no row (R96). -/
theorem ofCode_eq_none_of_reserved {c : BitVec 8}
    (h : (0x03 ≤ c.toNat ∧ c.toNat ≤ 0x0F) ∨ (0x15 ≤ c.toNat ∧ c.toNat ≤ 0x1F) ∨ (0x25 ≤ c.toNat ∧ c.toNat ≤ 0x2F) ∨
      (0x34 ≤ c.toNat ∧ c.toNat ≤ 0x3F) ∨ 0x45 ≤ c.toNat) : Opcode.ofCode c = none := by
  cases hc : Opcode.ofCode c with
  | none => rfl
  | some o =>
    obtain rfl := Opcode.code_of_ofCode hc
    cases o <;> simp [Opcode.code] at h

/-- Outside FAULT mode an illegal packet takes IllegalCommand with INFO = its word 0 (60_exceptions.md R241, R250). -/
theorem step_of_illegal_enter {s : State} {why : Illegal} {w0 : Word} {rest : List Word} (hf : s.mode ≠ .fault)
    (h : decode s.cmd = .illegal why w0 rest) : step s = .next (faulted .illegalCommand w0 { s with cmd := rest }) := by
  rw [step_of_illegal h, takeFault_enter .illegalCommand w0 (s.setCmd rest) hf]
  rfl

/-- Settles O4: no row has the code, so the decoder takes one word. -/
theorem reservedOpcodeIsIllegal : Obligations.ReservedOpcodeIsIllegal := by
  unfold Obligations.ReservedOpcodeIsIllegal
  intro s w0 rest hf hcmd hc
  refine step_of_illegal_enter (why := .reservedOpcode) hf ?_
  rw [hcmd, decode_of_ofCode_none rest (ofCode_eq_none_of_reserved hc)]

/-- Settles O5: the length comes before the must-be-zero bits, so the operand words go with the command word. -/
theorem mustBeZeroBitIsIllegal : Obligations.MustBeZeroBitIsIllegal := by
  unfold Obligations.MustBeZeroBitIsIllegal
  intro s o w0 ops rest hf ho hz hn hcmd
  refine step_of_illegal_enter (why := .mustBeZero) hf ?_
  have hcode : Opcode.ofCode (fieldOpc w0) = some o := by rw [ho, Opcode.ofCode_code]
  rw [hcmd, decode_packet_mustBeZero hcode hn hz]

/-- Settles O6: the decoder reads the instruction back from its packet. -/
theorem stepRunsTheDecodedInstruction : Obligations.StepRunsTheDecodedInstruction := by
  unfold Obligations.StepRunsTheDecodedInstruction
  intro s i rest h hcmd
  have hd : decode s.cmd = .instr i rest := by rw [hcmd, decodeOfEncode i rest h]
  exact ⟨hd, step_of_instr hd⟩

/-- A proper front part of an instruction's packet that holds its word 0 is cut off (R92). -/
theorem decode_front {i : Instr} {ws vs : List Word} {v : Word} (h : i.wellFormed = true) (he : ws ++ v :: vs = encode i)
    (hne : ws ≠ []) : decode ws = .truncated := by
  obtain ⟨w0, ops, rfl⟩ := List.exists_cons_of_ne_nil hne
  obtain ⟨rfl, hops⟩ : w0 = i.commandWord ∧ ops ++ v :: vs = i.operandWords := List.cons.inj he
  refine decode_truncated (ofCode_commandWord i) ?_
  have hlen := length_operandWords h
  rw [← hops] at hlen
  cases ops with
  | nil =>
    refine Nat.pos_of_ne_zero fun h0 => ?_
    rw [operandCount_eq_zero h0] at hlen
    simp at hlen
  | cons w ws =>
    change (w :: ws ++ v :: vs).length = operandCount i.opcode w at hlen
    change _ < operandCount i.opcode w
    rw [← hlen, List.length_append, List.length_cons (a := v)]
    omega

/-- Settles O7: an empty CMD is idle, and a front part of a packet has fewer words than its opcode requires. -/
theorem waitsOnEmptyAndRefusesTruncated : Obligations.WaitsOnEmptyAndRefusesTruncated := by
  unfold Obligations.WaitsOnEmptyAndRefusesTruncated
  refine ⟨fun s h => ?_, fun s i w ws h he hne => ?_⟩
  · simp [step, decode, h]
  · simp [step, decode_front h he hne]

/-- Settles O1: each packet is read by the tables. -/
theorem decodeSampleWords : Obligations.DecodeSampleWords := by
  unfold Obligations.DecodeSampleWords
  decide

end Sys2Proof.Machine

end

section

namespace Sys2Proof.Machine

/-! ## What a command may touch -/

/-- `t` is `s` but for the coder registers, the output stage, BIN and BOUT. -/
def CoderFrame (s t : State) : Prop :=
  t = { s with base := t.base, value := t.value, length := t.length, cacheValid := t.cacheValid, cache := t.cache,
               ffrun := t.ffrun, bin := t.bin, bout := t.bout }

theorem CoderFrame.refl (s : State) : CoderFrame s s := rfl

theorem EncFrame.coderFrame {s t : State} (h : EncFrame s t) : CoderFrame s t := by
  unfold CoderFrame
  rw [h.2]

theorem DecFrame.coderFrame {s t : State} (h : DecFrame s t) : CoderFrame s t := by
  unfold CoderFrame
  rw [h.2]

section Frame

variable {s t : State} (h : CoderFrame s t)

include h

theorem CoderFrame.mode : t.mode = s.mode := by rw [h]

theorem CoderFrame.cause : t.cause = s.cause := by rw [h]

theorem CoderFrame.info : t.info = s.info := by rw [h]

theorem CoderFrame.rsp : t.rsp = s.rsp := by rw [h]

theorem CoderFrame.cmd : t.cmd = s.cmd := by rw [h]

theorem CoderFrame.bm : t.bm = s.bm := by rw [h]

theorem CoderFrame.sm : t.sm = s.sm := by rw [h]

theorem CoderFrame.ic : t.ic = s.ic := by rw [h]

theorem CoderFrame.storeWf (hs : s.storeWf) : t.storeWf := by
  rw [h]
  exact hs

end Frame

/-- `i` names bit-model slot `slot` to write it. -/
def NamesBm (i : Instr) (slot : BitVec 16) : Prop := i = .bmInit slot ∨ i = .decBit slot ∨ ∃ b, i = .encBit b slot

/-- `i` names symbol-model slot `slot` to write it. -/
def NamesSm (i : Instr) (slot : BitVec 16) : Prop :=
  i = .smReset slot ∨ i = .decSym slot ∨ (∃ n, i = .smCreate slot n) ∨ (∃ n c, i = .smCreateB slot n c) ∨
    ∃ y, i = .encSym slot y

/-- `i` names unit `unit` to write it. -/
def NamesIc (i : Instr) (unit : BitVec 8) : Prop :=
  i = .icInit unit ∨ (∃ g c, i = .icConfig unit g c) ∨ (∃ c p a, i = .icCompress unit c p a) ∨
    ∃ c p, i = .icDecompress unit c p

/-- The part of a command on the coder and the streams: none, an encoding run, or a decoding run. -/
inductive Coded (i : Instr) (s v : State) : Prop where
  | still (h : v = s)
  | enc (hm : s.mode = .enc) (ho : i.opcode ∈ [.encBit, .encSym, .encBits, .encDone, .icCompress]) (n : Nat)
      (hr : EncRun n s v)
  | dec (hm : s.mode = .dec) (ho : i.opcode ∈ [.decBit, .decSym, .decBits, .icDecompress]) (hr : DecRun s v)

/-- The part of a command on the model store of `s`, done at the state `v`: nothing, or one entry, which it names. The entry is
well formed; for SM_CREATE_B that rests on its table having the length of its count. -/
inductive Stored (i : Instr) (s v t : State) : Prop where
  | nothing (h : t = v)
  | bm (slot : BitVec 16) (m : BitModel) (hn : NamesBm i slot) (hi : slot.toNat < s.capNbm.toNat) (hm : m.wf)
      (h : t = putBm slot m v)
  | sm (slot : BitVec 16) (m : SymModel) (hn : NamesSm i slot) (hi : slot.toNat < s.capNsm.toNat)
      (hm : i.wellFormed = true → m.wf)
      (h : t = putSm slot m v)
  | ic (unit : BitVec 8) (u : IcUnit) (hn : NamesIc i unit) (hi : unit.toNat < s.capNic.toNat) (hu : u.wf)
      (hb : u.contexts * u.bins ≤ s.capIcBank.toNat) (h : t = putIc unit u v)

/-- What a success is made of: one of the five commands that open or close a session or reset the engine, or a part on the
coder followed by a part on the model store. -/
inductive Success (i : Instr) (s t : State) : Prop where
  | reset (hi : i = .reset) (h : t = resetEngine s)
  | encInit (hi : i = .encInit) (hm : s.mode = .idle)
      (h : t = (((s.setBase 0#32).setLength (u32 AC_MAX_LENGTH)).setStage false s.cache 0#32).setMode .enc)
  | encDone (hi : i = .encDone) (hm : s.mode = .enc) (v : State) (hv : EncFrame s v) (h : t = closeEncoder (flushStage v))
  | decInit (hi : i = .decInit) (hm : s.mode = .idle) (x : Word)
      (h : t = (((s.setLength (u32 AC_MAX_LENGTH)).setBin (s.bin.drop 4)).setValue x).setMode .dec)
  | decDone (hi : i = .decDone) (hm : s.mode = .dec) (h : t = closeDecoder s)
  | coded (v : State) (hv : Coded i s v) (ht : Stored i s v t)

/-- The unit of a legal configuration with a well-formed adaptive state. -/
theorem IcUnit.legal.withAdaptive {u : IcUnit} {a : IcAdaptive} (hu : u.legal) (ha : a.wf u) :
    IcUnit.wf { u with adaptive := some a } := by
  refine ⟨hu, fun b hb => ?_⟩
  obtain rfl : a = b := by simpa using hb
  exact ha

/-- The table of a SM_CREATE_B packet has the length R92 gives. -/
theorem length_counts {slot : BitVec 16} {n : Word} {c : List Word} (h : (Instr.smCreateB slot n c).wellFormed = true) :
    c.length = smCreateBCounts n :=
  beq_iff_eq.mp h

theorem Succeeds.success {i : Instr} {s t : State} {w : Word} (hs : s.Inv) (h : Succeeds i s w t) : Success i s t := by
  cases i with
  | nop => exact .coded s (.still rfl) (.nothing h)
  | reset => exact .reset rfl h
  | rdCsr c => exact .coded s (.still rfl) (.nothing h.1)
  | encInit => exact .encInit rfl h.1 h.2
  | encDone =>
    obtain ⟨hm, v, hv, ht⟩ := h
    exact .encDone rfl hm v hv ht
  | encBit bit slot =>
    obtain ⟨hm, m, v, hi, hget, hv, ht⟩ := h
    exact .coded v (.enc hm (by simp [Instr.opcode]) 3 hv)
      (.bm slot _ (.inr (.inr ⟨bit, rfl⟩)) hi (bmObserve_wf bit m (hs.bm_wf hget)) ht)
  | encSym slot y =>
    obtain ⟨hm, m, v, hi, hget, hy, hv, ht⟩ := h
    exact .coded v (.enc hm (by simp [Instr.opcode]) 3 hv)
      (.sm slot _ (.inr (.inr (.inr (.inr ⟨y, rfl⟩)))) hi
        (fun _ => (smObserve_wf y.toNat m (hs.sm_wf hget) hy).1) ht)
  | encBits n v => exact .coded t (.enc h.1 (by simp [Instr.opcode]) 6 h.2) (.nothing rfl)
  | decInit =>
    obtain ⟨hm, x, ht⟩ := h
    exact .decInit rfl hm x ht
  | decDone => exact .decDone rfl h.1 h.2
  | decBit slot =>
    obtain ⟨hm, m, v, bit, hi, hget, hv, ht⟩ := h
    exact .coded v (.dec hm (by simp [Instr.opcode]) hv)
      (.bm slot _ (.inr (.inl rfl)) hi (bmObserve_wf bit m (hs.bm_wf hget)) ht)
  | decSym slot =>
    obtain ⟨hm, m, v, y, hi, hget, hy, -, hv, ht⟩ := h
    exact .coded v (.dec hm (by simp [Instr.opcode]) hv)
      (.sm slot _ (.inr (.inl rfl)) hi (fun _ => (smObserve_wf y m (hs.sm_wf hget) hy).1) ht)
  | decBits n => exact .coded t (.dec h.1 (by simp [Instr.opcode]) h.2) (.nothing rfl)
  | bmInit slot => exact .coded s (.still rfl) (.bm slot _ (.inl rfl) h.2.1 bmInitial_wf h.2.2)
  | smCreate slot n =>
    obtain ⟨-, hi, hn, ht⟩ := h
    exact .coded s (.still rfl) (.sm slot _ (.inr (.inr (.inl ⟨n, rfl⟩))) hi
        (fun _ => (smUniform_wf n.toNat hn.1 hn.2).1) ht)
  | smCreateB slot n c =>
    obtain ⟨-, hi, hn, hc, hsum, ht⟩ := h
    refine .coded s (.still rfl) (.sm slot _ (.inr (.inr (.inr (.inl ⟨n, c, rfl⟩)))) hi (fun hwf => ?_) ht)
    have hlen : c.length = n.toNat := (length_counts hwf).trans (if_pos hn)
    exact (smInit_wf n.toNat c hn.1 hn.2 hlen hc hsum).1
  | smReset slot =>
    obtain ⟨-, m, hi, hget, ht⟩ := h
    obtain ⟨h2, hn, -⟩ := hs.sm_wf hget
    exact .coded s (.still rfl) (.sm slot _ (.inl rfl) hi (fun _ => (smUniform_wf m.nsym h2 hn).1) ht)
  | icConfig unit g c =>
    obtain ⟨-, hi, hbits, hhigh, hbins, hcount, hbank, ht⟩ := h
    have hl := configuredUnit_legal _ _ _ _ hbits hhigh hbins hcount
    exact .coded s (.still rfl) (.ic unit _ (.inr (.inl ⟨g, c, rfl⟩)) hi ⟨hl, by simp [configuredUnit]⟩ hbank ht)
  | icInit unit =>
    obtain ⟨-, u, hi, hget, ht⟩ := h
    obtain ⟨⟨hl, -⟩, hbank⟩ := hs.ic_wf hget
    exact .coded s (.still rfl) (.ic unit _ (.inl rfl) hi (hl.withAdaptive (initialAdaptive_wf u hl)) hbank ht)
  | icCompress unit ctx p r =>
    obtain ⟨hm, u, a, v, hi, hget, ha, hv, ht⟩ := h
    obtain ⟨⟨hl, -⟩, hbank⟩ := hs.ic_wf hget
    exact .coded v (.enc hm (by simp [Instr.opcode]) 12 hv)
      (.ic unit _ (.inr (.inr (.inl ⟨ctx, p, r, rfl⟩))) hi (hl.withAdaptive ha) hbank ht)
  | icDecompress unit ctx p =>
    obtain ⟨hm, u, a, v, corr, hi, hget, ha, -, -, hv, ht⟩ := h
    obtain ⟨⟨hl, -⟩, hbank⟩ := hs.ic_wf hget
    exact .coded v (.dec hm (by simp [Instr.opcode]) hv)
      (.ic unit _ (.inr (.inr (.inr ⟨ctx, p, rfl⟩))) hi (hl.withAdaptive ha) hbank ht)
  | icGetK unit => exact .coded s (.still rfl) (.nothing h.2)

/-! ## What a success leaves as it was -/

theorem Coded.frame {i : Instr} {s v : State} (h : Coded i s v) : CoderFrame s v := by
  cases h with
  | still h =>
    subst h
    exact .refl v
  | enc _ _ _ hr => exact hr.1.coderFrame
  | dec _ _ hr => exact hr.1.coderFrame

/-- A part on the model store changes nothing else. -/
theorem Stored.eq {i : Instr} {s v t : State} (h : Stored i s v t) : t = { v with bm := t.bm, sm := t.sm, ic := t.ic } := by
  cases h <;> subst t <;> rfl

theorem flushStage_frame (v : State) : CoderFrame v (flushStage v) := (flushStage_spec v).2.2.2.2.2.coderFrame

section Success

variable {i : Instr} {s t : State} (h : Success i s t)

include h

theorem Success.rsp : t.rsp = s.rsp := by
  cases h with
  | coded v hv ht => rw [ht.eq, ← hv.frame.rsp]
  | encDone _ _ v hv h =>
    subst h
    exact (flushStage_frame v).rsp.trans hv.coderFrame.rsp
  | _ =>
    subst t
    rfl

theorem Success.cmd : t.cmd = s.cmd := by
  cases h with
  | coded v hv ht => rw [ht.eq, ← hv.frame.cmd]
  | encDone _ _ v hv h =>
    subst h
    exact (flushStage_frame v).cmd.trans hv.coderFrame.cmd
  | _ =>
    subst t
    rfl

/-- The five commands that write MODE, and what each writes (10_state.md R21). -/
theorem Success.mode : t.mode = s.mode ∨ (i = .encInit ∧ t.mode = .enc) ∨ (i = .decInit ∧ t.mode = .dec) ∨
    ((i = .encDone ∨ i = .decDone ∨ i = .reset) ∧ t.mode = .idle) := by
  cases h with
  | coded v hv ht => exact .inl (by rw [ht.eq, ← hv.frame.mode])
  | encInit hi _ h =>
    subst h
    exact .inr (.inl ⟨hi, rfl⟩)
  | decInit hi _ _ h =>
    subst h
    exact .inr (.inr (.inl ⟨hi, rfl⟩))
  | reset hi h =>
    subst h
    exact .inr (.inr (.inr ⟨.inr (.inr hi), rfl⟩))
  | encDone hi _ v _ h =>
    subst h
    exact .inr (.inr (.inr ⟨.inl hi, rfl⟩))
  | decDone hi _ h =>
    subst h
    exact .inr (.inr (.inr ⟨.inr (.inl hi), rfl⟩))

/-- Outside FAULT mode a success leaves CAUSE and INFO as they were, but for RESET, which clears them. -/
theorem Success.causeInfo : (t.cause = s.cause ∧ t.info = s.info) ∨ (t.cause = .none ∧ t.info = 0#32) := by
  cases h with
  | coded v hv ht => exact .inl (by rw [ht.eq, ← hv.frame.cause, ← hv.frame.info]; exact ⟨rfl, rfl⟩)
  | encDone _ _ v hv h =>
    subst h
    have hf := flushStage_frame v
    exact .inl ⟨hf.cause.trans hv.coderFrame.cause, hf.info.trans hv.coderFrame.info⟩
  | reset _ h =>
    subst h
    exact .inr ⟨rfl, rfl⟩
  | _ =>
    subst t
    exact .inl ⟨rfl, rfl⟩

end Success

theorem Fails.frame {i : Instr} {s t : State} {c : Cause} {w : Word} (h : Fails i s c w t) : CoderFrame s t := by
  obtain ⟨-, -, -, rfl | ⟨-, -, hv, -⟩ | ⟨-, -, hv⟩ | ⟨-, -, hv⟩⟩ := h
  · exact .refl t
  · exact hv.coderFrame
  · exact hv.coderFrame
  · exact hv.coderFrame

/-- What an instruction that ends in a next state did: succeed with a result, or take one fault. -/
theorem exec_cases {i : Instr} {s t : State} (hs : s.Inv) (he : exec i s = .next t) :
    (∃ w v, t = success w v ∧ Succeeds i s w v ∧ Success i s v) ∨ (∃ c w v, t = takeFault c w v ∧ Fails i s c w v) := by
  rcases exec_runs i s hs with ⟨w, v, e, hv⟩ | ⟨c, w, v, e, hv⟩
  · obtain rfl : success w v = t := by simpa [e] using he
    exact .inl ⟨w, v, rfl, hv, hv.success hs⟩
  · obtain rfl : takeFault c w v = t := by simpa [e] using he
    exact .inr ⟨c, w, v, rfl, hv⟩

theorem takeFault_rsp (c : Cause) (w : Word) (s : State) : (takeFault c w s).rsp = s.rsp ++ [⟨c.code, 0#32⟩] := by
  by_cases h : s.mode = .fault
  · rw [takeFault_stay c w s h]
  · rw [takeFault_enter c w s h, faulted]

theorem takeFault_mode (c : Cause) (w : Word) (s : State) : (takeFault c w s).mode = .fault := by
  by_cases h : s.mode = .fault
  · rw [takeFault_stay c w s h, h]
  · rw [takeFault_enter c w s h, faulted]

/-! ## Endings of every command (30_encoding.md R97, 60_exceptions.md R250) -/

/-- Settles O8: a success and a fault each append one response to an RSP the command has not touched. -/
theorem everyCommandAnswersOnce : Obligations.EveryCommandAnswersOnce := by
  unfold Obligations.EveryCommandAnswersOnce
  intro i s t hs he
  rcases exec_cases hs he with ⟨w, v, rfl, -, hv⟩ | ⟨c, w, v, rfl, hv⟩
  · exact .inl ⟨w, by rw [success, hv.rsp]⟩
  · exact .inr ⟨c, hv.1, by rw [takeFault_rsp, hv.frame.rsp]⟩

/-- Settles O11: every command runs, whatever BIN holds. -/
theorem everyCommandHasANextState : Obligations.EveryCommandHasANextState := by
  unfold Obligations.EveryCommandHasANextState
  intro i s hs _
  rcases exec_runs i s hs with ⟨w, t, e, -⟩ | ⟨c, w, t, e, -⟩
  · exact ⟨_, e⟩
  · exact ⟨_, e⟩

/-- Settles O13: a success writes MODE as its command says, and a fault leaves FAULT. -/
theorem whoWritesTheMode : Obligations.WhoWritesTheMode := by
  unfold Obligations.WhoWritesTheMode
  intro i s t hs he
  rcases exec_cases hs he with ⟨w, v, rfl, -, hv⟩ | ⟨c, w, v, rfl, hv⟩
  · rcases hv.mode with h | h
    · exact .inl h
    · exact .inr (.inr h)
  · exact .inr (.inl (takeFault_mode c w v))

/-- A success outside FAULT mode ends outside it, with CAUSE and INFO 0 (10_state.md R30). -/
theorem Success.noFault {i : Instr} {s t : State} (h : Success i s t) (hs : s.faultWf) (hf : s.mode ≠ .fault) :
    t.mode ≠ .fault ∧ t.cause = .none ∧ t.info = 0#32 := by
  obtain ⟨hcause, hinfo⟩ := hs.1 hf
  refine ⟨?_, ?_⟩
  · rcases h.mode with h | ⟨-, h⟩ | ⟨-, h⟩ | ⟨-, h⟩
    · rwa [h]
    all_goals simp [h]
  · rcases h.causeInfo with ⟨h1, h2⟩ | h
    · exact ⟨h1.trans hcause, h2.trans hinfo⟩
    · exact h

/-- Outside FAULT mode a failing command enters it with its own cause and information word (R250). -/
theorem Fails.enters {i : Instr} {s t : State} {c : Cause} {w : Word} (h : Fails i s c w t) (hf : s.mode ≠ .fault) :
    takeFault c w t = faulted c w t :=
  takeFault_enter c w t (by rwa [h.frame.mode])

/-- Settles O17: the two endings of a command outside FAULT mode. -/
theorem succeedsOrEntersFault : Obligations.SucceedsOrEntersFault := by
  unfold Obligations.SucceedsOrEntersFault
  intro i s t hs hf he
  rcases exec_cases hs he with ⟨w, v, rfl, -, hv⟩ | ⟨c, w, v, rfl, hv⟩
  · obtain ⟨h1, h2, h3⟩ := hv.noFault hs.2.2.1 hf
    exact .inl ⟨h1, h2, h3, w, by rw [success, hv.rsp]⟩
  · rw [hv.enters hf]
    exact .inr ⟨rfl, hv.1, by rw [faulted, hv.frame.rsp]⟩

/-- Settles O12: a command that raises OutputStage does so with INFO 0, for no encoder procedure raises it with 1. -/
theorem unabsorbedCarryIsUnreachable : Obligations.UnabsorbedCarryIsUnreachable := by
  unfold Obligations.UnabsorbedCarryIsUnreachable
  rintro i s t hs hf he ⟨hcause, hinfo⟩
  rcases exec_cases hs he with ⟨w, v, rfl, -, hv⟩ | ⟨c, w, v, rfl, hv⟩
  · have hnone : v.cause = .none := (hv.noFault hs.2.2.1 hf).2.1
    change v.cause = .outputStage at hcause
    simp [hnone] at hcause
  · rw [hv.enters hf] at hcause hinfo
    have hzero : w = 0#32 := hv.2.2.1 hcause
    change w = 1#32 at hinfo
    simp [hzero] at hinfo

/-- Settles O20: a fault in FAULT mode is a response only, and of the commands accepted there RESET alone writes MODE. -/
theorem onlyResetLeavesFault : Obligations.OnlyResetLeavesFault := by
  unfold Obligations.OnlyResetLeavesFault
  intro s t hf hstep
  have stays : ∀ c w rest, (takeFault c w (s.setCmd rest)).mode = .fault ∧ (takeFault c w (s.setCmd rest)).cause = s.cause ∧
      (takeFault c w (s.setCmd rest)).info = s.info := fun c w rest => by
    rw [takeFault_setCmd_stay hf]
    exact ⟨hf, rfl, rfl⟩
  rcases step_cases hstep with ⟨-, rfl⟩ | ⟨r, w, rest, -, rfl⟩ | ⟨i, rest, hd, he⟩
  · exact .inl ⟨hf, rfl, rfl⟩
  · exact .inl (stays _ _ _)
  · cases ha : accepts i.opcode (s.setCmd rest).mode with
    | false =>
      rw [exec_of_not_accepts ha] at he
      cases he
      exact .inl (stays _ _ _)
    | true =>
      rw [State.setCmd_mode, hf] at ha
      cases i with
      | nop =>
        cases he
        exact .inl ⟨hf, rfl, rfl⟩
      | reset => exact .inr ⟨rest, hd⟩
      | rdCsr c =>
        change execRdCsr c _ = _ at he
        unfold execRdCsr at he
        split at he
        · cases he
          exact .inl ⟨hf, rfl, rfl⟩
        · cases he
          exact .inl (stays _ _ _)
      | _ => simp [Instr.opcode, accepts] at ha

/-! ## Who touches the streams and the model store (20_memory.md R62 to R64, 42_models.md R170) -/

/-- BOUT only grows and BIN only loses bytes at its front; each changes in the modes and by the commands named. -/
def StreamsFollow (i : Instr) (s t : State) : Prop :=
  s.bout <+: t.bout ∧ t.bin <:+ s.bin ∧
  (t.bout ≠ s.bout → s.mode = .enc ∧ i.opcode ∈ [.encBit, .encSym, .encBits, .encDone, .icCompress]) ∧
  (t.bin ≠ s.bin → s.mode = .idle ∧ i = .decInit ∨
    s.mode = .dec ∧ i.opcode ∈ [.decBit, .decSym, .decBits, .icDecompress])

theorem StreamsFollow.of_same {i : Instr} {s t : State} (hout : t.bout = s.bout) (hin : t.bin = s.bin) :
    StreamsFollow i s t :=
  ⟨by rw [hout], by rw [hin], fun h => absurd hout h, fun h => absurd hin h⟩

theorem StreamsFollow.of_enc {i : Instr} {s t : State} (hm : s.mode = .enc)
    (ho : i.opcode ∈ [.encBit, .encSym, .encBits, .encDone, .icCompress]) (hf : EncFrame s t) : StreamsFollow i s t :=
  have hin : t.bin = s.bin := by rw [hf.2]
  ⟨hf.1, by rw [hin], fun _ => ⟨hm, ho⟩, fun h => absurd hin h⟩

theorem StreamsFollow.of_dec {i : Instr} {s t : State}
    (hi : s.mode = .idle ∧ i = .decInit ∨ s.mode = .dec ∧ i.opcode ∈ [.decBit, .decSym, .decBits, .icDecompress])
    (hf : DecFrame s t) : StreamsFollow i s t :=
  have hout : t.bout = s.bout := by rw [hf.2]
  ⟨by rw [hout], hf.1, fun h => absurd hout h, fun _ => hi⟩

/-- The rule does not look past the streams. -/
theorem StreamsFollow.congr {i : Instr} {s v t : State} (h : StreamsFollow i s v) (hout : t.bout = v.bout)
    (hin : t.bin = v.bin) : StreamsFollow i s t := by
  unfold StreamsFollow
  rw [hout, hin]
  exact h

theorem Coded.streamsFollow {i : Instr} {s v : State} (h : Coded i s v) : StreamsFollow i s v := by
  cases h with
  | still h => exact .of_same (by rw [h]) (by rw [h])
  | enc hm ho _ hr => exact .of_enc hm ho hr.1
  | dec hm ho hr => exact .of_dec (.inr ⟨hm, ho⟩) hr.1

theorem Success.streamsFollow {i : Instr} {s t : State} (h : Success i s t) : StreamsFollow i s t := by
  cases h with
  | coded v hv ht => exact hv.streamsFollow.congr (by rw [ht.eq]) (by rw [ht.eq])
  | encDone hi hm v hv h =>
    obtain ⟨-, -, -, -, -, hflush⟩ := flushStage_spec v
    have hf : StreamsFollow i s (flushStage v) := .of_enc hm (by simp [hi, Instr.opcode]) (hv.trans hflush)
    exact hf.congr (by rw [h]; rfl) (by rw [h]; rfl)
  | decInit hi hm x h =>
    have hf : StreamsFollow i s (s.setBin (s.bin.drop 4)) := .of_dec (.inl ⟨hm, hi⟩) ⟨List.drop_suffix _ _, rfl⟩
    exact hf.congr (by rw [h]; rfl) (by rw [h]; rfl)
  | _ => exact .of_same (by subst t; rfl) (by subst t; rfl)

theorem Fails.streamsFollow {i : Instr} {s t : State} {c : Cause} {w : Word} (h : Fails i s c w t) : StreamsFollow i s t := by
  obtain ⟨-, -, -, rfl | ⟨hm, ho, hv, -⟩ | ⟨hm, ho, hv⟩ | ⟨hm, hi, hv⟩⟩ := h
  · exact .of_same rfl rfl
  · exact .of_enc hm ho hv
  · exact .of_dec (.inr ⟨hm, ho⟩) hv
  · exact .of_dec (.inl ⟨hm, hi⟩) hv

theorem takeFault_streams (c : Cause) (w : Word) (s : State) :
    (takeFault c w s).bout = s.bout ∧ (takeFault c w s).bin = s.bin ∧ (takeFault c w s).cmd = s.cmd := by
  by_cases h : s.mode = .fault
  · rw [takeFault_stay c w s h]
    exact ⟨rfl, rfl, rfl⟩
  · rw [takeFault_enter c w s h]
    exact ⟨rfl, rfl, rfl⟩

/-- Settles O15: the streams are touched by the coder's part of a command alone. -/
theorem whoTouchesTheStreams : Obligations.WhoTouchesTheStreams := by
  unfold Obligations.WhoTouchesTheStreams
  intro i s t hs he
  have key : StreamsFollow i s t ∧ t.cmd = s.cmd := by
    rcases exec_cases hs he with ⟨w, v, rfl, -, hv⟩ | ⟨c, w, v, rfl, hv⟩
    · exact ⟨hv.streamsFollow.congr rfl rfl, hv.cmd⟩
    · obtain ⟨hout, hin, hcmd⟩ := takeFault_streams c w v
      exact ⟨hv.streamsFollow.congr hout hin, hcmd.trans hv.frame.cmd⟩
  obtain ⟨⟨hout, hin, hwrites, hreads⟩, hcmd⟩ := key
  exact ⟨hout, hin, hcmd, hwrites, hreads⟩

/-- A command that succeeds empties the model store, if it is RESET, or writes one entry, which it names, or none. -/
theorem Success.store {i : Instr} {s t : State} (h : Success i s t) :
    i = .reset ∨ (t.bm = s.bm ∧ t.sm = s.sm ∧ t.ic = s.ic) ∨
    (∃ slot m, NamesBm i slot ∧ t.bm = s.bm.put slot.toNat m ∧ t.sm = s.sm ∧ t.ic = s.ic) ∨
    (∃ slot m, NamesSm i slot ∧ t.sm = s.sm.put slot.toNat m ∧ t.bm = s.bm ∧ t.ic = s.ic) ∨
    (∃ unit u, NamesIc i unit ∧ t.ic = s.ic.put unit.toNat u ∧ t.bm = s.bm ∧ t.sm = s.sm) := by
  cases h with
  | reset hi _ => exact .inl hi
  | coded v hv ht =>
    have hf := hv.frame
    rw [← hf.bm, ← hf.sm, ← hf.ic]
    cases ht with
    | nothing h =>
      subst h
      exact .inr (.inl ⟨rfl, rfl, rfl⟩)
    | bm slot m hn _ _ h =>
      subst h
      exact .inr (.inr (.inl ⟨slot, m, hn, rfl, rfl, rfl⟩))
    | sm slot m hn _ _ h =>
      subst h
      exact .inr (.inr (.inr (.inl ⟨slot, m, hn, rfl, rfl, rfl⟩)))
    | ic unit u hn _ _ _ h =>
      subst h
      exact .inr (.inr (.inr (.inr ⟨unit, u, hn, rfl, rfl, rfl⟩)))
  | encDone _ _ v hv h =>
    subst h
    have hf := flushStage_frame v
    have hv := hv.coderFrame
    exact .inr (.inl ⟨hf.bm.trans hv.bm, hf.sm.trans hv.sm, hf.ic.trans hv.ic⟩)
  | _ =>
    subst t
    exact .inr (.inl ⟨rfl, rfl, rfl⟩)

/-- The one slot whose content a write can change. -/
theorem Store.eq_of_get_put_ne {α : Type} {m : Store α} {i j : Nat} {a : α} (h : (m.put i a).get j ≠ m.get j) : i = j := by
  by_contra hne
  exact h (Store.get_put_other m i j a (Ne.symm hne))

/-- Settles O16: the store's own laws, and that a command writes the entry it names. -/
theorem modelsChangeOnlyWhenNamed : Obligations.ModelsChangeOnlyWhenNamed := by
  unfold Obligations.ModelsChangeOnlyWhenNamed
  refine ⟨fun b j m => ⟨Store.get_put_self b j m, fun k hk => Store.get_put_other b j k m hk⟩,
    fun b j m => ⟨Store.get_put_self b j m, fun k hk => Store.get_put_other b j k m hk⟩,
    fun b j m => ⟨Store.get_put_self b j m, fun k hk => Store.get_put_other b j k m hk⟩, fun i s t hs he hf => ?_⟩
  rcases exec_cases hs he with ⟨w, v, rfl, -, hv⟩ | ⟨c, w, v, rfl, -⟩
  · change (∀ j, v.bm.get j ≠ s.bm.get j → _) ∧ (∀ j, v.sm.get j ≠ s.sm.get j → _) ∧ ∀ j, v.ic.get j ≠ s.ic.get j → _
    rcases hv.store with hi | ⟨hb, hsm, hic⟩ | ⟨slot, m, hn, hb, hsm, hic⟩ | ⟨slot, m, hn, hsm, hb, hic⟩ |
      ⟨unit, u, hn, hic, hb, hsm⟩
    · exact ⟨fun _ _ => .inl hi, fun _ _ => .inl hi, fun _ _ => .inl hi⟩
    all_goals rw [hb, hsm, hic]
    · exact ⟨fun _ h => absurd rfl h, fun _ h => absurd rfl h, fun _ h => absurd rfl h⟩
    · exact ⟨fun _ h => .inr ⟨slot, Store.eq_of_get_put_ne h, hn⟩, fun _ h => absurd rfl h, fun _ h => absurd rfl h⟩
    · exact ⟨fun _ h => absurd rfl h, fun _ h => .inr ⟨slot, Store.eq_of_get_put_ne h, hn⟩, fun _ h => absurd rfl h⟩
    · exact ⟨fun _ h => absurd rfl h, fun _ h => absurd rfl h, fun _ h => .inr ⟨unit, Store.eq_of_get_put_ne h, hn⟩⟩
  · exact absurd (takeFault_mode c w v) hf

/-! ## The invariant (10_state.md R24, R26, R30, R37, R39, R42) -/

theorem State.capsLegal_congr {s t : State} (h : t.caps = s.caps) (hs : s.capsLegal) : t.capsLegal := by
  obtain ⟨hbm, hsm, hic, hbank⟩ := (State.caps_eq_iff s t).mp h
  unfold State.capsLegal
  rw [hbm, hsm, hic, hbank]
  exact hs

theorem Store.forall_mem_put {α : Type} {P : Nat × α → Prop} {m : Store α} {i : Nat} {a : α} (h : ∀ e ∈ m, P e)
    (ha : P (i, a)) : ∀ e ∈ m.put i a, P e := fun e he => by
  rcases Store.mem_put m i a e he with rfl | he
  · exact ha
  · exact h e he

theorem CoderFrame.caps {s t : State} (h : CoderFrame s t) : t.caps = s.caps := by
  rw [h]
  rfl

/-- A part on the model store keeps it well formed (R37, R39, R42). -/
theorem Stored.storeWf {i : Instr} {s v t : State} (h : Stored i s v t) (hi : i.wellFormed = true)
    (hf : CoderFrame s v) (hs : s.storeWf) : t.storeWf := by
  obtain ⟨hnbm, hnsm, hnic, hbank⟩ := (State.caps_eq_iff s v).mp hf.caps
  obtain ⟨h1, h2, h3, h4, h5, h6⟩ := hf.storeWf hs
  cases h with
  | nothing h =>
    subst h
    exact hf.storeWf hs
  | bm slot m _ hslot hm h =>
    subst h
    rw [← hnbm] at hslot
    exact ⟨Store.put_wf _ _ _ h1, Store.forall_mem_put h2 ⟨hslot, hm⟩, h3, h4, h5, h6⟩
  | sm slot m _ hslot hm h =>
    subst h
    rw [← hnsm] at hslot
    exact ⟨h1, h2, Store.put_wf _ _ _ h3, Store.forall_mem_put h4 ⟨hslot, hm hi⟩, h5, h6⟩
  | ic unit u _ hunit hu hb h =>
    subst h
    rw [← hnic] at hunit
    rw [← hbank] at hb
    exact ⟨h1, h2, h3, h4, Store.put_wf _ _ _ h5, Store.forall_mem_put h6 ⟨hunit, hu, hb⟩⟩

/-- A part on the coder keeps its registers as a session needs them (R24, R26, R133). -/
theorem Coded.coderWf {i : Instr} {s v : State} (h : Coded i s v) (hs : s.coderWf) : v.coderWf := by
  cases h with
  | still h =>
    subst h
    exact hs
  | enc hm _ n hr =>
    obtain ⟨hf, hstage, hroom, hlen, -⟩ := hr
    have hv : v.mode = .enc := hf.coderFrame.mode.trans hm
    exact ⟨fun _ => hlen, hstage, fun h => by simp [hv] at h, fun _ => hroom⟩
  | dec hm _ hr =>
    obtain ⟨-, hstage, hempty, -⟩ := hs
    have hv : v.mode = .dec := hr.1.coderFrame.mode.trans hm
    have hc : v.cacheValid = s.cacheValid ∧ v.ffrun = s.ffrun := by
      rw [hr.1.2]
      exact ⟨rfl, rfl⟩
    rw [← hc.1, ← hc.2] at hstage
    exact ⟨fun _ => hr.2, hstage, fun _ => hc.1.trans (hempty (.inr hm)), fun h => by simp [hv] at h⟩

theorem Stored.coderWf {i : Instr} {s v t : State} (h : Stored i s v t) (hv : v.coderWf) : t.coderWf := by
  rw [h.eq]
  exact hv

/-- The empty model store of a reset engine. -/
theorem resetEngine_storeWf (s : State) : (resetEngine s).storeWf :=
  ⟨Store.wf_nil, by simp [resetEngine], Store.wf_nil, by simp [resetEngine], Store.wf_nil, by simp [resetEngine]⟩

theorem Success.storeWf {i : Instr} {s t : State} (h : Success i s t) (hi : i.wellFormed = true) (hs : s.storeWf) :
    t.storeWf := by
  cases h with
  | coded v hv ht => exact ht.storeWf hi hv.frame hs
  | reset _ h =>
    subst h
    exact resetEngine_storeWf s
  | encDone _ _ v hv h =>
    subst h
    exact (flushStage_frame v).storeWf (hv.coderFrame.storeWf hs)
  | _ =>
    subst t
    exact hs

/-- An engine in IDLE with nothing pending is in order. -/
theorem State.coderWf_of_idle {s : State} (hm : s.mode = .idle) (hc : s.cacheValid = false) (hf : s.ffrun = 0#32) :
    s.coderWf :=
  ⟨fun h => by simp [hm] at h, fun _ => hf, fun _ => hc, fun h => by simp [hm] at h⟩

theorem Success.coderWf {i : Instr} {s t : State} (h : Success i s t) (hs : s.coderWf) : t.coderWf := by
  obtain ⟨-, hstage, hempty, -⟩ := id hs
  have hmax : 2 ^ 24 ≤ (u32 AC_MAX_LENGTH).toNat := by decide
  have hroom : (0#32).toNat + (u32 AC_MAX_LENGTH).toNat ≤ 2 ^ 32 := by decide
  cases h with
  | coded v hv ht => exact ht.coderWf (hv.coderWf hs)
  | reset _ h =>
    subst h
    exact State.coderWf_of_idle rfl rfl rfl
  | encInit _ _ h =>
    subst h
    exact ⟨fun _ => hmax, fun _ => rfl, fun _ => rfl, fun _ _ => hroom⟩
  | encDone _ _ v _ h =>
    subst h
    obtain ⟨-, hc, hf, -⟩ := flushStage_spec v
    exact State.coderWf_of_idle rfl hc hf
  | decInit _ hm _ h =>
    subst h
    exact ⟨fun _ => hmax, hstage, fun _ => hempty (.inl hm), fun h => by cases h⟩
  | decDone _ hm h =>
    subst h
    have hc := hempty (.inr hm)
    exact State.coderWf_of_idle rfl hc (hstage hc)

/-- A success keeps the fault registers in step with MODE (R30). -/
theorem Success.faultWf {i : Instr} {s t : State} (h : Success i s t) (hs : s.faultWf) : t.faultWf := by
  by_cases hf : s.mode = .fault
  · cases h with
    | coded v hv ht =>
      have hframe := hv.frame
      rw [ht.eq]
      rwa [State.faultWf, hframe.mode, hframe.cause, hframe.info]
    | reset _ h =>
      subst h
      exact ⟨fun _ => ⟨rfl, rfl⟩, fun h => by cases h⟩
    | _ => simp_all
  · obtain ⟨hmode, hnone⟩ := h.noFault hs hf
    exact ⟨fun _ => hnone, fun h => absurd h hmode⟩

theorem Success.inv {i : Instr} {s t : State} {w : Word} (h : Success i s t) (hcaps : t.caps = s.caps)
    (hi : i.wellFormed = true) (hs : s.Inv) : (success w t).Inv := by
  obtain ⟨h1, h2, h3, h4⟩ := hs
  exact ⟨State.capsLegal_congr hcaps h1, h.storeWf hi h2, h.faultWf h3, h.coderWf h4⟩

/-- Whatever a partial execution left, nothing pending means an empty run (R26). -/
theorem Fails.stageWf {i : Instr} {s t : State} {c : Cause} {w : Word} (h : Fails i s c w t) (hs : s.stageWf) : t.stageWf := by
  have hdec : DecFrame s t → t.stageWf := fun hv => by
    rw [hv.2]
    exact hs
  obtain ⟨-, -, -, rfl | ⟨-, -, -, hv⟩ | ⟨-, -, hv⟩ | ⟨-, -, hv⟩⟩ := h
  · exact hs
  · exact hv
  · exact hdec hv
  · exact hdec hv

/-- In FAULT mode a command raises its fault before it changes anything. -/
theorem Fails.eq_of_fault {i : Instr} {s t : State} {c : Cause} {w : Word} (h : Fails i s c w t) (hf : s.mode = .fault) :
    t = s := by
  obtain ⟨-, -, -, ht | ⟨hm, -⟩ | ⟨hm, -⟩ | ⟨hm, -⟩⟩ := h
  · exact ht
  all_goals simp [hf] at hm

/-- Entering FAULT mode keeps the invariant: of the coder it asks only that an empty stage holds no run. -/
theorem faulted_inv {s : State} {c : Cause} {w : Word} (hc : c ≠ .none) (h1 : s.capsLegal) (h2 : s.storeWf) (h4 : s.stageWf) :
    (faulted c w s).Inv :=
  ⟨h1, h2, ⟨fun h => absurd rfl h, fun _ => hc⟩, ⟨fun h => by simp [faulted] at h, h4, fun h => by simp [faulted] at h,
    fun h => by simp [faulted] at h⟩⟩

theorem Fails.inv {i : Instr} {s t : State} {c : Cause} {w : Word} (h : Fails i s c w t) (hs : s.Inv) :
    (takeFault c w t).Inv := by
  by_cases hf : s.mode = .fault
  · obtain rfl := h.eq_of_fault hf
    rw [takeFault_stay c w t hf]
    exact hs
  · rw [h.enters hf]
    obtain ⟨h1, h2, -, -, h4, -⟩ := hs
    exact faulted_inv h.1 (State.capsLegal_congr h.caps h1) (h.frame.storeWf h2) (h.stageWf h4)

theorem exec_inv {i : Instr} {s t : State} (hs : s.Inv) (hi : i.wellFormed = true) (he : exec i s = .next t) : t.Inv := by
  rcases exec_cases hs he with ⟨w, v, rfl, hw, hv⟩ | ⟨c, w, v, rfl, hv⟩
  · exact hv.inv hw.caps hi hs
  · exact hv.inv hs

/-- An illegal packet's fault keeps the invariant in every mode. -/
theorem takeFault_inv {s : State} {c : Cause} {w : Word} (hc : c ≠ .none) (hs : s.Inv) : (takeFault c w s).Inv := by
  by_cases hf : s.mode = .fault
  · rw [takeFault_stay c w s hf]
    exact hs
  · rw [takeFault_enter c w s hf]
    obtain ⟨h1, h2, -, -, h4, -⟩ := hs
    exact faulted_inv hc h1 h2 h4

/-- Settles O10: by cases on what the step did; what decodes is well formed, so a table of counts has its length. -/
theorem stepKeepsTheInvariant : Obligations.StepKeepsTheInvariant := by
  unfold Obligations.StepKeepsTheInvariant
  intro s t hs hstep
  rcases step_cases hstep with ⟨-, rfl⟩ | ⟨r, w, rest, -, rfl⟩ | ⟨i, rest, hd, he⟩
  · exact hs
  · exact takeFault_inv (by simp) (hs.setCmd rest)
  · exact exec_inv (hs.setCmd rest) (encodeOfDecode i s.cmd rest hd).1 he

/-- Settles O9: the capability values are legal, the store is empty and the engine idle. -/
theorem resetMeetsTheInvariant : Obligations.ResetMeetsTheInvariant := by
  unfold Obligations.ResetMeetsTheInvariant
  refine ⟨by decide, resetEngine_storeWf State.reset, by decide, State.coderWf_of_idle rfl rfl rfl⟩

end Sys2Proof.Machine

end

section

namespace Sys2Proof.Machine

/-! ## How a command that passes its checks ends -/

/-- A command that passes its mode check and then answers has the answer as its ending. -/
theorem finish_of_ok {p : Prop} [Decidable p] {c : Cause} {w₀ w : Word} {s t : State} {k : Unit → State → Res Word}
    (h : p) (hk : k () s = .ok w t) : ((check p c w₀ s).bind k).finish = .next (success w t) := by
  rw [check_pos h, Res.bind_ok, hk, Res.finish_ok]

theorem Res.bind_of_ok {α β : Type} {r : Res α} {k : α → State → Res β} {a : α} {s : State} (h : r = .ok a s) :
    r.bind k = k a s := by
  rw [h, Res.bind_ok]

/-! ## System commands and reset (44_system.md, 10_state.md R45) -/

/-- Settles O29: NOP is its response. -/
theorem nopOnlyAnswers : Obligations.NopOnlyAnswers := by
  unfold Obligations.NopOnlyAnswers
  exact fun s => rfl

/-- Settles O30: the free values are the witnesses of what R231 leaves without value. -/
theorem resetReturnsToIdle : Obligations.ResetReturnsToIdle := by
  unfold Obligations.ResetReturnsToIdle
  exact fun s => ⟨_, _, _, _, _, rfl⟩

/-- Settles O31: a register that exists is read, and one that does not takes the fault. -/
theorem rdCsrReadsTheTable : Obligations.RdCsrReadsTheTable := by
  unfold Obligations.RdCsrReadsTheTable
  intro s
  refine ⟨?_, ?_, ?_, ?_, ?_, ?_, ?_, fun c hc => ⟨fun hf => ?_, fun hf => ?_⟩⟩
  · rw [exec_rdCsr_of_readCsr (w := csrStatus s) rfl, csrStatus]
    cases s.mode <;> rfl
  · exact exec_rdCsr_of_readCsr rfl
  · exact exec_rdCsr_of_readCsr rfl
  · exact exec_rdCsr_of_readCsr rfl
  · exact exec_rdCsr_of_readCsr rfl
  · exact exec_rdCsr_of_readCsr rfl
  · exact exec_rdCsr_of_readCsr rfl
  · rw [exec_rdCsr_of_lt hc, takeFault_enter _ _ _ hf]
  · rw [exec_rdCsr_of_lt hc, takeFault_stay _ _ _ hf]
    rfl

/-- Settles O32: the valued entries of the reset table. -/
theorem resetStateFollowsTheTable : Obligations.ResetStateFollowsTheTable := by
  unfold Obligations.ResetStateFollowsTheTable
  exact ⟨rfl, rfl, rfl, rfl, rfl, rfl, fun _ => rfl, fun _ => rfl, fun _ => rfl⟩

/-! ## Opening and closing a session (40_encoder.md R121, 41_decoder.md R151, R155) -/

/-- Settles O33: ENC_INIT passes its mode check and writes. -/
theorem encInitOpensASession : Obligations.EncInitOpensASession := by
  unfold Obligations.EncInitOpensASession
  exact fun s hm => finish_of_ok hm rfl

/-- A byte shifted into the low end of a word is appended to what the word holds, while there is room. -/
theorem shiftIn_byte {n : Nat} (v : BitVec n) (b : Byte) (hn : n ≤ 24) :
    v.setWidth 32 <<< 8 ||| b.setWidth 32 = (v ++ b).setWidth 32 := by
  have hb := b.isLt
  have hv : v.toNat < 2 ^ 24 := Nat.lt_of_lt_of_le v.isLt (Nat.pow_le_pow_right (by omega) hn)
  apply BitVec.eq_of_toNat_eq
  rw [BitVec.toNat_or, shiftLeft8_toNat, BitVec.toNat_setWidth_of_le (by omega), BitVec.toNat_setWidth_of_le (by omega),
    BitVec.toNat_setWidth_of_le (by omega), BitVec.toNat_append, Nat.mod_eq_of_lt (by omega), Nat.shiftLeft_eq]

/-- Four bytes shifted into a word one after another are their concatenation (20_memory.md R66). -/
theorem shiftIn_four (b0 b1 b2 b3 : Byte) : shiftIn 0#32 [b0, b1, b2, b3] = b0 ++ b1 ++ b2 ++ b3 := by
  have h0 : 0#32 <<< 8 ||| b0.setWidth 32 = b0.setWidth 32 := BitVec.zero_or
  simp only [shiftIn, List.foldl_cons, List.foldl_nil, h0]
  rw [shiftIn_byte b0 b1 (by omega), shiftIn_byte (b0 ++ b1) b2 (by omega), shiftIn_byte (b0 ++ b1 ++ b2) b3 (by omega)]
  exact BitVec.setWidth_eq _

/-- Settles O39: priming reads the four bytes. -/
theorem decInitPrimes : Obligations.DecInitPrimes := by
  unfold Obligations.DecInitPrimes
  intro s b0 b1 b2 b3 rest hm hbin
  refine finish_of_ok hm ?_
  rcases primeBytes_spec PRIME_BYTES 0#32 (s.setLength (u32 AC_MAX_LENGTH)) with ⟨-, e⟩ | ⟨hlt, -⟩
  · rw [Res.bind_of_ok e, State.setLength_bin, hbin]
    simp only [PRIME_BYTES, List.take, List.drop, shiftIn_four]
    rfl
  · simp [hbin, PRIME_BYTES] at hlt
    omega

/-- Settles O44: the free values are the witnesses of what R155 leaves without value. -/
theorem decDoneClosesTheSession : Obligations.DecDoneClosesTheSession := by
  unfold Obligations.DecDoneClosesTheSession
  exact fun s hm => ⟨_, _, _, finish_of_ok hm rfl⟩

/-! ## Constructing models (42_models.md R171 to R178) -/

/-- Settles O48: BM_INIT passes its checks and writes the slot. -/
theorem bmInitMakesTheInitialModel : Obligations.BmInitMakesTheInitialModel := by
  unfold Obligations.BmInitMakesTheInitialModel
  exact fun s slot hf hslot => finish_of_ok hf (Res.bind_of_ok (check_pos hslot _ _ _))

theorem badCount_iff (c : Word) : badCount c = true ↔ c.toNat = 0 ∨ 32768 < c.toNat := by
  have hz : c = 0#32 ↔ c.toNat = 0 := BitVec.toNat_inj.symm
  rw [badCount, DM_MAX_COUNT, Bool.or_eq_true, beq_iff_eq, decide_eq_true_eq, hz]

theorem find?_badCount_eq_none {c : List Word} (h : ∀ y ∈ c, 1 ≤ y.toNat ∧ y.toNat ≤ 32768) : c.find? badCount = none := by
  refine List.find?_eq_none.mpr fun y hy => ?_
  have hy := h y hy
  rw [badCount_iff]
  omega

/-- Legal counts are as good as their sum (R175). -/
theorem checkBias_of_legal {c : List Word} (s : State) (h : ∀ y ∈ c, 1 ≤ y.toNat ∧ y.toNat ≤ 32768) :
    checkBias c s = check (sumCounts c ≤ DM_MAX_COUNT) .configError (u32 (sumCounts c)) s := by
  rw [checkBias, find?_badCount_eq_none h]

/-- The first bad count is the one reported (R175). -/
theorem checkBias_of_bad {good bad : List Word} {x : Word} (s : State) (h : ∀ y ∈ good, 1 ≤ y.toNat ∧ y.toNat ≤ 32768)
    (hx : x.toNat = 0 ∨ 32768 < x.toNat) : checkBias (good ++ x :: bad) s = .raise .configError x s := by
  have hfind : (good ++ x :: bad).find? badCount = some x := by
    rw [List.find?_append, find?_badCount_eq_none h, Option.none_or, List.find?_cons_of_pos ((badCount_iff x).mpr hx)]
  rw [checkBias, hfind]

theorem not_legalSymbolCount {n : Word} (h : n.toNat < 2 ∨ 2048 < n.toNat) : ¬legalSymbolCount n := by
  unfold legalSymbolCount SM_MIN_SYMBOLS SM_MAX_SYMBOLS
  omega

/-- SM_CREATE_B with its slot and symbol count in range raises what the check of its table raises. -/
theorem smCreateB_of_checkBias {s : State} {slot : BitVec 16} {n w : Word} {c : List Word} (hf : s.mode ≠ .fault)
    (hslot : slot.toNat < s.capNsm.toNat) (hn : legalSymbolCount n) (h : checkBias c s = .raise .configError w s) :
    exec (.smCreateB slot n c) s = .next (faulted .configError w s) :=
  finish_of_raise hf hf (Res.bind_raise_of_ok (check_pos hslot _ _ _)
    (Res.bind_raise_of_ok (check_pos hn _ _ _) (Res.bind_of_raise h)))

/-- Settles O24: the checks of SM_CREATE_B come in R175's order, each once the ones before it have passed. -/
theorem configErrorOfSymbolModels : Obligations.ConfigErrorOfSymbolModels := by
  unfold Obligations.ConfigErrorOfSymbolModels
  intro s slot hf hslot
  refine ⟨fun n hn => ?_, fun n good bad x h1 h2 hgood hx => ?_, fun n c h1 h2 hc hsum => ?_⟩
  · have hcheck := check_neg (not_legalSymbolCount hn) .configError n s
    exact ⟨finish_of_raise hf hf (Res.bind_raise_of_ok (check_pos hslot _ _ _) (Res.bind_of_raise hcheck)),
      fun _ => finish_of_raise hf hf (Res.bind_raise_of_ok (check_pos hslot _ _ _) (Res.bind_of_raise hcheck))⟩
  · exact smCreateB_of_checkBias hf hslot ⟨h1, h2⟩ (checkBias_of_bad s hgood hx)
  · refine smCreateB_of_checkBias hf hslot ⟨h1, h2⟩ ?_
    rw [checkBias_of_legal s hc]
    exact check_neg (Nat.not_le.mpr hsum) _ _ _

/-- Settles O49: each constructor passes its checks and writes the model its counts make. -/
theorem symbolModelsAreConstructed : Obligations.SymbolModelsAreConstructed := by
  unfold Obligations.SymbolModelsAreConstructed
  intro s slot hf hslot
  refine ⟨fun n h1 h2 => ?_, fun n c h1 h2 hlen hc hsum => ?_, fun m hget _ h2 => ?_⟩
  · have hn : legalSymbolCount n := ⟨h1, h2⟩
    refine ⟨_, smUniform_uniform n.toNat h2, finish_of_ok hf ?_⟩
    rw [Res.bind_of_ok (check_pos hslot _ _ _), Res.bind_of_ok (check_pos hn _ _ _)]
    rfl
  · have hn : legalSymbolCount n := ⟨h1, h2⟩
    refine ⟨_, smInit_fresh n.toNat c h2 hlen hsum, finish_of_ok hf ?_⟩
    have hbias : checkBias c s = .ok () s := (checkBias_of_legal s hc).trans (check_pos hsum _ _ _)
    rw [Res.bind_of_ok (check_pos hslot _ _ _), Res.bind_of_ok (check_pos hn _ _ _), Res.bind_of_ok hbias]
    rfl
  · refine ⟨_, smUniform_uniform m.nsym h2, finish_of_ok hf ?_⟩
    rw [Res.bind_of_ok (useSm_ok slot s m hslot hget)]
    rfl

/-! ## Configuring and initialising units (43_integer_compressor.md R201, R202, R205) -/

/-- The mask of the geometry word's reserved bits picks out its three fields of reserved bits (R201). -/
theorem geometryReserved_eq_zero_iff (g : Word) :
    geometryReserved g = 0#32 ↔ g.extractLsb' 6 2 = 0#2 ∧ g.extractLsb' 14 2 = 0#2 ∧ g.extractLsb' 22 10 = 0#10 := by
  have field : ∀ k n, (geometryReserved g).extractLsb' k n = g.extractLsb' k n &&& (0xFFC0C0C0#32).extractLsb' k n :=
    fun k n => BitVec.extractLsb'_and
  have h2 : (geometryReserved g).extractLsb' 6 2 = g.extractLsb' 6 2 := (field 6 2).trans BitVec.and_allOnes
  have h4 : (geometryReserved g).extractLsb' 14 2 = g.extractLsb' 14 2 := (field 14 2).trans BitVec.and_allOnes
  have h6 : (geometryReserved g).extractLsb' 22 10 = g.extractLsb' 22 10 := (field 22 10).trans BitVec.and_allOnes
  have h1 : (geometryReserved g).extractLsb' 0 6 = 0#6 := (field 0 6).trans BitVec.and_zero
  have h3 : (geometryReserved g).extractLsb' 8 6 = 0#6 := (field 8 6).trans BitVec.and_zero
  have h5 : (geometryReserved g).extractLsb' 16 6 = 0#6 := (field 16 6).trans BitVec.and_zero
  rw [← h2, ← h4, ← h6]
  have hlt := (geometryReserved g).isLt
  generalize geometryReserved g = v at *
  simp only [← BitVec.toNat_inj, BitVec.extractLsb'_toNat, Nat.shiftRight_eq_div_pow, BitVec.toNat_ofNat] at *
  omega

/-- IC_CONFIG with its unit in range raises what the checks of its geometry raise. -/
theorem icConfig_of_checkGeometry {s : State} {unit : BitVec 8} {g c w : Word} (hf : s.mode ≠ .fault)
    (hunit : unit.toNat < s.capNic.toNat) (h : checkGeometry g c s = .raise .configError w s) :
    exec (.icConfig unit g c) s = .next (faulted .configError w s) :=
  finish_of_raise hf hf (Res.bind_raise_of_ok (check_pos hunit _ _ _) (Res.bind_of_raise h))

/-- Settles O25: the six checks are made in R201's order, each once the ones before it have passed. -/
theorem configErrorOfUnits : Obligations.ConfigErrorOfUnits := by
  unfold Obligations.ConfigErrorOfUnits
  intro s unit g c hf hunit bits high bins zero okBits okHigh okBins okCount
  have hz : zero ↔ geometryReserved g = 0#32 := (geometryReserved_eq_zero_iff g).symm
  rw [hz]
  refine ⟨fun h1 => ?_, fun ⟨h1, h2⟩ => ?_, fun ⟨h1, h2, h3⟩ => ?_, fun ⟨h1, h2, h3, h4⟩ => ?_,
    fun ⟨h1, h2, h3, h4, h5⟩ => ?_, fun ⟨h1, h2, h3, h4, h5, h6⟩ => ?_⟩
  all_goals refine icConfig_of_checkGeometry hf hunit ?_
  · exact Res.bind_of_raise (check_neg h1 _ _ _)
  · exact Res.bind_raise_of_ok (check_pos h1 _ _ _) (Res.bind_of_raise (check_neg h2 _ _ _))
  · exact Res.bind_raise_of_ok (check_pos h1 _ _ _) (Res.bind_raise_of_ok (check_pos h2 _ _ _)
      (Res.bind_of_raise (check_neg h3 _ _ _)))
  · exact Res.bind_raise_of_ok (check_pos h1 _ _ _) (Res.bind_raise_of_ok (check_pos h2 _ _ _)
      (Res.bind_raise_of_ok (check_pos h3 _ _ _) (Res.bind_of_raise (check_neg h4 _ _ _))))
  · exact Res.bind_raise_of_ok (check_pos h1 _ _ _) (Res.bind_raise_of_ok (check_pos h2 _ _ _)
      (Res.bind_raise_of_ok (check_pos h3 _ _ _) (Res.bind_raise_of_ok (check_pos h4 _ _ _)
        (Res.bind_of_raise (check_neg h5 _ _ _)))))
  · exact Res.bind_raise_of_ok (check_pos h1 _ _ _) (Res.bind_raise_of_ok (check_pos h2 _ _ _)
      (Res.bind_raise_of_ok (check_pos h3 _ _ _) (Res.bind_raise_of_ok (check_pos h4 _ _ _)
        (Res.bind_raise_of_ok (check_pos h5 _ _ _) (check_neg h6.not_ge _ _ _)))))

/-- The geometry word of three fields, each below 2^6, has no reserved bit set, and its fields are read back (R201). -/
theorem geometry_ofNat {bits high bins : Nat} (h1 : bits < 2 ^ 6) (h2 : high < 2 ^ 6) (h3 : bins < 2 ^ 6) :
    geometryReserved (BitVec.ofNat 32 (bits + 2 ^ 8 * high + 2 ^ 16 * bins)) = 0#32 ∧
    geometryBits (BitVec.ofNat 32 (bits + 2 ^ 8 * high + 2 ^ 16 * bins)) = bits ∧
    geometryBitsHigh (BitVec.ofNat 32 (bits + 2 ^ 8 * high + 2 ^ 16 * bins)) = high ∧
    geometryBins (BitVec.ofNat 32 (bits + 2 ^ 8 * high + 2 ^ 16 * bins)) = bins := by
  rw [geometryReserved_eq_zero_iff]
  simp only [geometryBits, geometryBitsHigh, geometryBins, ← BitVec.toNat_inj, BitVec.extractLsb'_toNat,
    Nat.shiftRight_eq_div_pow, BitVec.toNat_ofNat]
  omega

/-- The derived fields of a legal unit, with BITS = 32 and below alike (10_state.md R41). -/
theorem IcUnit.legal.derived {u : IcUnit} (h : u.legal) : u.corrBits = u.bits ∧ u.corrRange.toNat = 2 ^ u.bits % 2 ^ 32 ∧
    u.corrMin.toInt = -(2 ^ (u.bits - 1)) ∧ u.corrMax.toInt = 2 ^ (u.bits - 1) - 1 := by
  obtain ⟨h1, h2, -⟩ := id h
  rcases Nat.lt_or_ge u.bits 32 with hb | hb
  · obtain ⟨f1, f2, f3⟩ := h.fields hb
    rw [Nat.mod_eq_of_lt (Nat.pow_lt_pow_right (by omega) hb)]
    exact ⟨h.corr, f1, f2, f3⟩
  · have hb32 : u.bits = 32 := by omega
    obtain ⟨f1, f2, f3⟩ := h.fields32 hb32
    rw [hb32]
    exact ⟨h.corr.trans hb32, f1, f2, f3⟩

/-- Settles O50: the six checks pass and the unit is the one of its geometry. -/
theorem icConfigSetsTheGeometry : Obligations.IcConfigSetsTheGeometry := by
  unfold Obligations.IcConfigSetsTheGeometry
  intro s unit bits high bins c hf hunit b1 b2 h1 h2 n1 n2 c1 c2 hbank
  obtain ⟨g1, g2, g3, g4⟩ := geometry_ofNat (bits := bits) (high := high) (bins := bins) (by omega) (by omega) (by omega)
  generalize BitVec.ofNat 32 (bits + 2 ^ 8 * high + 2 ^ 16 * bins) = g at *
  obtain ⟨d1, d2, d3, d4⟩ := (configuredUnit_legal bits high bins c.toNat ⟨b1, b2⟩ ⟨h1, h2⟩ ⟨n1, n2⟩ ⟨c1, c2⟩).derived
  refine ⟨configuredUnit bits high bins c.toNat, rfl, rfl, rfl, rfl, d1, d2, d3, d4, rfl, finish_of_ok hf ?_⟩
  have hcheck : checkGeometry g c s = .ok () s := by
    rw [checkGeometry, Res.bind_of_ok (check_pos g1 _ _ _), g2, Res.bind_of_ok (check_pos ⟨b1, b2⟩ _ _ _), g3,
      Res.bind_of_ok (check_pos ⟨h1, h2⟩ _ _ _), g4, Res.bind_of_ok (check_pos ⟨n1, n2⟩ _ _ _),
      Res.bind_of_ok (check_pos ⟨c1, c2⟩ _ _ _), check_pos hbank]
  rw [Res.bind_of_ok (check_pos hunit _ _ _), Res.bind_of_ok hcheck, g2, g3, g4]
  rfl

/-- Settles O51: IC_INIT writes the initial adaptive state, whose models are uniform. -/
theorem icInitMakesTheInitialState : Obligations.IcInitMakesTheInitialState := by
  unfold Obligations.IcInitMakesTheInitialState
  intro s unit u hs hf hunit hget
  obtain ⟨⟨hl, -⟩, -⟩ := hs.ic_wf hget
  have hcorr := hl.corr
  obtain ⟨-, hbits, hhigh1, hhigh2, -⟩ := hl
  refine ⟨initialAdaptive u, rfl, rfl, List.length_replicate, fun row hrow => ?_, rfl, ?_, fun i m hm => ?_, finish_of_ok hf ?_⟩
  · rw [List.eq_of_mem_replicate hrow]
    refine ⟨List.length_replicate, fun m hm => ?_⟩
    rw [List.eq_of_mem_replicate hm]
    exact smUniform_uniform _ (by omega)
  · simp [initialAdaptive]
  · obtain ⟨j, hj, rfl⟩ : ∃ j, (List.range u.corrBits)[i]? = some j ∧ smUniform (2 ^ min (j + 1) u.bitsHigh) = m := by
      simpa [initialAdaptive, List.getElem?_map] using hm
    obtain ⟨-, rfl⟩ := List.getElem?_eq_some_iff.mp hj
    rw [List.getElem_range]
    exact smUniform_uniform _ (two_pow_min_bounds i u.bitsHigh hhigh1 hhigh2).2
  · rw [Res.bind_of_ok (useIc_ok unit s u hunit hget)]
    rfl

/-- Settles O56: IC_GETK reads K of the unit. -/
theorem icGetKReadsTheClass : Obligations.IcGetKReadsTheClass := by
  unfold Obligations.IcGetKReadsTheClass
  intro s unit u a hf hunit hget ha
  exact finish_of_ok hf (Res.bind_of_ok (useIcInited_ok unit s u a hunit hget ha))

end Sys2Proof.Machine

end

section

namespace Sys2Proof.Machine

/-! ## Encoder commands (40_encoder.md R122 to R125) -/

/-- With room in the run counter for a procedure's bytes it does not find the counter full. -/
theorem EncFull.not_of_room {n : Nat} {s t : State} (hroom : s.ffrun.toNat + n < 2 ^ 32) : ¬EncFull n s t :=
  fun ⟨_, _, hfull⟩ => hfull.not_gt hroom

theorem codeBit_narrows (m : BitModel) (hm : m.wf) (bit : BitVec 1) {s : State} (hs : EncReady s)
    (hroom : s.ffrun.toNat + 3 < 2 ^ 32) :
    ∃ t, codeBit m bit s = .ok (bmObserve bit m) t ∧ EncRun 3 s t ∧
      Narrowed (bitPart m bit s.length.toNat).1 (bitPart m bit s.length.toNat).2 s t := by
  rcases codeBit_spec m hm bit s hs with ⟨t, e, r, d⟩ | ⟨t, -, f⟩
  · exact ⟨t, e, r, d.1⟩
  · exact absurd f (EncFull.not_of_room hroom)

theorem codeSym_narrows (m : SymModel) (hm : m.wf) {y : Nat} (hy : y < m.nsym) {s : State} (hs : EncReady s)
    (hroom : s.ffrun.toNat + 3 < 2 ^ 32) :
    ∃ t, codeSym m y s = .ok (smObserve y m) t ∧ EncRun 3 s t ∧
      Narrowed (symLow m y s.length.toNat) (symHigh m y s.length.toNat - symLow m y s.length.toNat) s t := by
  rcases codeSym_spec m hm y hy s hs with ⟨t, e, r, d⟩ | ⟨t, -, f⟩
  · exact ⟨t, e, r, d.1⟩
  · exact absurd f (EncFull.not_of_room hroom)

theorem encDirect_narrows {n v : Nat} {s : State} (hs : EncReady s) (hroom : s.ffrun.toNat + 6 < 2 ^ 32) (hn : n ≤ 32)
    (hv : v < 2 ^ n) : ∃ t, encDirect n v s = .ok () t ∧ EncFrame s t ∧ NarrowedDirect n v s t := by
  obtain ⟨hstage, hcarry, hlen⟩ := hs
  rcases encDirect_spec n v s hstage hcarry hlen hn hv with ⟨t, e, -, -, -, hf, -, hone, htwo⟩ | ⟨t, -, f⟩
  · refine ⟨t, e, hf, ?_⟩
    unfold NarrowedDirect
    split
    case isTrue h => exact (hone h).1
    case isFalse h =>
      obtain ⟨u, d1, d2⟩ := htwo (by omega)
      rw [Nat.shiftRight_eq_div_pow v] at d2
      exact ⟨u, d1.1, d2.1⟩
  · exact absurd f (EncFull.not_of_room hroom)

/-- The room of a whole command is room for each of its procedures. -/
theorem State.runRoom.le {s : State} (h : s.runRoom) {n : Nat} (hn : n ≤ 16) : s.ffrun.toNat + n < 2 ^ 32 :=
  Nat.lt_of_le_of_lt (Nat.add_le_add_left hn _) h

/-- ENC_BIT on a valid slot, with the model it leaves by name (R122). -/
theorem exec_encBit {s : State} (bit : BitVec 1) {slot : BitVec 16} {m : BitModel} (hs : s.Inv) (hroom : s.runRoom)
    (hm : s.mode = .enc) (hslot : slot.toNat < s.capNbm.toNat) (hget : s.bm.get slot.toNat = some m) :
    ∃ t, Narrowed (bitPart m bit s.length.toNat).1 (bitPart m bit s.length.toNat).2 s t ∧
      exec (.encBit bit slot) s = .next (success 0#32 { t with bm := s.bm.put slot.toNat (bmObserve bit m) }) := by
  obtain ⟨t, e, hr, hn⟩ := codeBit_narrows m (hs.bm_wf hget) bit (hs.encReady hm) (State.runRoom.le hroom (by omega))
  refine ⟨t, hn, finish_of_ok hm ?_⟩
  rw [Res.bind_of_ok (useBm_ok slot s m hslot hget), Res.bind_of_ok e, putBm, hr.1.coderFrame.bm]
  rfl

/-- Settles O34: the slot's model gives the part, and what the coder leaves is put back in the slot. -/
theorem encBitNarrowsAndObserves : Obligations.EncBitNarrowsAndObserves := by
  unfold Obligations.EncBitNarrowsAndObserves
  intro s bit slot m hs hroom hm hslot hget
  obtain ⟨t, hn, he⟩ := exec_encBit bit hs hroom hm hslot hget
  exact ⟨t, bmObserve bit m, bmObserve_observed bit m (hs.bm_wf hget), hn, he⟩

/-- ENC_SYM on a valid slot, with the model it leaves by name (R123). -/
theorem exec_encSym {s : State} {slot : BitVec 16} {y : Word} {m : SymModel} (hs : s.Inv) (hroom : s.runRoom)
    (hm : s.mode = .enc) (hslot : slot.toNat < s.capNsm.toNat) (hget : s.sm.get slot.toNat = some m)
    (hy : y.toNat < m.nsym) :
    ∃ t, Narrowed (symLow m y.toNat s.length.toNat) (symHigh m y.toNat s.length.toNat - symLow m y.toNat s.length.toNat) s t ∧
      exec (.encSym slot y) s = .next (success 0#32 { t with sm := s.sm.put slot.toNat (smObserve y.toNat m) }) := by
  obtain ⟨t, e, hr, hn⟩ := codeSym_narrows m (hs.sm_wf hget) hy (hs.encReady hm) (State.runRoom.le hroom (by omega))
  refine ⟨t, hn, finish_of_ok hm ?_⟩
  rw [Res.bind_of_ok (useSm_ok slot s m hslot hget), Res.bind_of_ok (check_pos hy _ _ _), Res.bind_of_ok e, putSm,
    hr.1.coderFrame.sm]
  rfl

/-- Settles O35: the same with the symbol's part. -/
theorem encSymNarrowsAndObserves : Obligations.EncSymNarrowsAndObserves := by
  unfold Obligations.EncSymNarrowsAndObserves
  intro s slot y m hs hroom hm hslot hget hy
  obtain ⟨t, hn, he⟩ := exec_encSym hs hroom hm hslot hget hy
  exact ⟨t, smObserve y.toNat m, smObserve_observed y.toNat m (hs.sm_wf hget) hy, hn, he⟩

/-- Settles O36: the value passes both operand checks and is coded by its digits. -/
theorem encBitsNarrowsByDigits : Obligations.EncBitsNarrowsByDigits := by
  unfold Obligations.EncBitsNarrowsByDigits
  intro s n v hs hroom hm h1 h2 hv
  obtain ⟨t, e, -, hn⟩ := encDirect_narrows (hs.encReady hm) (State.runRoom.le hroom (by omega)) h2 hv
  have hlegal : legalBitCount n := ⟨h1, h2⟩
  have hfits : fitsBits n v := .inr hv
  refine ⟨t, hn, finish_of_ok hm ?_⟩
  rw [Res.bind_of_ok (check_pos hlegal _ _ _), Res.bind_of_ok (check_pos hfits _ _ _), Res.bind_of_ok e]

/-- ENC_DONE flushes the interval, then the stage, and closes the session (R125). -/
theorem exec_encDone {s t : State} (hm : s.mode = .enc) (h : flushInterval s = .ok () t) :
    exec .encDone s = .next (success 0#32 (closeEncoder (flushStage t))) :=
  finish_of_ok hm (Res.bind_of_ok h)

/-- Settles O37: the flush produces four bytes and FlushStage commits them all. -/
theorem encDoneFlushes : Obligations.EncDoneFlushes := by
  unfold Obligations.EncDoneFlushes
  intro s hs hroom hm
  obtain ⟨t, e, hf, hlen, hwide, hnarrow⟩ := flushInterval_spec s (hs.encReady hm) (State.runRoom.le hroom (by omega))
  obtain ⟨hout, hempty, hrun, -, -, hflush⟩ := flushStage_spec t
  have hframe := hf.trans hflush
  have hbout : (success 0#32 (closeEncoder (flushStage t))).bout = t.produced := hout
  refine ⟨_, exec_encDone hm e, ?_, ?_, ?_, ?_, ?_⟩
  · rw [hbout, hlen]
  · exact hframe.1
  · rwa [hbout]
  · rwa [hbout]
  · have h := hframe.2
    rw [hempty, hrun] at h
    rw [h]
    rfl

/-- Settles O38: clearing low bits of the low end plus the offset leaves a point above the low end and within LENGTH. -/
theorem encDoneNamesAPointOfTheInterval : Obligations.EncDoneNamesAPointOfTheInterval := by
  unfold Obligations.EncDoneNamesAPointOfTheInterval
  intro s t hs hroom hm he
  obtain ⟨t', he', -, -, hwide, hnarrow, -⟩ := encDoneFlushes s hs hroom hm
  obtain rfl : t' = t := by simpa [he'] using he
  have hlen : 2 ^ 24 ≤ s.length.toNat := (hs.encReady hm).2.2
  rcases Nat.lt_or_ge (2 ^ 25) s.length.toNat with h | h
  · rw [hwide h]
    omega
  · rw [hnarrow h]
    omega

end Sys2Proof.Machine

end

section

namespace Sys2Proof.Machine

/-! ## Decoder commands (41_decoder.md R152 to R154) -/

/-- DEC_BIT on a valid slot with bytes enough, with the model it leaves by name (R152). -/
theorem exec_decBit {s : State} {slot : BitVec 16} {m : BitModel} (hs : s.Inv) (hm : s.mode = .dec)
    (hslot : slot.toNat < s.capNbm.toNat) (hget : s.bm.get slot.toNat = some m) (hbytes : s.hasBit m (foundBit m s)) :
    exec (.decBit slot) s = .next (success ((foundBit m s).setWidth 32)
      { consumeBit m (foundBit m s) s with bm := s.bm.put slot.toNat (bmObserve (foundBit m s) m) }) := by
  refine finish_of_ok hm ?_
  rw [Res.bind_of_ok (useBm_ok slot s m hslot hget), Res.bind_of_ok (readBit_ok m (hs.bm_wf hget) s (hs.decReady hm) hbytes)]
  rfl

/-- Settles O40: the bit of the statement is the one the command finds. -/
theorem decBitFindsTheBit : Obligations.DecBitFindsTheBit := by
  unfold Obligations.DecBitFindsTheBit
  intro s slot m hs hm hslot hget bit hbytes
  exact ⟨bmObserve bit m, bmObserve_observed bit m (hs.bm_wf hget), exec_decBit hs hm hslot hget hbytes⟩

/-- DEC_SYM on a valid slot with bytes enough, with the model it leaves by name (R153). -/
theorem exec_decSym {s : State} {slot : BitVec 16} {m : SymModel} {y : Nat} (hs : s.Inv) (hm : s.mode = .dec)
    (hslot : slot.toNat < s.capNsm.toNat) (hget : s.sm.get slot.toNat = some m) (hy : s.hasSym m y) :
    exec (.decSym slot) s = .next (success (u32 y)
      { consumeSym m y s with sm := s.sm.put slot.toNat (smObserve y m) }) := by
  refine finish_of_ok hm ?_
  rw [Res.bind_of_ok (useSm_ok slot s m hslot hget), Res.bind_of_ok (readSym_ok m (hs.sm_wf hget) s (hs.decReady hm) y hy)]
  rfl

/-- Settles O41: the search finds the symbol whose part holds VALUE. -/
theorem decSymFindsTheSymbol : Obligations.DecSymFindsTheSymbol := by
  unfold Obligations.DecSymFindsTheSymbol
  intro s slot m y hs hm hslot hget hy
  exact ⟨smObserve y m, smObserve_observed y m (hs.sm_wf hget) hy.1, exec_decSym hs hm hslot hget hy⟩

/-- A command that ends outside FAULT mode has succeeded, with the result it answered. -/
theorem succeeds_of_answer {i : Instr} {s t : State} {w : Word} (hs : s.Inv) (he : exec i s = .next t)
    (hf : t.mode ≠ .fault) (hrsp : t.rsp = s.rsp ++ [⟨0#8, w⟩]) : ∃ v, Succeeds i s w v := by
  rcases exec_cases hs he with ⟨w', v, rfl, hw, hv⟩ | ⟨c, w', v, rfl, -⟩
  · obtain rfl : w' = w := by
      rw [success, hv.rsp] at hrsp
      simpa using hrsp
    exact ⟨v, hw⟩
  · exact absurd (takeFault_mode c w' v) hf

/-- Settles O42: the search never leaves the alphabet, and a symbol fits a word. -/
theorem decSymAnswersALegalSymbol : Obligations.DecSymAnswersALegalSymbol := by
  unfold Obligations.DecSymAnswersALegalSymbol
  intro s t slot m w hs _ hget he htm hrsp
  obtain ⟨v, -, m', -, y, -, hget', hy, hw, -⟩ := succeeds_of_answer hs he (mode_ne_fault_of_dec htm) hrsp
  obtain rfl : m' = m := by simpa [hget] using hget'.symm
  obtain ⟨-, hmax, -⟩ := hs.sm_wf hget
  rwa [hw, u32_toNat_of_lt (by omega)]

/-- The digits of `n` direct bits make a number of `n` bits (R154). -/
theorem State.hasDirect.lt {s : State} {n v : Nat} (h : s.hasDirect n v) : v < 2 ^ n := by
  rcases Nat.lt_or_ge 19 n with hn | hn
  · obtain ⟨-, -, hhi, -⟩ := h.2 hn
    rw [Nat.div_lt_iff_lt_mul (by positivity), ← Nat.pow_add, Nat.sub_add_cancel (by omega)] at hhi
    exact hhi
  · exact (h.1 hn).2.1

/-- Settles O43: each digit is in range and has its bytes. -/
theorem decBitsReadsTheDigits : Obligations.DecBitsReadsTheDigits := by
  unfold Obligations.DecBitsReadsTheDigits
  intro s n v hs hm h1 h2 hv
  have hlegal : legalBitCount n := ⟨h1, h2⟩
  refine ⟨hv.lt, finish_of_ok hm ?_⟩
  rw [Res.bind_of_ok (check_pos hlegal _ _ _), Res.bind_of_ok (decDirect_ok n.toNat v s (hs.decReady hm) h2 hv)]
  rfl

/-! ## The two sides mirror each other (41_decoder.md R159) -/

/-- The width an encoder step leaves is the one `consume` leaves on the decoder's side. -/
theorem Narrowed.length_eq {x l : Nat} {s t : State} (h : Narrowed x l s t) : u32 (l * 256 ^ renormCount l) = t.length := by
  obtain ⟨-, -, hlen, -⟩ := h
  rw [← hlen, u32_toNat]

/-- The bit DEC_BIT finds is the one whose part VALUE lies in. -/
theorem foundBit_eq {m : BitModel} {bit : BitVec 1} {d : State}
    (h1 : (bitPart m bit d.length.toNat).1 ≤ d.value.toNat)
    (h2 : d.value.toNat < (bitPart m bit d.length.toNat).1 + (bitPart m bit d.length.toNat).2) : foundBit m d = bit := by
  unfold foundBit
  unfold bitPart at h1 h2
  by_cases hbit : bit = 0#1
  · rw [if_pos hbit] at h1 h2
    rw [hbit, if_neg (by omega)]
  · rw [if_neg hbit] at h1 h2
    rw [if_pos h1]
    exact ((BitVec.eq_zero_or_eq_one bit).resolve_left hbit).symm

/-- Settles O45: the bit found is the bit coded, so both steps go to the same part and the same model. -/
theorem decBitMirrorsEncBit : Obligations.DecBitMirrorsEncBit := by
  unfold Obligations.DecBitMirrorsEncBit
  intro s d bit slot m hs hd hroom hsm hdm hsl hdl hsget hdget hlen h1 h2 hbytes
  rw [← hlen] at h1 h2
  obtain rfl := foundBit_eq h1 h2
  obtain ⟨t, hn, he⟩ := exec_encBit (foundBit m d) hs hroom hsm hsl hsget
  rw [← hlen] at hn
  have hwidth := Narrowed.length_eq hn
  refine ⟨_, _, he, exec_decBit hd hdm hdl hdget hbytes, rfl, hwidth, ?_⟩
  exact (Store.get_put_self _ _ _).trans (Store.get_put_self _ _ _).symm

/-- Settles O46: the same of the symbol found. -/
theorem decSymMirrorsEncSym : Obligations.DecSymMirrorsEncSym := by
  unfold Obligations.DecSymMirrorsEncSym
  intro s d y slot m hs hd hroom hsm hdm hsl hdl hsget hdget hlen hy h1 h2 hbytes
  obtain ⟨t, hn, he⟩ := exec_encSym hs hroom hsm hsl hsget hy
  rw [← hlen] at h1 h2 hbytes hn
  have hsym : d.hasSym m y.toNat := ⟨hy, h1, .inr h2, hbytes⟩
  have hwidth := Narrowed.length_eq hn
  refine ⟨_, _, he, exec_decSym hd hdm hdl hdget hsym, ?_, hwidth, ?_⟩
  · rw [u32_toNat]
    rfl
  · exact (Store.get_put_self _ _ _).trans (Store.get_put_self _ _ _).symm

/-- Settles O47: VALUE divided by the digit's width is the digit, and both sides leave that width. -/
theorem decBitsMirrorsEncBits : Obligations.DecBitsMirrorsEncBits := by
  unfold Obligations.DecBitsMirrorsEncBits
  intro s d n v hs hd hroom hsm hdm hlen h1 h2 hv hlow hhigh hbytes
  obtain ⟨t, hn, he⟩ := encBitsNarrowsByDigits s n v hs hroom hsm h1 (by omega) hv
  unfold NarrowedDirect at hn
  rw [if_pos h2] at hn
  rw [← hlen] at hlow hhigh hbytes hn
  have hdigit : d.hasDigit n.toNat v.toNat := ⟨(Nat.div_eq_of_lt_le hlow hhigh).symm, hv, hbytes⟩
  obtain ⟨-, hu⟩ := decBitsReadsTheDigits d n v.toNat hd hdm h1 (by omega) ⟨fun _ => hdigit, fun h => by omega⟩
  unfold consumeDirect at hu
  rw [if_pos h2] at hu
  have hwidth := Narrowed.length_eq hn
  exact ⟨_, _, he, hu, by rw [BitVec.ofNat_toNat, BitVec.setWidth_eq]; rfl, hwidth⟩

end Sys2Proof.Machine

end

section

namespace Sys2Proof.Machine

/-! ## Residuals in numbers (43_integer_compressor.md R203, R204, R206, R210) -/

theorem bitlen_of_mem {v n : Nat} (h1 : 2 ^ n ≤ v) (h2 : v < 2 ^ (n + 1)) : bitlen v = n + 1 := by
  have hle := (bitlen_le_iff v (n + 1)).mpr h2
  have hgt := (bitlen_le_iff v n).not.mpr (Nat.not_lt.mpr h1)
  omega

/-- Settles O57: the bin is the bit length of the quarter, and 0 is a bin. -/
theorem historyBinIsTheCappedBitLength : Obligations.HistoryBinIsTheCappedBitLength := by
  unfold Obligations.HistoryBinIsTheCappedBitLength
  intro u e n _
  have hq : historyBin u e = min (u.bins - 1) (bitlen (e.toNat / 4)) := by
    rw [historyBin, IC_DECAY_SHIFT, Nat.shiftRight_eq_div_pow]
  refine ⟨fun h => ?_, fun h1 h2 => ?_⟩
  · rw [hq, h]
    exact Nat.min_zero _
  · rw [hq, bitlen_of_mem h1 h2]

/-- The magnitude of a wrapped residual, whose bit length is the class, is below 2^BITS (R203). -/
theorem classMagnitude_lt {bits : Nat} {corr : Int} (h1 : -(2 ^ 31) ≤ corr) (h2 : corr < 2 ^ 31)
    (hlo : -(2 ^ bits) < corr) (hhi : corr ≤ 2 ^ bits) : classMagnitude corr < 2 ^ bits := by
  obtain ⟨hneg, hpos⟩ := classMagnitude_eq corr h1 h2
  rw [int_two_pow] at hlo hhi
  have hone : 1 ≤ 2 ^ bits := Nat.one_le_two_pow
  by_cases h : corr ≤ 0
  · have := hneg h
    omega
  · have := hpos (by omega)
    omega

/-- The difference of two words as a signed number, up to a wrap. -/
theorem toInt_sub_wraps (p r : Word) : -(2 ^ 31) ≤ (r - p).toInt ∧ (r - p).toInt < 2 ^ 31 ∧
    ∃ k : Int, (k = -1 ∨ k = 0 ∨ k = 1) ∧ (r - p).toInt = r.toNat - p.toNat + 2 ^ 32 * k := by
  obtain ⟨hlo, hhi⟩ := asI32_range (r - p)
  have hmod := asI32_mod (r - p)
  have hp := p.isLt
  have hr := r.isLt
  rw [BitVec.toNat_sub] at hmod
  change -(2 ^ 31) ≤ (r - p).toInt at hlo
  change (r - p).toInt < 2 ^ 31 at hhi
  change (r - p).toInt % 2 ^ 32 = _ at hmod
  refine ⟨hlo, hhi, ((r - p).toInt - (r.toNat - p.toNat)) / 2 ^ 32, ?_, ?_⟩ <;> omega

/-- The sum of a word and a number as a signed number, up to a wrap. -/
theorem toInt_add_wraps (p : Word) (corr : Int) : -(2 ^ 31) ≤ (p + BitVec.ofInt 32 corr).toInt ∧
    (p + BitVec.ofInt 32 corr).toInt < 2 ^ 31 ∧
    ∃ k : Int, (p + BitVec.ofInt 32 corr).toInt = p.toNat + corr + 2 ^ 32 * k := by
  obtain ⟨hlo, hhi⟩ := asI32_range (p + BitVec.ofInt 32 corr)
  have hmod := asI32_mod (p + BitVec.ofInt 32 corr)
  rw [BitVec.toNat_add, BitVec.toNat_ofInt] at hmod
  change (p + BitVec.ofInt 32 corr).toInt % 2 ^ 32 = _ at hmod
  refine ⟨hlo, hhi, ((p + BitVec.ofInt 32 corr).toInt - (p.toNat + corr)) / 2 ^ 32, ?_⟩
  omega

/-- A half and a whole of the range of `bits` bits: 2^32 or 2^31 itself, or at most 2^30. -/
theorem range_cases {bits : Nat} (h1 : 1 ≤ bits) (h2 : bits ≤ 32) :
    2 ^ bits = 2 * 2 ^ (bits - 1) ∧ (2 ^ bits = 2 ^ 32 ∨ 2 ^ bits = 2 ^ 31 ∨ 2 ^ bits ≤ 2 ^ 30) := by
  refine ⟨two_pow_pred bits h1, ?_⟩
  obtain rfl | rfl | h : bits = 32 ∨ bits = 31 ∨ bits ≤ 30 := by omega
  · exact .inl rfl
  · exact .inr (.inl rfl)
  · exact .inr (.inr (Nat.pow_le_pow_right (by omega) h))

section Range

variable {bits : Nat} (h1 : 1 ≤ bits) (h2 : bits ≤ 32) {p r : Word} (hp : p.toNat < 2 ^ bits)

include h1 h2 hp

/-- The residual of two values of the unit's range is in the range R203 gives, and is their difference but for one 2^BITS. -/
theorem wrappedResidual_spec (hr : r.toNat < 2 ^ bits) :
    -(2 ^ (bits - 1)) ≤ wrappedResidual bits p r ∧ wrappedResidual bits p r < 2 ^ (bits - 1) ∧
    (wrappedResidual bits p r = r.toNat - p.toNat ∨ wrappedResidual bits p r = r.toNat - p.toNat + 2 ^ bits ∨
      wrappedResidual bits p r = r.toNat - p.toNat - 2 ^ bits) := by
  obtain ⟨hlo, hhi, k, hk, hd⟩ := toInt_sub_wraps p r
  obtain ⟨hpow, hcases⟩ := range_cases h1 h2
  unfold wrappedResidual
  rw [int_two_pow, int_two_pow]
  generalize (r - p).toInt = d at *
  generalize 2 ^ bits = R at *
  generalize 2 ^ (bits - 1) = H at *
  subst hpow
  dsimp only
  rcases hk with rfl | rfl | rfl <;> split_ifs <;> omega

/-- Whatever the residual of a class the unit has, the restored value is in range (R204). -/
theorem unwrapped_lt {corr : Int} (hc : corr.natAbs ≤ 2 ^ bits) : (unwrapped bits p corr).toNat < 2 ^ bits := by
  obtain ⟨hlo, hhi, k, hk⟩ := toInt_add_wraps p corr
  obtain ⟨-, hcases⟩ := range_cases h1 h2
  unfold unwrapped
  rw [int_two_pow]
  generalize (p + BitVec.ofInt 32 corr).toInt = v at *
  generalize 2 ^ bits = R at *
  dsimp only
  rw [BitVec.toNat_ofInt]
  split_ifs <;> omega

/-- Restoring the wrapped residual on the same prediction gives the value back (R211). -/
theorem unwrapped_wrappedResidual (hr : r.toNat < 2 ^ bits) : unwrapped bits p (wrappedResidual bits p r) = r := by
  obtain ⟨hlo, hhi, k, hk⟩ := toInt_add_wraps p (wrappedResidual bits p r)
  obtain ⟨hwlo, hwhi, hw⟩ := wrappedResidual_spec h1 h2 hp hr
  obtain ⟨hpow, hcases⟩ := range_cases h1 h2
  unfold unwrapped
  rw [int_two_pow] at *
  generalize (p + BitVec.ofInt 32 (wrappedResidual bits p r)).toInt = v at *
  generalize wrappedResidual bits p r = corr at *
  generalize 2 ^ bits = R at *
  generalize 2 ^ (bits - 1) = H at *
  apply BitVec.eq_of_toNat_eq
  dsimp only
  rw [BitVec.toNat_ofInt]
  subst hpow
  rcases hw with rfl | rfl | rfl <;> split_ifs <;> omega

end Range

/-- Settles O58: the meaning's residual and class are the numbers', and a residual of the range has a class of the unit. -/
theorem residualsOfUnitValuesFit : Obligations.ResidualsOfUnitValuesFit := by
  unfold Obligations.ResidualsOfUnitValuesFit
  intro u p r hu
  have hfold := foldedResidual_eq u hu p r
  obtain ⟨hlo, hhi⟩ := foldedResidual_range u p r
  refine ⟨hfold, ?_, fun hp hr => ?_⟩
  · rw [← hfold]
    exact (inClass_iff _ _ hlo hhi).mpr rfl
  · obtain ⟨b1, b2, -⟩ := id hu
    obtain ⟨hwlo, hwhi, -⟩ := wrappedResidual_spec b1 b2 hp hr
    rw [int_two_pow] at hwlo hwhi
    have hpow := two_pow_pred u.bits b1
    rw [hu.corr, residualClass, bitlen_le_iff]
    refine classMagnitude_lt hlo hhi ?_ ?_ <;> rw [hfold, int_two_pow] <;> omega

/-- Settles O59: both halves in numbers, and unwrapping undoes wrapping. -/
theorem restoringUndoesFolding : Obligations.RestoringUndoesFolding := by
  unfold Obligations.RestoringUndoesFolding
  intro u p r hu hp hr
  obtain ⟨b1, b2, -⟩ := id hu
  rw [restored_eq u hu, foldedResidual_eq u hu, unwrapped_wrappedResidual b1 b2 hp hr]

/-- Settles O60: the answer is the prediction with a residual of a class of the unit, brought into range. -/
theorem icDecompressAnswersInRange : Obligations.IcDecompressAnswersInRange := by
  unfold Obligations.IcDecompressAnswersInRange
  intro s t unit ctx p w u hs _ hget hp he htm hrsp
  obtain ⟨v, -, u', a, x, corr, -, hget', -, hw, hcorr, -⟩ := succeeds_of_answer hs he (mode_ne_fault_of_dec htm) hrsp
  obtain rfl : u' = u := by simpa [hget] using hget'.symm
  obtain ⟨⟨hu, -⟩, -⟩ := hs.ic_wf hget
  obtain ⟨b1, b2, -⟩ := id hu
  rw [hw, restored_eq u' hu]
  rw [hu.corr] at hcorr
  exact unwrapped_lt b1 b2 hp hcorr

end Sys2Proof.Machine

end

section

namespace Sys2Proof.Machine

/-! ## How a command ends in a fault of its partial execution (60_exceptions.md R247 to R252) -/

/-- `i` on `s` enters FAULT mode with cause `c` and information word `w`, leaves `bin` on BIN, writes nothing to BOUT and
answers the cause with 0. -/
def FaultsWith (i : Instr) (s : State) (c : Cause) (w : Word) (bin : List Byte) : Prop :=
  ∃ t, exec i s = .next t ∧ t.mode = .fault ∧ t.cause = c ∧ t.info = w ∧ t.bin = bin ∧ t.bout = s.bout ∧
    t.rsp = s.rsp ++ [⟨c.code, 0#32⟩]

/-- A fault taken where nothing but the coder, BIN and BOUT was touched, and BOUT not changed. -/
theorem FaultsWith.of_frame {i : Instr} {s v : State} {c : Cause} {w : Word} (hm : s.mode ≠ .fault)
    (he : exec i s = .next (takeFault c w v)) (hf : CoderFrame s v) (hout : v.bout = s.bout) :
    FaultsWith i s c w v.bin := by
  rw [takeFault_enter c w v (by rwa [hf.mode])] at he
  exact ⟨_, he, rfl, rfl, rfl, rfl, hout, by rw [faulted, hf.rsp]⟩

theorem FaultsWith.of_dec {i : Instr} {s v : State} {c : Cause} {w : Word} {bin : List Byte} (hm : s.mode ≠ .fault)
    (he : exec i s = .next (takeFault c w v)) (hf : DecFrame s v) (hbin : v.bin = bin) : FaultsWith i s c w bin := by
  subst hbin
  exact .of_frame hm he hf.coderFrame (by rw [hf.2])

/-- A command that passes its mode check and then raises takes that fault. -/
theorem finish_of_raise_at {p : Prop} [Decidable p] {c₀ c : Cause} {w₀ w : Word} {s t : State}
    {k : Unit → State → Res Word} (h : p) (hk : k () s = .raise c w t) :
    ((check p c₀ w₀ s).bind k).finish = .next (takeFault c w t) := by
  rw [check_pos h, Res.bind_ok, hk, Res.finish_raise]

/-! ## The remainder of a residual read from BIN (43_integer_compressor.md R209) -/

section Read

variable {u : IcUnit} {a : IcAdaptive} {k : Nat} {s t v : State} {c : Cause} {w : Word}

theorem readRemainder_raise_bit (h : readBit a.mc0 s = .raise c w t) : readRemainder u 0 a s = .raise c w t := by
  rw [readRemainder, if_pos rfl]
  exact Res.bind_of_raise h

variable {mk mk' : SymModel} {y : Nat} (h1 : 1 ≤ k) (h2 : k < 32) (hget : a.mc[k - 1]? = some mk)

include h1 h2 hget

theorem readRemainder_raise_sym (h : readSym mk s = .raise c w t) : readRemainder u k a s = .raise c w t := by
  rw [readRemainder, if_neg (by omega), if_pos h2, lookupMc, Res.bind_of_ok (lookup_of_getElem? hget s)]
  exact Res.bind_of_raise h

theorem readRemainder_raise_bits (hk : u.bitsHigh < k) (hs : readSym mk s = .ok (y, mk') v)
    (h : decDirect (k - u.bitsHigh) v = .raise c w t) : readRemainder u k a s = .raise c w t := by
  rw [readRemainder, if_neg (by omega), if_pos h2, lookupMc, Res.bind_of_ok (lookup_of_getElem? hget s),
    Res.bind_of_ok hs, if_neg (by omega)]
  exact Res.bind_of_raise h

end Read

/-- The model MC[k] of a class the unit has is well formed (R42). -/
theorem IcAdaptive.wf.mc_wf {u : IcUnit} {a : IcAdaptive} (ha : a.wf u) {k : Nat} {mk : SymModel}
    (hget : a.mc[k]? = some mk) : mk.wf := by
  obtain ⟨-, -, -, -, -, -, -, hmc⟩ := ha
  exact hmc mk (List.mem_of_getElem? hget)

theorem IcAdaptive.wf.mc0_wf {u : IcUnit} {a : IcAdaptive} (ha : a.wf u) : a.mc0.wf := by
  obtain ⟨-, -, -, -, -, hmc0, -⟩ := ha
  exact hmc0

/-- The remainder of class `k` read at `s` raises where `t` is reached, in every adaptive state with the MC0 and MC of `a`: MB
and K have been written by then. -/
def ReadRaises (u : IcUnit) (k : Nat) (a : IcAdaptive) (s : State) (c : Cause) (w : Word) (t : State) : Prop :=
  DecFrame s t ∧ ∀ b : IcAdaptive, b.mc = a.mc → b.mc0 = a.mc0 → readRemainder u k b s = .raise c w t

section Unit

variable {s t : State} {unit : BitVec 8} {ctx : BitVec 16} {p : Word} {u : IcUnit} {a : IcAdaptive} {m : SymModel} {k : Nat}
  {c : Cause} {w : Word} (hc : s.ClassModel unit ctx u a m) (hs : s.Inv) (hm : s.mode = .dec)

include hc hs hm

theorem icDecompress_raise_remainder (hsym : s.hasSym m k) (h : ReadRaises u k a (consumeSym m k s) c w t) :
    exec (.icDecompress unit ctx p) s = .next (takeFault c w t) ∧ DecFrame s t := by
  obtain ⟨-, -, hmwf, -⟩ := hc.spec hs
  refine ⟨icDecompress_raise hc hm p fun f hfix => ?_, (consume_frame _ _ s).trans h.1⟩
  rw [Res.bind_of_ok (readSym_ok m hmwf s (hs.decReady hm) k hsym)]
  exact h.2 _ (hfix _).1 (hfix _).2

theorem icDecompress_lacks_class {y : Nat} (hlacks : s.lacksSym m y) :
    ∃ t, exec (.icDecompress unit ctx p) s = .next (takeFault .streamExhausted 0#32 t) ∧ t.bin = [] ∧ DecFrame s t := by
  obtain ⟨-, -, hmwf, -⟩ := hc.spec hs
  obtain ⟨t, e, hbin, hf⟩ := readSym_lacks m hmwf s (hs.decReady hm) y hlacks
  exact ⟨t, icDecompress_raise hc hm p fun f _ => Res.bind_of_raise e, hbin, hf⟩

end Unit

section Remainder

variable {u : IcUnit} {a : IcAdaptive} {s : State} (hl : 2 ^ 24 ≤ s.length.toNat)

include hl

theorem readRemainder_lacks_bit (hm : a.mc0.wf) (hlacks : ¬s.hasBit a.mc0 (foundBit a.mc0 s)) :
    ∃ t, ReadRaises u 0 a s .streamExhausted 0#32 t ∧ t.bin = [] := by
  obtain ⟨t, e, hbin, hf⟩ := readBit_lacks a.mc0 hm s hl hlacks
  exact ⟨t, ⟨hf, fun b _ hb => readRemainder_raise_bit (by rwa [hb])⟩, hbin⟩

variable {k y : Nat} {mk : SymModel} (h1 : 1 ≤ k) (h2 : k < 32) (hget : a.mc[k - 1]? = some mk) (hmk : mk.wf)

include h1 h2 hget hmk

theorem readRemainder_lacks_sym (hlacks : s.lacksSym mk y) :
    ∃ t, ReadRaises u k a s .streamExhausted 0#32 t ∧ t.bin = [] := by
  obtain ⟨t, e, hbin, hf⟩ := readSym_lacks mk hmk s hl y hlacks
  exact ⟨t, ⟨hf, fun b hb _ => readRemainder_raise_sym h1 h2 (by rwa [hb]) e⟩, hbin⟩

/-- What the direct bits below the symbol of MC[k] raise, the remainder raises. -/
theorem readRaises_of_direct {c : Cause} {w : Word} {t : State} (hk : u.bitsHigh < k) (hsym : s.hasSym mk y)
    (e : decDirect (k - u.bitsHigh) (consumeSym mk y s) = .raise c w t) (hf : DecFrame (consumeSym mk y s) t) :
    ReadRaises u k a s c w t :=
  ⟨(consume_frame _ _ s).trans hf, fun b hb _ =>
    readRemainder_raise_bits h1 h2 (by rwa [hb]) hk (readSym_ok mk hmk s hl y hsym) e⟩

theorem readRemainder_lacks_direct (hk : u.bitsHigh < k) (hsym : s.hasSym mk y)
    (hlacks : (consumeSym mk y s).lacksDirect (k - u.bitsHigh)) :
    ∃ t, ReadRaises u k a s .streamExhausted 0#32 t ∧ t.bin = [] := by
  obtain ⟨t, e, hbin, hf⟩ := decDirect_lacks (k - u.bitsHigh) _ (consumeSym_length mk hmk s hl y hsym.1) (by omega) hlacks
  exact ⟨t, readRaises_of_direct hl h1 h2 hget hmk hk hsym e hf, hbin⟩

theorem readRemainder_bad_direct {q : Nat} {rest : List Byte} (hk : u.bitsHigh < k) (hsym : s.hasSym mk y)
    (hbad : (consumeSym mk y s).badDirect (k - u.bitsHigh) q rest) :
    ∃ t, ReadRaises u k a s .streamCorruption (u32 q) t ∧ t.bin = rest := by
  obtain ⟨t, e, hbin, hf⟩ := decDirect_bad (k - u.bitsHigh) q rest _ (consumeSym_length mk hmk s hl y hsym.1) (by omega) hbad
  exact ⟨t, readRaises_of_direct hl h1 h2 hget hmk hk hsym e hf, hbin⟩

end Remainder

/-- Settles O26: each read that finds too few bytes raises, and what the command read before stays read. -/
theorem streamExhaustedFaults : Obligations.StreamExhaustedFaults := by
  unfold Obligations.StreamExhaustedFaults
  intro s hs bad
  have hbad : ∀ i t, s.mode ≠ .fault → exec i s = .next (takeFault .streamExhausted 0#32 t) → t.bin = [] → DecFrame s t →
      bad i := fun i t hm he hbin hf => FaultsWith.of_dec hm he hf hbin
  refine ⟨fun hm hlen => ?_, fun hm slot m hslot hget hlacks => ?_, fun hm slot m y hslot hget hlacks => ?_,
    fun hm n h1 h2 hlacks => ?_, fun hm unit ctx p u a m hc => ?_⟩
  · rcases primeBytes_spec PRIME_BYTES 0#32 (s.setLength (u32 AC_MAX_LENGTH)) with ⟨hle, -⟩ | ⟨-, e⟩
    · exact absurd hle (by simpa [PRIME_BYTES] using hlen)
    · exact hbad _ _ (by simp [hm]) (finish_of_raise_at hm (Res.bind_of_raise e)) rfl ⟨List.nil_suffix, rfl⟩
  · obtain ⟨t, e, hbin, hf⟩ := readBit_lacks m (hs.bm_wf hget) s (hs.decReady hm) hlacks
    exact hbad _ _ (mode_ne_fault_of_dec hm)
      (finish_of_raise_at hm (Res.bind_raise_of_ok (useBm_ok slot s m hslot hget) (Res.bind_of_raise e))) hbin hf
  · obtain ⟨t, e, hbin, hf⟩ := readSym_lacks m (hs.sm_wf hget) s (hs.decReady hm) y hlacks
    exact hbad _ _ (mode_ne_fault_of_dec hm)
      (finish_of_raise_at hm (Res.bind_raise_of_ok (useSm_ok slot s m hslot hget) (Res.bind_of_raise e))) hbin hf
  · have hlegal : legalBitCount n := ⟨h1, h2⟩
    obtain ⟨t, e, hbin, hf⟩ := decDirect_lacks n.toNat s (hs.decReady hm) h2 hlacks
    exact hbad _ _ (mode_ne_fault_of_dec hm)
      (finish_of_raise_at hm (Res.bind_raise_of_ok (check_pos hlegal _ _ _) (Res.bind_of_raise e))) hbin hf
  · obtain ⟨-, ha, hmwf, -⟩ := hc.spec hs
    have hl := hs.decReady hm
    have lacks : ∀ k, s.hasSym m k → (∃ t, ReadRaises u k a (consumeSym m k s) .streamExhausted 0#32 t ∧ t.bin = []) →
        bad (.icDecompress unit ctx p) := fun k hsym ⟨t, h, hbin⟩ => by
      obtain ⟨he, hf⟩ := icDecompress_raise_remainder (p := p) hc hs hm hsym h
      exact hbad _ t (mode_ne_fault_of_dec hm) he hbin hf
    have hlength : ∀ k, s.hasSym m k → 2 ^ 24 ≤ (consumeSym m k s).length.toNat := fun k hsym =>
      consumeSym_length m hmwf s hl k hsym.1
    refine ⟨fun y hlacks => ?_, fun hsym => ?_, fun k mk h1 h2 hsym hget => ⟨fun y hlacks => ?_,
      fun y hk hsym1 hlacks => ?_⟩⟩
    · obtain ⟨t, he, hbin, hf⟩ := icDecompress_lacks_class (p := p) hc hs hm hlacks
      exact hbad _ t (mode_ne_fault_of_dec hm) he hbin hf
    · intro s1 hlacks
      exact lacks 0 hsym (readRemainder_lacks_bit (hlength 0 hsym) ha.mc0_wf hlacks)
    · exact lacks k hsym (readRemainder_lacks_sym (hlength k hsym) h1 h2 hget (ha.mc_wf hget) hlacks)
    · exact lacks k hsym (readRemainder_lacks_direct (hlength k hsym) h1 h2 hget (ha.mc_wf hget) hk hsym1 hlacks)

/-- Settles O27: the bad digit raises after its own bytes are read, and the context check comes before anything changes. -/
theorem streamCorruptionFaults : Obligations.StreamCorruptionFaults := by
  unfold Obligations.StreamCorruptionFaults
  intro s hs hm bad
  have hf := mode_ne_fault_of_dec hm
  have hl := hs.decReady hm
  have hbad : ∀ i q rest t, exec i s = .next (takeFault .streamCorruption (u32 q) t) → t.bin = rest → DecFrame s t →
      bad i q rest := fun i q rest t he hbin hframe => FaultsWith.of_dec hf he hframe hbin
  refine ⟨fun n q rest h1 h2 hdigit => ?_, fun unit ctx p u a m mk k y q rest hc h1 h2 hhigh hsym hget hsym1 hdigit => ?_,
    fun unit ctx p u hunit hget ha hctx => ?_, fun d n q hlen h1 h2 hdigit => ?_⟩
  · have hlegal : legalBitCount n := ⟨h1, h2⟩
    obtain ⟨t, e, hbin, hframe⟩ := decDirect_bad n.toNat q rest s hl h2 hdigit
    exact hbad _ _ _ _ (finish_of_raise_at hm (Res.bind_raise_of_ok (check_pos hlegal _ _ _) (Res.bind_of_raise e))) hbin
      hframe
  · obtain ⟨-, ha, hmwf, -⟩ := hc.spec hs
    obtain ⟨t, h, hbin⟩ := readRemainder_bad_direct (consumeSym_length m hmwf s hl k hsym.1) h1 h2 hget (ha.mc_wf hget) hhigh
      hsym1 hdigit
    obtain ⟨he, hframe⟩ := icDecompress_raise_remainder (p := p) hc hs hm hsym h
    exact hbad _ _ _ t he hbin hframe
  · obtain ⟨ad, had⟩ := Option.ne_none_iff_exists'.mp ha
    exact finish_of_raise hf hm (Res.bind_raise_of_ok (useIcInited_ok unit s u ad hunit hget had)
      (Res.bind_of_raise (check_neg hctx.not_gt _ _ _)))
  · exact second_digit_lt n d hlen h1 h2 hdigit.2.2

end Sys2Proof.Machine

end

section

namespace Sys2Proof.Machine

/-! ## The remainder of a residual handed to the encoder (43_integer_compressor.md R208) -/

/-- The symbol the meaning codes with MC[k]: the position, or its high bits. -/
theorem highSymbol_low {u : IcUnit} {k : Nat} (corr : Int) (hk : k ≤ u.bitsHigh) :
    highSymbol u k (positionIn k corr) = classPosition k corr := by
  rw [highSymbol, if_pos hk, classPosition_eq]

theorem highSymbol_high {u : IcUnit} {k : Nat} (corr : Int) (hk : u.bitsHigh < k) :
    highSymbol u k (positionIn k corr) = classPosition k corr >>> (k - u.bitsHigh) := by
  rw [highSymbol, if_neg (by omega), classPosition_eq, Nat.shiftRight_eq_div_pow]

/-- A residual of class `k` has its symbol in the alphabet of MC[k]. -/
theorem highSymbol_lt (u : IcUnit) {k : Nat} {corr : Int} (hlo : -(2 ^ 31) ≤ corr) (hhi : corr < 2 ^ 31)
    (hk : residualClass corr = k) (h1 : 1 ≤ k) : highSymbol u k (positionIn k corr) < 2 ^ min k u.bitsHigh := by
  have hpos := (classPosition_spec k corr hlo hhi hk h1).1
  rcases Nat.lt_or_ge u.bitsHigh k with h | h
  · rw [highSymbol_high corr h]
    exact highBits_lt _ k u.bitsHigh hpos h
  · rw [highSymbol_low corr h, Nat.min_eq_left h]
    exact hpos

section Write

variable {u : IcUnit} {a : IcAdaptive} {corr : Int} {k : Nat} {s t v : State} {c : Cause} {w : Word}

theorem writeRemainder_raise_bit (hc : InClass corr 0) (h : codeBit a.mc0 (zeroClassBit corr) s = .raise c w t) :
    writeRemainder u corr 0 a s = .raise c w t := by
  rw [writeRemainder, if_pos rfl, zeroClassBit_eq corr (inClass_zero hc)]
  exact Res.bind_of_raise h

variable {mk mk' : SymModel} (h1 : 1 ≤ k) (h2 : k < 32) (hget : a.mc[k - 1]? = some mk)

include h1 h2 hget

theorem writeRemainder_raise_sym (h : codeSym mk (highSymbol u k (positionIn k corr)) s = .raise c w t) :
    writeRemainder u corr k a s = .raise c w t := by
  rw [writeRemainder, if_neg (by omega), if_pos h2, lookupMc, Res.bind_of_ok (lookup_of_getElem? hget s)]
  dsimp only
  split
  case isTrue hk => exact Res.bind_of_raise (by rwa [highSymbol_low corr hk] at h)
  case isFalse hk => exact Res.bind_of_raise (by rwa [highSymbol_high corr (Nat.not_le.mp hk)] at h)

theorem writeRemainder_raise_bits (hk : u.bitsHigh < k)
    (hs : codeSym mk (highSymbol u k (positionIn k corr)) s = .ok mk' v)
    (h : encDirect (k - u.bitsHigh) (positionIn k corr % 2 ^ (k - u.bitsHigh)) v = .raise c w t) :
    writeRemainder u corr k a s = .raise c w t := by
  rw [highSymbol_high corr hk] at hs
  rw [← classPosition_eq] at h
  rw [writeRemainder, if_neg (by omega), if_pos h2, lookupMc, Res.bind_of_ok (lookup_of_getElem? hget s), if_neg (by omega)]
  exact Res.bind_raise_of_ok hs (Res.bind_of_raise h)

end Write

/-! ## The run counter at its end (40_encoder.md R128, R249) -/

theorem HeldFrame.coderFrame {s t : State} (h : HeldFrame s t) : CoderFrame s t := by
  unfold CoderFrame
  rw [h]

/-- A fault taken while every byte the encoder handed out is held. -/
theorem FaultsWith.of_held {i : Instr} {s v : State} {c : Cause} {w : Word} (hm : s.mode ≠ .fault)
    (he : exec i s = .next (takeFault c w v)) (hf : HeldFrame s v) : FaultsWith i s c w v.bin :=
  .of_frame hm he hf.coderFrame (by rw [hf])

/-- The remainder of class `k` coded at `s` finds FFRUN full, with every byte before held, in every adaptive state with the MC0
and MC of `a`: MB and K have been written by then. -/
def WriteOverflows (u : IcUnit) (corr : Int) (k : Nat) (a : IcAdaptive) (s : State) : Prop :=
  ∃ t, HeldFrame s t ∧
    ∀ b : IcAdaptive, b.mc = a.mc → b.mc0 = a.mc0 → writeRemainder u corr k b s = .raise .outputStage 0#32 t

section Remainder

variable {u : IcUnit} {a : IcAdaptive} {corr : Int} {k : Nat} {s : State} {mk : SymModel} (hl : 2 ^ 24 ≤ s.length.toNat)

include hl

/-- A symbol whose bytes are all held leaves LENGTH renormalised (R127). -/
theorem held_sym_length (hmk : mk.wf) {y : Nat} (hy : y < mk.nsym) :
    2 ^ 24 ≤ (held (symLow mk y s.length.toNat) (symHigh mk y s.length.toNat - symLow mk y s.length.toNat) s).length.toNat := by
  have hL := s.length.isLt
  obtain ⟨hlt, hle⟩ := sym_bounds mk hmk y s.length.toNat hy hl
  exact held_length _ _ s (Nat.sub_pos_of_lt hlt) (by omega)

theorem writeRemainder_overflows_bit (hm : a.mc0.wf) (hc : InClass corr 0)
    (ho : s.overflows (bitPart a.mc0 (zeroClassBit corr) s.length.toNat).1
      (bitPart a.mc0 (zeroClassBit corr) s.length.toNat).2) : WriteOverflows u corr 0 a s := by
  obtain ⟨t, e, hf⟩ := codeBit_overflows a.mc0 hm (zeroClassBit corr) s hl ho
  exact ⟨t, hf, fun b _ hb => writeRemainder_raise_bit hc (by rwa [hb])⟩

variable (h1 : 1 ≤ k) (h2 : k < 32) (hget : a.mc[k - 1]? = some mk) (hmk : mk.wf)
  (hy : highSymbol u k (positionIn k corr) < mk.nsym)

include h1 h2 hget hmk hy

theorem writeRemainder_overflows_sym
    (ho : s.overflows (symLow mk (highSymbol u k (positionIn k corr)) s.length.toNat)
      (symHigh mk (highSymbol u k (positionIn k corr)) s.length.toNat -
        symLow mk (highSymbol u k (positionIn k corr)) s.length.toNat)) : WriteOverflows u corr k a s := by
  obtain ⟨t, e, hf⟩ := codeSym_overflows mk hmk _ hy s hl ho
  exact ⟨t, hf, fun b hb _ => writeRemainder_raise_sym h1 h2 (by rwa [hb]) e⟩

theorem writeRemainder_overflows_bits {x l : Nat} (hx : x = symLow mk (highSymbol u k (positionIn k corr)) s.length.toNat)
    (hw : l = symHigh mk (highSymbol u k (positionIn k corr)) s.length.toNat - x) (hk : u.bitsHigh < k) (hh : s.holdsAll x l)
    (ho : (held x l s).overflowsDirect (k - u.bitsHigh) (positionIn k corr % 2 ^ (k - u.bitsHigh))) :
    WriteOverflows u corr k a s := by
  subst hw hx
  obtain ⟨t, e, hf⟩ := encDirect_overflows _ _ _ (held_sym_length hl hmk hy) (by omega) ho
  exact ⟨t, HeldFrame.trans (held_frame _ _ s) hf, fun b hb _ =>
    writeRemainder_raise_bits h1 h2 (by rwa [hb]) hk (codeSym_holdsAll mk hmk _ hy s hl hh) e⟩

end Remainder

section Unit

variable {s : State} {unit : BitVec 8} {ctx : BitVec 16} {p r : Word} {u : IcUnit} {a : IcAdaptive} {m : SymModel} {k : Nat}
  (hc : s.ClassModel unit ctx u a m) (hs : s.Inv) (hk : InClass (wrappedResidual u.bits p r) k) (hb : k ≤ u.corrBits)

include hc hs hk hb

/-- The symbol of MC[k] for the residual is in its alphabet. -/
theorem highSymbol_lt_nsym (h1 : 1 ≤ k) {mk : SymModel} (hget : a.mc[k - 1]? = some mk) :
    highSymbol u k (positionIn k (wrappedResidual u.bits p r)) < mk.nsym := by
  obtain ⟨hu, ha, -, -⟩ := hc.spec hs
  obtain ⟨mk', hget', -, hn⟩ := mc_get u a ha k h1 hb
  obtain rfl : mk' = mk := by simpa [hget] using hget'.symm
  obtain ⟨hlo, hhi⟩ := foldedResidual_range u p r
  rw [foldedResidual_eq u hu] at hlo hhi
  rw [hn]
  exact highSymbol_lt u hlo hhi ((inClass_iff _ k hlo hhi).mp hk) h1

variable (hm : s.mode = .enc)

include hm

theorem icCompress_overflows_class
    (ho : s.overflows (symLow m k s.length.toNat) (symHigh m k s.length.toNat - symLow m k s.length.toNat)) :
    ∃ t, exec (.icCompress unit ctx p r) s = .next (takeFault .outputStage 0#32 t) ∧ HeldFrame s t := by
  obtain ⟨-, -, hmwf, hn⟩ := hc.spec hs
  obtain ⟨-, -, hl⟩ := hs.encReady hm
  obtain ⟨t, e, hf⟩ := codeSym_overflows m hmwf k (by omega) s hl ho
  exact ⟨t, icCompress_raise hc hs hm p r k hk hb fun f _ => Res.bind_of_raise e, hf⟩

theorem icCompress_overflows_remainder {x l : Nat} (hx : x = symLow m k s.length.toNat) (hw : l = symHigh m k s.length.toNat - x)
    (hh : s.holdsAll x l) (h : WriteOverflows u (wrappedResidual u.bits p r) k a (held x l s)) :
    ∃ t, exec (.icCompress unit ctx p r) s = .next (takeFault .outputStage 0#32 t) ∧ HeldFrame s t := by
  subst hw hx
  obtain ⟨-, -, hmwf, hn⟩ := hc.spec hs
  obtain ⟨-, -, hl⟩ := hs.encReady hm
  obtain ⟨t, hf, e⟩ := h
  refine ⟨t, icCompress_raise hc hs hm p r k hk hb fun f hfix => ?_, HeldFrame.trans (held_frame _ _ s) hf⟩
  rw [Res.bind_of_ok (codeSym_holdsAll m hmwf k (by omega) s hl hh)]
  exact e _ (hfix _).1 (hfix _).2

end Unit

/-- Settles O28: the narrowing step that overflows raises, and the steps before it have written nothing. -/
theorem runCounterOverflowFaults : Obligations.RunCounterOverflowFaults := by
  unfold Obligations.RunCounterOverflowFaults
  intro s hs hm bad
  have hl := (hs.encReady hm).2.2
  have hbad : ∀ i t, exec i s = .next (takeFault .outputStage 0#32 t) → HeldFrame s t → bad i := fun i t he hf => by
    obtain ⟨v, h1, h2, h3, h4, -, h5, h6⟩ := FaultsWith.of_held (mode_ne_fault_of_enc hm) he hf
    exact ⟨v, h1, h2, h3, h4, h5, h6⟩
  refine ⟨fun bit slot m hslot hget ho => ?_, fun slot y m hslot hget hy ho => ?_, fun n v h1 h2 hv ho => ?_,
    fun hlen ho => ?_, fun hlen ho => ?_, fun unit ctx p r u a m k hc hk hb => ?_⟩
  · obtain ⟨t, e, hf⟩ := codeBit_overflows m (hs.bm_wf hget) bit s hl ho
    exact hbad _ t (finish_of_raise_at hm (Res.bind_raise_of_ok (useBm_ok slot s m hslot hget) (Res.bind_of_raise e))) hf
  · obtain ⟨t, e, hf⟩ := codeSym_overflows m (hs.sm_wf hget) y.toNat hy s hl ho
    exact hbad _ t (finish_of_raise_at hm (Res.bind_raise_of_ok (useSm_ok slot s m hslot hget)
      (Res.bind_raise_of_ok (check_pos hy _ _ _) (Res.bind_of_raise e)))) hf
  · have hlegal : legalBitCount n := ⟨h1, h2⟩
    have hfits : fitsBits n v := .inr hv
    obtain ⟨t, e, hf⟩ := encDirect_overflows n.toNat v.toNat s hl h2 ho
    exact hbad _ t (finish_of_raise_at hm (Res.bind_raise_of_ok (check_pos hlegal _ _ _)
      (Res.bind_raise_of_ok (check_pos hfits _ _ _) (Res.bind_of_raise e)))) hf
  · obtain ⟨t, e, hf⟩ := flushInterval_overflows s (fun _ => ho) (fun h => absurd hlen h.not_gt)
    exact hbad _ t (finish_of_raise_at hm (Res.bind_of_raise e)) hf
  · obtain ⟨t, e, hf⟩ := flushInterval_overflows s (fun h => absurd hlen h.not_ge) (fun _ => ho)
    exact hbad _ t (finish_of_raise_at hm (Res.bind_of_raise e)) hf
  · intro corr x l s1
    obtain ⟨-, ha, hmwf, hn⟩ := hc.spec hs
    have hl1 : 2 ^ 24 ≤ s1.length.toNat := held_sym_length hl hmwf (by omega)
    have overflows : s.holdsAll x l → WriteOverflows u corr k a s1 → bad (.icCompress unit ctx p r) := fun hh h => by
      obtain ⟨t, he, hf⟩ := icCompress_overflows_remainder hc hs hk hb hm rfl rfl hh h
      exact hbad _ t he hf
    refine ⟨fun ho => ?_, ?_, fun mk h1 h2 hget hh => ?_⟩
    · obtain ⟨t, he, hf⟩ := icCompress_overflows_class hc hs hk hb hm ho
      exact hbad _ t he hf
    · rintro rfl hh ho
      exact overflows hh (writeRemainder_overflows_bit hl1 ha.mc0_wf hk ho)
    · intro y x1 l1
      have hmk := ha.mc_wf hget
      have hy := highSymbol_lt_nsym hc hs hk hb h1 hget
      exact ⟨fun ho => overflows hh (writeRemainder_overflows_sym hl1 h1 h2 hget hmk hy ho),
        fun hhigh hh1 ho => overflows hh (writeRemainder_overflows_bits hl1 h1 h2 hget hmk hy rfl rfl hhigh hh1 ho)⟩

end Sys2Proof.Machine

end

section

namespace Sys2Proof.Machine

/-! ## What a residual leaves in its unit (43_integer_compressor.md R203, R204, R207) -/

theorem modify_of_getElem? {α : Type} {l : List α} {i : Nat} {a : α} (h : l[i]? = some a) (f : α → α) :
    l.modify i f = l.set i (f a) := by
  rw [List.modify_eq_set_getElem?, h]
  rfl

/-- The unit's adaptive state `a` after the residual `corr` of class `k`, coded with MB[ctx][bin] = `m'`: `r` is the state its
remainder leaves. -/
theorem errUpdate_eq {a r : IcAdaptive} {ctx bin : Nat} {corr : Int} {m' : SymModel} {e : BitVec 34} {row : List SymModel}
    (herr : a.err[ctx]? = some e) (hrow : a.mb[ctx]? = some row) (hr : r.err = a.err) (hmb : r.mb = (putMb ctx bin m' a).mb) :
    errUpdate ctx corr r = { r with
      mb := a.mb.set ctx (row.set bin m')
      err := a.err.set ctx (BitVec.ofNat 34 (e.toNat - e.toNat / 4 + corr.natAbs)) } := by
  have hdecay : decayed e corr = BitVec.ofNat 34 (e.toNat - e.toNat / 4 + corr.natAbs) := by
    rw [decayed, IC_DECAY_SHIFT, Nat.shiftRight_eq_div_pow]
  have hmb' : r.mb = a.mb.set ctx (row.set bin m') := hmb.trans (modify_of_getElem? hrow _)
  rw [errUpdate, hr, modify_of_getElem? herr, hdecay, ← hmb']

/-! ## IC_DECOMPRESS (R204, R209) -/

section Read

variable {u : IcUnit} {a : IcAdaptive} {k y d : Nat} {s t v : State} {mk mk' : SymModel} (h1 : 1 ≤ k) (h2 : k < 32)
  (hget : a.mc[k - 1]? = some mk)

include h1 h2 hget

theorem readRemainder_low (hk : k ≤ u.bitsHigh) (h : readSym mk s = .ok (y, mk') t) :
    readRemainder u k a s = .ok (positionResidual k y, putMc k mk' a) t := by
  rw [readRemainder, if_neg (by omega), if_pos h2, lookupMc, Res.bind_of_ok (lookup_of_getElem? hget s), Res.bind_of_ok h,
    if_pos hk]

theorem readRemainder_high (hk : u.bitsHigh < k) (h : readSym mk s = .ok (y, mk') v)
    (hd : decDirect (k - u.bitsHigh) v = .ok d t) :
    readRemainder u k a s = .ok (positionResidual k (y <<< (k - u.bitsHigh) ||| d), putMc k mk' a) t := by
  rw [readRemainder, if_neg (by omega), if_pos h2, lookupMc, Res.bind_of_ok (lookup_of_getElem? hget s), Res.bind_of_ok h,
    if_neg (by omega), Res.bind_of_ok hd]

end Read

theorem readRemainder_bit {u : IcUnit} {a : IcAdaptive} {s t : State} {bit : BitVec 1} {m : BitModel}
    (h : readBit a.mc0 s = .ok (bit, m) t) : readRemainder u 0 a s = .ok ((bit.toNat : Int), { a with mc0 := m }) t := by
  rw [readRemainder, if_pos rfl, Res.bind_of_ok h]

theorem readRemainder_top {u : IcUnit} {a : IcAdaptive} {s : State} :
    readRemainder u 32 a s = .ok (asI32 u.corrMin, a) s := by
  rw [readRemainder, if_neg (by omega), if_neg (by omega)]

section Unit

variable {s t v : State} {unit : BitVec 8} {ctx : BitVec 16} {u : IcUnit} {a r : IcAdaptive} {e : BitVec 34}
  {row : List SymModel} {m m' : SymModel} {k : Nat} {corr : Int} (hunit : unit.toNat < s.capNic.toNat)
  (hget : s.ic.get unit.toNat = some u) (ha : u.adaptive = some a) (hctx : ctx.toNat < u.contexts)
  (herr : a.err[ctx.toNat]? = some e) (hrow : a.mb[ctx.toNat]? = some row) (hm : row[historyBin u e]? = some m)

include hunit hget ha hctx herr hrow hm

/-- IC_DECOMPRESS whose class symbol and remainder are read: the answer is restored from the residual, and K, ERR[ctx],
MB[ctx][bin] and what the remainder used are updated. -/
theorem exec_icDecompress (p : Word) (hs : s.Inv) (hmode : s.mode = .dec) (hsym : readSym m s = .ok (k, m') v)
    (hrem : readRemainder u k { putMb ctx.toNat (historyBin u e) m' a with k := k } v = .ok (corr, r) t)
    (hr : r.err = a.err) (hmb : r.mb = (putMb ctx.toNat (historyBin u e) m' a).mb) (ht : CoderFrame s t) :
    exec (.icDecompress unit ctx p) s = .next (success (unwrapped u.bits p corr) { t with
      ic := s.ic.put unit.toNat { u with adaptive := some { r with
        mb := a.mb.set ctx.toNat (row.set (historyBin u e) m')
        err := a.err.set ctx.toNat (BitVec.ofNat 34 (e.toNat - e.toNat / 4 + corr.natAbs)) } } }) := by
  obtain ⟨⟨hu, -⟩, -⟩ := hs.ic_wf hget
  have hmb0 : lookupMb a ctx.toNat (historyBin u e) s = .ok m s := by
    rw [lookupMb, Res.bind_of_ok (lookup_of_getElem? hrow s), lookup_of_getElem? hm]
  have hread : readCorrector u ctx.toNat (historyBin u e) a s = .ok (corr, r) t := by
    rw [readCorrector, Res.bind_of_ok hmb0, Res.bind_of_ok hsym, hrem]
  have hdec : decompress u a ctx.toNat p s = .ok (restored u p corr, errUpdate ctx.toNat corr r) t := by
    rw [decompress, Res.bind_of_ok (lookup_of_getElem? herr s), Res.bind_of_ok hread]
  rw [restored_eq u hu, errUpdate_eq herr hrow hr hmb] at hdec
  refine finish_of_ok hmode ?_
  rw [Res.bind_of_ok (useIcInited_ok unit s u a hunit hget ha), Res.bind_of_ok (check_pos hctx _ _ _),
    Res.bind_of_ok hdec, putIc, ht.ic]
  rfl

end Unit

/-- Settles O53: the class symbol is 0, and MC0 gives the residual. -/
theorem icDecompressClassZero : Obligations.IcDecompressClassZero := by
  unfold Obligations.IcDecompressClassZero
  intro s unit ctx p u a e row m hs hmode hunit hget ha hctx herr hrow hm hsym s1 bit hbit
  obtain ⟨-, hawf, hmwf, -⟩ := State.ClassModel.spec ⟨hunit, hget, ha, hctx, e, row, herr, hrow, hm⟩ hs
  have hl := hs.decReady hmode
  have hread := readSym_ok m hmwf s hl 0 hsym
  have hrem := readBit_ok a.mc0 hawf.mc0_wf s1 (consumeSym_length m hmwf s hl 0 hsym.1) hbit
  refine ⟨smObserve 0 m, bmObserve bit a.mc0, smObserve_observed 0 m hmwf hsym.1, bmObserve_observed bit a.mc0 hawf.mc0_wf, ?_⟩
  exact exec_icDecompress hunit hget ha hctx herr hrow hm p hs hmode hread (readRemainder_bit hrem) rfl rfl
    ((consume_frame _ _ s).trans (consume_frame _ _ s1)).coderFrame

/-- A position is the symbol of its high bits with the direct bits below it (R209). -/
theorem shiftLeft_or_eq {y d low : Nat} (hd : d < 2 ^ low) : y <<< low ||| d = y * 2 ^ low + d := by
  rw [← Nat.shiftLeft_add_eq_or_of_lt hd, Nat.shiftLeft_eq]

theorem consumeDirect_frame (n : Nat) (s : State) : DecFrame s (consumeDirect n s) := by
  unfold consumeDirect
  split
  case isTrue => exact consume_frame _ _ s
  case isFalse => exact (consume_frame _ _ s).trans (consume_frame _ _ _)

/-- `s` after the decoder's steps for the symbol `y` of MC[k] and the `low` direct bits below it (R209). -/
def consumePosition (mk : SymModel) (y low : Nat) (s : State) : State :=
  if low = 0 then consumeSym mk y s else consumeDirect low (consumeSym mk y s)

theorem consumePosition_frame (mk : SymModel) (y low : Nat) (s : State) : DecFrame s (consumePosition mk y low s) := by
  have hsym : DecFrame s (consumeSym mk y s) := consume_frame _ _ s
  unfold consumePosition
  split
  case isTrue => exact hsym
  case isFalse => exact hsym.trans (consumeDirect_frame low _)

/-- The remainder of class `k` when the next symbol of MC[k] is `y` and the direct bits below it are `d`. -/
theorem readRemainder_middle {u : IcUnit} {a : IcAdaptive} {k y d : Nat} {s : State} {mk : SymModel} (h1 : 1 ≤ k) (h2 : k < 32)
    (hget : a.mc[k - 1]? = some mk) (hmk : mk.wf) (hl : 2 ^ 24 ≤ s.length.toNat) (hsym : s.hasSym mk y)
    (hzero : k - u.bitsHigh = 0 → d = 0) (hdirect : 0 < k - u.bitsHigh → (consumeSym mk y s).hasDirect (k - u.bitsHigh) d) :
    readRemainder u k a s = .ok (positionResidual k (y * 2 ^ (k - u.bitsHigh) + d), putMc k (smObserve y mk) a)
      (consumePosition mk y (k - u.bitsHigh) s) := by
  have hread := readSym_ok mk hmk s hl y hsym
  unfold consumePosition
  rcases Nat.eq_zero_or_pos (k - u.bitsHigh) with hlow | hlow
  · rw [if_pos hlow, hzero hlow, hlow, pow_zero, Nat.mul_one, Nat.add_zero]
    exact readRemainder_low h1 h2 hget (Nat.le_of_sub_eq_zero hlow) hread
  · have hd := hdirect hlow
    rw [if_neg hlow.ne', ← shiftLeft_or_eq (State.hasDirect.lt hd)]
    exact readRemainder_high h1 h2 hget (Nat.lt_of_sub_pos hlow) hread
      (decDirect_ok _ d _ (consumeSym_length mk hmk s hl y hsym.1) (by omega) hd)

/-- Settles O54: the class symbol is `k`, and MC[k] and the direct bits give the position. -/
theorem icDecompressMiddleClass : Obligations.IcDecompressMiddleClass := by
  unfold Obligations.IcDecompressMiddleClass
  intro s unit ctx p u a e row m mk k y d hs hmode hunit hget ha hctx herr hrow hm h1 h2 hsym hmk hsymk s2 low hzero hdirect
    s3 t corr
  obtain ⟨-, hawf, hmwf, -⟩ := State.ClassModel.spec ⟨hunit, hget, ha, hctx, e, row, herr, hrow, hm⟩ hs
  have hl := hs.decReady hmode
  have hmkwf := hawf.mc_wf hmk
  have hread := readSym_ok m hmwf s hl k hsym
  refine ⟨smObserve k m, smObserve y mk, smObserve_observed k m hmwf hsym.1, smObserve_observed y mk hmkwf hsymk.1, ?_⟩
  have hrem := readRemainder_middle (a := { putMb ctx.toNat (historyBin u e) (smObserve k m) a with k := k }) h1 h2 hmk hmkwf
    (consumeSym_length m hmwf s hl k hsym.1) hsymk hzero hdirect
  exact exec_icDecompress hunit hget ha hctx herr hrow hm p hs hmode hread hrem rfl rfl
    ((consume_frame _ _ s).trans (consumePosition_frame mk y low _)).coderFrame

/-- In 32 bits every sum is in range but for the wrap of the words. -/
theorem unwrapped_32 (p : Word) (corr : Int) : unwrapped 32 p corr = p + BitVec.ofInt 32 corr := by
  obtain ⟨-, hhi, -⟩ := toInt_add_wraps p corr
  have hself : BitVec.ofInt 32 (p + BitVec.ofInt 32 corr).toInt = p + BitVec.ofInt 32 corr := BitVec.ofInt_toInt
  unfold unwrapped
  generalize p + BitVec.ofInt 32 corr = w at *
  dsimp only
  split
  case isTrue =>
    rw [BitVec.ofInt_add, hself]
    exact BitVec.add_zero w
  case isFalse => rwa [if_neg (by omega)]

/-- Settles O55: a unit with a class 32 has 32 bits, and CORR_MIN is -2^31. -/
theorem icDecompressTopClass : Obligations.IcDecompressTopClass := by
  unfold Obligations.IcDecompressTopClass
  intro s unit ctx p u a e row m hs hmode hunit hget ha hctx herr hrow hm hsym
  obtain ⟨hu, -, hmwf, hn⟩ := State.ClassModel.spec ⟨hunit, hget, ha, hctx, e, row, herr, hrow, hm⟩ hs
  have hbits : u.bits = 32 := by
    have hlt := hsym.1
    have hmax := hu.2.1
    rw [hn, hu.corr] at hlt
    omega
  have hread := readSym_ok m hmwf s (hs.decReady hmode) 32 hsym
  have he := exec_icDecompress hunit hget ha hctx herr hrow hm p hs hmode hread readRemainder_top rfl rfl
    (consume_frame _ _ s).coderFrame
  have hmin := (hu.fields32 hbits).2.1
  have hans : unwrapped u.bits p (asI32 u.corrMin) = p + 0x80000000#32 := by
    rw [hmin, hbits, unwrapped_32]
    rfl
  have hmag : (asI32 u.corrMin).natAbs = 2 ^ 31 := by
    rw [hmin]
    rfl
  rw [hans, hmag] at he
  exact ⟨smObserve 32 m, smObserve_observed 32 m hmwf hsym.1, he⟩

end Sys2Proof.Machine

end

section

namespace Sys2Proof.Machine

/-! ## IC_COMPRESS (43_integer_compressor.md R203, R208) -/

section Remainder

variable {u : IcUnit} {a : IcAdaptive} {corr : Int} {k : Nat} {s t v : State} {mk mk' : SymModel}

theorem writeRemainder_bit {m : BitModel} (hc : InClass corr 0) (h : codeBit a.mc0 (zeroClassBit corr) s = .ok m t) :
    writeRemainder u corr 0 a s = .ok { a with mc0 := m } t := by
  rw [writeRemainder, if_pos rfl, zeroClassBit_eq corr (inClass_zero hc), Res.bind_of_ok h]

theorem writeRemainder_low (h1 : 1 ≤ k) (h2 : k < 32) (hget : a.mc[k - 1]? = some mk) (hk : k ≤ u.bitsHigh)
    (h : codeSym mk (highSymbol u k (positionIn k corr)) s = .ok mk' t) :
    writeRemainder u corr k a s = .ok (putMc k mk' a) t := by
  rw [highSymbol_low corr hk] at h
  rw [writeRemainder, if_neg (by omega), if_pos h2, lookupMc, Res.bind_of_ok (lookup_of_getElem? hget s), if_pos hk,
    Res.bind_of_ok h]

theorem writeRemainder_high (h1 : 1 ≤ k) (h2 : k < 32) (hget : a.mc[k - 1]? = some mk) (hk : u.bitsHigh < k)
    (h : codeSym mk (highSymbol u k (positionIn k corr)) s = .ok mk' v)
    (hd : encDirect (k - u.bitsHigh) (positionIn k corr % 2 ^ (k - u.bitsHigh)) v = .ok () t) :
    writeRemainder u corr k a s = .ok (putMc k mk' a) t := by
  rw [highSymbol_high corr hk] at h
  rw [← classPosition_eq] at hd
  rw [writeRemainder, if_neg (by omega), if_pos h2, lookupMc, Res.bind_of_ok (lookup_of_getElem? hget s), if_neg (by omega),
    Res.bind_of_ok h, Res.bind_of_ok hd]

theorem writeRemainder_top : writeRemainder u corr 32 a s = .ok a s := by
  rw [writeRemainder, if_neg (by omega), if_neg (by omega)]

/-- WriteCorrector's part after the class symbol takes the unit's MC0 and MC to `r` and the coder from `s` to `t`; K, ERR and
MB are not touched (R208). -/
def WritesRemainder (u : IcUnit) (corr : Int) (k : Nat) (a : IcAdaptive) (s : State) (r : IcAdaptive) (t : State) : Prop :=
  writeRemainder u corr k a s = .ok r t ∧ EncFrame s t ∧ RemainderCoded u corr k a r s t ∧
    r.k = a.k ∧ r.err = a.err ∧ r.mb = a.mb

theorem writesRemainder_zero (hc : InClass corr 0) (hmc0 : a.mc0.wf) (hs : EncReady s) (hroom : s.ffrun.toNat + 9 < 2 ^ 32) :
    ∃ r t, WritesRemainder u corr 0 a s r t := by
  obtain ⟨t, e, hr, hn⟩ := codeBit_narrows a.mc0 hmc0 (zeroClassBit corr) hs (by omega)
  exact ⟨_, t, writeRemainder_bit hc e, hr.1,
    ⟨fun _ => ⟨bmObserve_observed _ _ hmc0, rfl, hn⟩, fun h => absurd h.1 (by omega), fun h => absurd h (by omega)⟩,
    rfl, rfl, rfl⟩

theorem writesRemainder_middle (h1 : 1 ≤ k) (h2 : k < 32) (hlo : -(2 ^ 31) ≤ corr) (hhi : corr < 2 ^ 31)
    (hk : residualClass corr = k) (hget : a.mc[k - 1]? = some mk) (hmk : mk.wf) (hn : mk.nsym = 2 ^ min k u.bitsHigh)
    (hs : EncReady s) (hroom : s.ffrun.toNat + 9 < 2 ^ 32) : ∃ r t, WritesRemainder u corr k a s r t := by
  have hy : highSymbol u k (positionIn k corr) < mk.nsym := by
    rw [hn]
    exact highSymbol_lt u hlo hhi hk h1
  obtain ⟨w, e, hr, hsym⟩ := codeSym_narrows mk hmk hy hs (by omega)
  have hobs := smObserve_observed _ mk hmk hy
  have coded : ∀ t, (k ≤ u.bitsHigh → t = w) →
      (u.bitsHigh < k → NarrowedDirect (k - u.bitsHigh) (positionIn k corr % 2 ^ (k - u.bitsHigh)) w t) →
      RemainderCoded u corr k a (putMc k (smObserve (highSymbol u k (positionIn k corr)) mk) a) s t := fun t hlow hhigh =>
    ⟨fun h => absurd h (by omega), fun _ => ⟨mk, _, w, hget, hobs, rfl, rfl, hsym, hlow, hhigh⟩, fun h => absurd h (by omega)⟩
  rcases Nat.lt_or_ge u.bitsHigh k with h | h
  · have hrun := hr.2.2.2.2
    obtain ⟨t, ed, hf, hd⟩ := encDirect_narrows (n := k - u.bitsHigh) (v := positionIn k corr % 2 ^ (k - u.bitsHigh))
      hr.ready (by omega) (by omega) (Nat.mod_lt _ (by positivity))
    exact ⟨_, t, writeRemainder_high h1 h2 hget h e ed, hr.1.trans hf, coded t (fun hle => absurd hle h.not_ge) fun _ => hd,
      rfl, rfl, rfl⟩
  · exact ⟨_, w, writeRemainder_low h1 h2 hget h e, hr.1, coded w (fun _ => rfl) fun hlt => absurd hlt h.not_gt,
      rfl, rfl, rfl⟩

theorem writesRemainder_top : WritesRemainder u corr 32 a s a s :=
  ⟨writeRemainder_top, .refl s,
    ⟨fun h => absurd h (by omega), fun h => absurd h.2 (by omega), fun _ => ⟨rfl, rfl, rfl⟩⟩, rfl, rfl, rfl⟩

/-- A residual of a class the unit has is coded whole when the run counter has room for its bytes. -/
theorem exists_writesRemainder (hlo : -(2 ^ 31) ≤ corr) (hhi : corr < 2 ^ 31) (hc : InClass corr k) (hk : k ≤ 32)
    (hmc0 : a.mc0.wf) (hmc : 1 ≤ k → ∃ mk, a.mc[k - 1]? = some mk ∧ mk.wf ∧ mk.nsym = 2 ^ min k u.bitsHigh)
    (hs : EncReady s) (hroom : s.ffrun.toNat + 9 < 2 ^ 32) : ∃ r t, WritesRemainder u corr k a s r t := by
  rcases Nat.eq_zero_or_pos k with rfl | h1
  · exact writesRemainder_zero hc hmc0 hs hroom
  · rcases Nat.lt_or_ge k 32 with h2 | h2
    · obtain ⟨mk, hget, hmk, hn⟩ := hmc h1
      exact writesRemainder_middle h1 h2 hlo hhi ((inClass_iff corr k hlo hhi).mp hc) hget hmk hn hs hroom
    · obtain rfl : k = 32 := by omega
      exact ⟨a, s, writesRemainder_top⟩

end Remainder

/-- IC_COMPRESS whose class symbol and remainder are coded: K, ERR[ctx], MB[ctx][bin] and what the remainder used are
updated. -/
theorem exec_icCompress {s t v : State} {unit : BitVec 8} {ctx : BitVec 16} {p q : Word} {u : IcUnit} {a r : IcAdaptive}
    {e : BitVec 34} {row : List SymModel} {m m' : SymModel} {k : Nat} (hunit : unit.toNat < s.capNic.toNat)
    (hget : s.ic.get unit.toNat = some u) (ha : u.adaptive = some a) (hctx : ctx.toNat < u.contexts)
    (herr : a.err[ctx.toNat]? = some e) (hrow : a.mb[ctx.toNat]? = some row) (hm : row[historyBin u e]? = some m)
    (hs : s.Inv) (hmode : s.mode = .enc) (hc : InClass (wrappedResidual u.bits p q) k) (hk : k ≤ u.corrBits)
    (hsym : codeSym m k s = .ok m' v)
    (hrem : writeRemainder u (wrappedResidual u.bits p q) k (putMb ctx.toNat (historyBin u e) m' { a with k := k }) v = .ok r t)
    (hr : r.err = a.err) (hmb : r.mb = (putMb ctx.toNat (historyBin u e) m' a).mb) (ht : CoderFrame s t) :
    exec (.icCompress unit ctx p q) s = .next (success 0#32 { t with
      ic := s.ic.put unit.toNat { u with adaptive := some { r with
        mb := a.mb.set ctx.toNat (row.set (historyBin u e) m')
        err := a.err.set ctx.toNat
          (BitVec.ofNat 34 (e.toNat - e.toNat / 4 + (wrappedResidual u.bits p q).natAbs)) } } }) := by
  obtain ⟨⟨hu, -⟩, -⟩ := hs.ic_wf hget
  have hcl := residualClass_foldedResidual hu hc
  rw [← foldedResidual_eq u hu] at hrem ⊢
  have hmb0 : lookupMb { a with k := k } ctx.toNat (historyBin u e) s = .ok m s := by
    rw [lookupMb, Res.bind_of_ok (lookup_of_getElem? hrow s), lookup_of_getElem? hm]
  have hwrite : writeCorrector u ctx.toNat (historyBin u e) (foldedResidual u p q) k { a with k := k } s = .ok r t := by
    rw [writeCorrector, Res.bind_of_ok hmb0, Res.bind_of_ok hsym, hrem]
  have hcomp : compress u a ctx.toNat (foldedResidual u p q) s = .ok (errUpdate ctx.toNat (foldedResidual u p q) r) t := by
    rw [compress, Res.bind_of_ok (lookup_of_getElem? herr s), hcl, Res.bind_of_ok hwrite]
  rw [errUpdate_eq herr hrow hr hmb] at hcomp
  refine finish_of_ok hmode ?_
  rw [Res.bind_of_ok (useIcInited_ok unit s u a hunit hget ha), Res.bind_of_ok (check_pos hctx _ _ _),
    Res.bind_of_ok (check_pos (by rwa [hcl]) _ _ _), Res.bind_of_ok hcomp, putIc, ht.ic]
  rfl

/-- Settles O52: the class symbol leaves room for the remainder, which reads and writes MC0 and MC only. -/
theorem icCompressCodesTheResidual : Obligations.IcCompressCodesTheResidual := by
  unfold Obligations.IcCompressCodesTheResidual
  intro s unit ctx p q u a e row m k hs hroom hmode hunit hget ha hctx hc hk herr hrow hm corr
  obtain ⟨hu, hawf, hmwf, hn⟩ := State.ClassModel.spec ⟨hunit, hget, ha, hctx, e, row, herr, hrow, hm⟩ hs
  have hy : k < m.nsym := by omega
  obtain ⟨v, hsym, hrun, hnarrow⟩ := codeSym_narrows m hmwf hy (hs.encReady hmode) (State.runRoom.le hroom (by omega))
  have hv := hrun.2.2.2.2
  have hs12 := State.runRoom.le hroom (n := 12) (by omega)
  obtain ⟨hlo, hhi⟩ := foldedResidual_range u p q
  rw [foldedResidual_eq u hu] at hlo hhi
  have hk32 : k ≤ 32 := hk.trans (hu.corr ▸ hu.2.1)
  obtain ⟨r, t, hrem, hframe, hcoded, hrk, hrerr, hrmb⟩ :=
    exists_writesRemainder (u := u) (a := putMb ctx.toNat (historyBin u e) (smObserve k m) { a with k := k }) hlo hhi hc hk32
      hawf.mc0_wf (fun h1 => mc_get u a hawf k h1 hk) hrun.ready (by omega)
  refine ⟨v, t, smObserve k m, _, smObserve_observed k m hmwf hy, hnarrow, ?_, ?_, ?_, ?_,
    exec_icCompress hunit hget ha hctx herr hrow hm hs hmode hc hk hsym hrem hrerr hrmb (hrun.1.trans hframe).coderFrame⟩
  · exact hcoded
  · exact hrk
  · rfl
  · rfl

end Sys2Proof.Machine

end
